-- ==== Sys2Proof/Word.lean ====
section
/-!
DEFINITION. The value types of the block (spec/00_scope.md R8, R9): bytes, 32-bit registers, and the
fixed-length byte sequences of the cipher. Nothing here is signed (R9).
-/
namespace Sys2Proof

/-- A byte, an unsigned integer 0..255 with bits 7..0 (R9). -/
abbrev Byte := BitVec 8

/-- The contents of one 32-bit register (R8, R26). -/
abbrev Word := BitVec 32

/-- One 16-byte cipher block, byte `i` of the block at index `i` (R54, R100). -/
abbrev Block := Vector Byte 16

/-- One 4-byte word of the key schedule (R101). -/
abbrev Quad := Vector Byte 4

/-- A 256-entry byte table, a total function from bytes to bytes (R8, R33; 90_conflicts.md C1). -/
abbrev Table := Vector Byte 256

/-- The token rewiring of one variant: entry `j` is the source bit of output bit `j` (R8, R93). -/
abbrev Perm := Vector (Fin 8) 8

end Sys2Proof
end

