-- ==== Sys2Proof/Config.lean ====
section
/-!
DEFINITION. The open parameters of an implementation (spec/00_scope.md R6 to R8, spec/92_eei_decisions.md
"Open parameters") and the free values: what the spec leaves unspecified is an uninterpreted constant
here, so that no proof can see it (spec/93_implementation_defined.md U7, U9, U11).
-/
namespace Sys2Proof

/-- `ORDER` of a variant: which byte of the 16-bit match offset comes first (R8, R77). -/
inductive ByteOrder where
  /-- the first byte is the low half -/
  | le
  /-- the first byte is the high half -/
  | be
deriving DecidableEq, Repr, Inhabited

/-- One decompressor variant, a value of the profile's map `VARIANTS` (R8, R80). -/
structure Variant where
  perm : Perm
  order : ByteOrder
deriving DecidableEq, Repr, Inhabited

/-- `PERM` holds every value 0..7 exactly once (R93). -/
def Variant.wf (v : Variant) : Bool := decide v.perm.toList.Nodup

/-- The format profile (R6, R8, R33): read by every rule and written by none (R7). `variants` is the
partial map `VARIANTS` as a list of codes with their variants. -/
structure Profile where
  key : Block
  iv : Block
  sbox : Table
  fbmask : Block
  variants : List (Word × Variant)
deriving DecidableEq, Repr, Inhabited

/-- The constraints the spec puts on a profile (R8): `VARIANTS` is a map, so no code is listed twice,
and every `PERM` is a permutation. `KEY`, `IV`, `SBOX`, `FBMASK` are unconstrained (D33). -/
def Profile.wf (p : Profile) : Bool :=
  decide (p.variants.map Prod.fst).Nodup && p.variants.all fun cv => cv.2.wf

/-- The open parameters of one implementation (R8, R39): the profile and the two capacities;
`obufCap = none` is an unbounded OBUF. -/
structure Params where
  profile : Profile
  ibufCap : Nat
  obufCap : Option Nat
deriving DecidableEq, Repr, Inhabited

/-- The constraints of R8 on the parameters: each capacity between 1 and 2^32. -/
def Params.wf (p : Params) : Bool :=
  p.profile.wf && decide (1 ≤ p.ibufCap ∧ p.ibufCap ≤ 2 ^ 32) &&
    match p.obufCap with
    | none => true
    | some c => decide (1 ≤ c ∧ c ≤ 2 ^ 32)

/-- Whether `n` bytes fit OBUF: `n <= OBUF_CAP`, always so for an unbounded OBUF (R8, R142, R144). -/
def Params.obufHolds (p : Params) (n : Nat) : Bool :=
  match p.obufCap with
  | none => true
  | some c => decide (n ≤ c)

/-- Parameters that meet every constraint of R8. -/
abbrev LegalParams := { p : Params // p.wf = true }

/-- That legal parameters exist; Lean asks for one before it admits an uninterpreted constant of the type.
No claim can tell what `Config.openParams` is, and this is not its value. -/
def Config.someLegalParams : LegalParams :=
  ⟨{ profile := { key := default, iv := default, sbox := default, fbmask := default, variants := [] }
     ibufCap := 1
     obufCap := none }, rfl⟩

/-- The parameters of the modelled implementation: OPEN (R8), so nothing is known of them but that they
are legal. FREE VALUE, notes/assumptions/1.md. -/
opaque Config.openParams [Inhabited LegalParams] : LegalParams

/-- The open parameters, see `Config.openParams`. -/
def Config.params : Params := (@Config.openParams ⟨Config.someLegalParams⟩).val

/-- The three address spaces (R50). -/
inductive Space where
  | ibuf
  | obuf
  | scratch
deriving DecidableEq, Repr

/-- What byte `a` of a space of unit `unit` holds after its `epoch`-th reset while nothing has written it:
unspecified, fixed per location until written (R61, U7, U11). DESIGN CHOICE: nothing relates the bytes of
two units with different `unit`, of two resets, or of two locations (R14, R212). FREE VALUE,
notes/assumptions/2.md and 22.md. -/
opaque Config.unwritten (unit epoch : Nat) (sp : Space) (a : Nat) : Byte

/-- What `FEEDBACK` of unit `unit` holds after its `epoch`-th reset: unspecified (R34, R40). FREE VALUE,
notes/assumptions/3.md and 22.md. -/
opaque Config.resetFeedback (unit epoch : Nat) : Block

/-- What `KS` of unit `unit` holds after its `epoch`-th reset: unspecified (R34, R40). FREE VALUE,
notes/assumptions/3.md and 22.md. -/
opaque Config.resetKs (unit epoch : Nat) : Block

/-- What the `n`-th host read of IBUF or OBUF of unit `unit` during a command returns: unspecified (R53,
U9). DESIGN CHOICE: nothing relates it to another read of the unit or to a read of a unit with another
`unit` (R212, R230). FREE VALUE, notes/assumptions/4.md and 22.md. -/
opaque Config.busyRead (unit n : Nat) : Byte

end Sys2Proof
end

