-- ==== Sys2Proof/Machine/Primitives.lean ====
section
/-!
DEFINITION. The bit and byte primitives of spec/40_primitives.md (R90 to R93), and the counting loop of
the spec's pseudocode (R12).
-/
namespace Sys2Proof.Machine

/-- `for i in 0 .. n-1: body` (R12): ascending, empty when `n = 0`. -/
def forUpTo {σ : Type} : Nat → (Nat → σ → σ) → σ → σ
  | 0, _, s => s
  | n + 1, body, s => body n (forUpTo n body s)

/-- `rol8(x, n)` for 0 <= n <= 7 (R90). -/
def rol8 (x : Byte) (n : Nat) : Byte := if n = 0 then x else (x <<< n) ||| (x >>> (8 - n))

/-- `xtime(x)`: times 2 in GF(2^8) with polynomial 0x11B (R91). -/
def xtime (x : Byte) : Byte := if x.getLsbD 7 then (x <<< 1) ^^^ 0x1B#8 else x <<< 1

/-- `gmul3(x)`: times 3 in the same field (R91). -/
def gmul3 (x : Byte) : Byte := xtime x ^^^ x

/-- `a ^ b` on two byte sequences of the same length (R92). -/
def xorBytes (a b : List Byte) : List Byte := List.zipWith (· ^^^ ·) a b

/-- `a ^ b` on two 16-byte blocks (R92). -/
def xorBlock (a b : Block) : Block := Vector.ofFn fun i : Fin 16 => a[i] ^^^ b[i]

/-- `a ^ b` on two key-schedule words (R92). -/
def xorQuad (a b : Quad) : Quad := Vector.ofFn fun i : Fin 4 => a[i] ^^^ b[i]

/-- The byte whose bit `j` is `b j` (R9). -/
def byteOfBits (b : Fin 8 → Bool) : Byte :=
  BitVec.ofNat 8 ((b 0).toNat + 2 * (b 1).toNat + 4 * (b 2).toNat + 8 * (b 3).toNat +
    16 * (b 4).toNat + 32 * (b 5).toNat + 64 * (b 6).toNat + 128 * (b 7).toNat)

/-- `permute_bits(PERM, t)`: bit `j` of the result is bit `PERM[j]` of `t` (R93). -/
def permuteBits (perm : Perm) (t : Byte) : Byte := byteOfBits fun j => t.getLsbD perm[j].val

/-- The inverse rewiring: bit `PERM[j]` of the result is bit `j` of `p` (R82, R93). -/
def unpermuteBits (perm : Perm) (p : Byte) : Byte :=
  byteOfBits fun k => (List.finRange 8).any fun j => decide (perm[j] = k) && p.getLsbD j.val

/-- `SBOX[x]`: entry `x` of a byte table (R33). -/
def tableAt (t : Table) (x : Byte) : Byte := t[x.toNat]'(x.isLt)

end Sys2Proof.Machine
end

