-- ==== Sys2Proof/Machine/CipherBlock.lean ====
section
/-!
DEFINITION. The block primitive `encrypt_block` (spec/41_cipher_block.md R100 to R106): pure functions of the
profile. Byte `i` of a block is in row `i mod 4` and column `i / 4` (R100).
-/
namespace Sys2Proof.Machine

/-- `sub_bytes(s)` (R102). -/
def subBytes (t : Table) (s : Block) : Block := Vector.ofFn fun i : Fin 16 => tableAt t s[i]

/-- `shift_rows(s)`: `s'[r + 4c] = s[r + 4*((c + r) mod 4)]` with `r = i mod 4`, `c = i / 4` (R103). -/
def shiftRows (s : Block) : Block :=
  Vector.ofFn fun i : Fin 16 => s[i.val % 4 + 4 * ((i.val / 4 + i.val % 4) % 4)]

/-- Byte `r` of one mixed column `a0 a1 a2 a3` (R104). -/
def mixByte (a0 a1 a2 a3 : Byte) : Nat → Byte
  | 0 => xtime a0 ^^^ gmul3 a1 ^^^ a2 ^^^ a3
  | 1 => a0 ^^^ xtime a1 ^^^ gmul3 a2 ^^^ a3
  | 2 => a0 ^^^ a1 ^^^ xtime a2 ^^^ gmul3 a3
  | _ => gmul3 a0 ^^^ a1 ^^^ a2 ^^^ xtime a3

/-- `mix_columns(s)` (R104). -/
def mixColumns (s : Block) : Block :=
  Vector.ofFn fun i : Fin 16 =>
    mixByte s[4 * (i.val / 4)] s[4 * (i.val / 4) + 1] s[4 * (i.val / 4) + 2] s[4 * (i.val / 4) + 3]
      (i.val % 4)

/-- `add_round_key(s, RK[r])` (R105). -/
def addRoundKey (s rk : Block) : Block := xorBlock s rk

/-- `RCON[0..10)` (R101). -/
def rcon (k : Nat) : Byte :=
  [0x01#8, 0x02#8, 0x04#8, 0x08#8, 0x10#8, 0x20#8, 0x40#8, 0x80#8, 0x1b#8, 0x36#8].getD k 0#8

/-- The word substitution of the key schedule: rotate by one byte, substitute through the profile's
S-box, add the round constant to the first byte (R101). -/
def scheduleWord (t : Table) (w : Quad) (rc : Byte) : Quad :=
  #v[tableAt t w[1] ^^^ rc, tableAt t w[2], tableAt t w[3], tableAt t w[0]]

/-- `w[i]` of a list of schedule words. -/
def quadAt (ws : List Quad) (i : Nat) : Quad := ws.getD i #v[0#8, 0#8, 0#8, 0#8]

/-- One step of the schedule: from `w[0..i)` to `w[0..i]` (R101). -/
def scheduleStep (t : Table) (ws : List Quad) : List Quad :=
  let i := ws.length
  let prev := quadAt ws (i - 1)
  let f := if i % 4 = 0 then scheduleWord t prev (rcon (i / 4 - 1)) else prev
  ws ++ [xorQuad (quadAt ws (i - 4)) f]

/-- The 44 words `w[0..44)` of the key schedule (R101). -/
def keyWords (key : Block) (t : Table) : List Quad :=
  forUpTo 40 (fun _ ws => scheduleStep t ws)
    [#v[key[0], key[1], key[2], key[3]], #v[key[4], key[5], key[6], key[7]],
     #v[key[8], key[9], key[10], key[11]], #v[key[12], key[13], key[14], key[15]]]

/-- `RK[r] = w[4r] ++ w[4r+1] ++ w[4r+2] ++ w[4r+3]` (R101). -/
def roundKeyOf (ws : List Quad) (r : Nat) : Block :=
  Vector.ofFn fun i : Fin 16 => (quadAt ws (4 * r + i.val / 4))[i.val % 4]

/-- `key_expand(KEY, SBOX)`: round key `r` (R101). Round keys are no state (R35). -/
def roundKey (key : Block) (t : Table) (r : Nat) : Block := roundKeyOf (keyWords key t) r

/-- The rounds of R106 over the words of a key schedule. -/
def encryptWith (t : Table) (ws : List Quad) (x : Block) : Block :=
  let s := forUpTo 9 (fun k s =>
    addRoundKey (mixColumns (shiftRows (subBytes t s))) (roundKeyOf ws (k + 1)))
    (addRoundKey x (roundKeyOf ws 0))
  addRoundKey (shiftRows (subBytes t s)) (roundKeyOf ws 10)

/-- `encrypt_block(in)` (R106): an initial key addition, nine full rounds, and a tenth without the mix
step. -/
def encryptBlock (p : Profile) (x : Block) : Block := encryptWith p.sbox (keyWords p.key p.sbox) x

end Sys2Proof.Machine
end

