-- ==== Sys2Proof/Syntax.lean ====
section
/-!
DEFINITION. The instructions of the block, one constructor per row of spec/opcode_table.json: the two
commands (spec/30_encoding.md R71) and the two sequence forms of the compressed stream (R73, R78).
-/
namespace Sys2Proof

/-- One sequence of the compressed stream (format `LZ4SEQ`, R73), its parts as values: the literal run,
and for every sequence but the last the match. -/
inductive Sequence where
  /-- parts 1 to 5: literal bytes, match offset (R77), match length (nibble completed, plus 4; R76) -/
  | seq (lits : List Byte) (off : BitVec 16) (mlen : Nat)
  /-- parts 1 to 3: literal bytes and the token's `M` field, which is read and ignored (R146) -/
  | last (lits : List Byte) (m : BitVec 4)
deriving DecidableEq, Repr

/-- The instructions. The two commands carry no immediate: their operands are in registers and IBUF
(R70). The two sequence forms carry the parts of the sequence (R73, R82). -/
inductive Instr where
  /-- `DECRYPT` (R124) -/
  | decrypt
  /-- `DECOMPRESS` (R148) -/
  | decompress
  /-- `LZ4.SEQ` (R145): one sequence that is not the last -/
  | lz4Seq (lits : List Byte) (off : BitVec 16) (mlen : Nat)
  /-- `LZ4.END` (R146): the last sequence -/
  | lz4End (lits : List Byte) (m : BitVec 4)
deriving DecidableEq, Repr

/-- A sequence as an instruction of the opcode table. -/
def Sequence.toInstr : Sequence → Instr
  | .seq lits off mlen => .lz4Seq lits off mlen
  | .last lits m => .lz4End lits m

/-- The literal bytes of a sequence (R73 part 3). -/
def Sequence.lits : Sequence → List Byte
  | .seq lits _ _ => lits
  | .last lits _ => lits

end Sys2Proof
end

