-- ==== Sys2Proof/WellFormed.lean ====
section
/-!
DEFINITION. Which instructions have an encoding (spec/30_encoding.md R73 to R77): the checks an
instruction must pass to stand in a stream.
-/
namespace Sys2Proof

/-- How many extension bytes a length `n` (nibble included) needs: none below 15, else one byte per 255
and one last byte below 255 (R76). -/
def extCount (n : Nat) : Nat := if n < 15 then 0 else (n - 15) / 255 + 1

/-- The length of a sequence in bytes, how far it advances `ip` (R75): `1 + e_L + lit` for the last
sequence, `1 + e_L + lit + 2 + e_M` for any other. -/
def Sequence.size : Sequence → Nat
  | .seq lits _ mlen => 1 + extCount lits.length + lits.length + 2 + extCount (mlen - 4)
  | .last lits _ => 1 + extCount lits.length + lits.length

/-- The greatest length of a stream: `LEN` is a 32-bit register (R22, R24). -/
def maxStream : Nat := 2 ^ 32 - 1

/-- A sequence that can stand in a stream: a match is at least 4 long (R76, R82: "mlen >= 4 required"),
and the sequence is no longer than the longest stream. An offset of 0 is encodable; it is an error when
it is executed (R79, R144), so it is not ill-formed here. -/
def Sequence.wellFormed : Sequence → Bool
  | .seq lits off mlen => decide (4 ≤ mlen) && decide ((Sequence.seq lits off mlen).size ≤ maxStream)
  | .last lits m => decide ((Sequence.last lits m).size ≤ maxStream)

/-- An instruction that has an encoding. -/
def Instr.wellFormed : Instr → Bool
  | .decrypt => true
  | .decompress => true
  | .lz4Seq lits off mlen => (Sequence.seq lits off mlen).wellFormed
  | .lz4End lits m => (Sequence.last lits m).wellFormed

end Sys2Proof
end

