-- ==== Sys2Proof/Decode.lean ====
section
/-!
DEFINITION. The encodings of spec/30_encoding.md: command words (R70 to R72) and the sequences of a
compressed stream (R73 to R79), the decoder of both, total on any word and any bytes and rejecting by
name, and the encoder of both (R71, R82).
-/
namespace Sys2Proof

open Machine

/-- What stands where an instruction is fetched: the word written to `CMD` (R70), or the bytes of the
stream from `ip` up to its end (R73). -/
inductive Encoding where
  | command (w : Word)
  | stream (src : List Byte)
deriving DecidableEq, Repr

/-- Why an encoding is no instruction. -/
inductive Reject where
  /-- the command word is not one of R71's two (R72) -/
  | illegalCommand (w : Word)
  /-- the stream ends where a byte is required (R79): `pos` is the distance from the sequence's token to
  the missing byte (to the first byte of a literal run), `run` the sequence's literal run if that was
  complete, so that only a byte after it is missing (R195) -/
  | truncated (pos : Nat) (run : Option (List Byte))
deriving DecidableEq, Repr

/-- The decoder's answer. -/
inductive Decoded where
  | ok (i : Instr)
  | reject (r : Reject)
deriving DecidableEq, Repr

/-- The decoder's answer for one sequence of a stream. -/
inductive DecodedSeq where
  | ok (q : Sequence)
  | reject (r : Reject)
deriving DecidableEq, Repr

/-! ### Command words -/

/-- Format `CMDW` and the commands of R71: every other word is illegal (R72). -/
def decodeCommand (w : Word) : Decoded :=
  if w.toNat / 256 ≠ 0 then .reject (.illegalCommand w)
  else if w.toNat % 256 = 0x01 then .ok .decrypt
  else if w.toNat % 256 = 0x02 then .ok .decompress
  else .reject (.illegalCommand w)

/-! ### Sequences -/

/-- `token_split(t)`: the pair (literal nibble `L`, match nibble `M`) of the rewired token (R74, R140). -/
def tokenSplit (v : Variant) (t : Byte) : BitVec 4 × BitVec 4 :=
  let p := permuteBits v.perm t
  (p.extractLsb' 4 4, p.extractLsb' 0 4)

/-- The extension bytes of a length: their sum, their number and the bytes after them; `none` if the
stream ends first (R76, R141). -/
def readExt : List Byte → Option (Nat × Nat × List Byte)
  | [] => none
  | b :: rest =>
    if b = 255#8 then
      match readExt rest with
      | none => none
      | some (n, k, rest') => some (255 + n, k + 1, rest')
    else some (b.toNat, 1, rest)

/-- `read_len_ext(base)`: the completed length, how many extension bytes it took, and the bytes after
them (R141). -/
def readLenExt (base : Nat) (src : List Byte) : Option (Nat × Nat × List Byte) :=
  if base = 15 then
    match readExt src with
    | none => none
    | some (n, k, rest) => some (15 + n, k, rest)
  else some (base, 0, src)

/-- The 16-bit match offset from its two bytes in stream order (R77, R143). -/
def offsetOf (order : ByteOrder) (b0 b1 : Byte) : BitVec 16 :=
  match order with
  | .le => b1 ++ b0
  | .be => b0 ++ b1

/-- The sequence at the start of `src`, the stream's bytes from `ip` to its end (R73, R145): it is the
last one if the stream is exhausted immediately after its literal run (R75, R146). The checks come in
the order of R145. -/
def decodeSequence (v : Variant) (src : List Byte) : DecodedSeq :=
  match src with
  | [] => .reject (.truncated 0 none)
  | t :: afterToken =>
    match readLenExt (tokenSplit v t).1.toNat afterToken with
    | none => .reject (.truncated src.length none)
    | some (lit, eL, r1) =>
      if r1.length < lit then .reject (.truncated (1 + eL) none)
      else
        match r1.drop lit with
        | [] => .ok (.last (r1.take lit) (tokenSplit v t).2)
        | [_] => .reject (.truncated (1 + eL + lit) (some (r1.take lit)))
        | b0 :: b1 :: r2 =>
          match readLenExt (tokenSplit v t).2.toNat r2 with
          | none => .reject (.truncated src.length (some (r1.take lit)))
          | some (m, _, _) => .ok (.seq (r1.take lit) (offsetOf v.order b0 b1) (m + 4))

/-- The decoder: total on every word and every stream. The variant matters to a stream only. -/
def decode (v : Variant) : Encoding → Decoded
  | .command w => decodeCommand w
  | .stream src =>
    match decodeSequence v src with
    | .ok q => .ok q.toInstr
    | .reject r => .reject r

/-! ### The encoder -/

/-- The stored token of a literal nibble and a match nibble (R82: the inverse rewiring). -/
def encodeToken (v : Variant) (l m : Nat) : Byte :=
  unpermuteBits v.perm (BitVec.ofNat 8 (16 * l + m))

/-- The extension bytes of a length (R76). -/
def encodeExt (n : Nat) : List Byte :=
  if n < 15 then []
  else List.replicate ((n - 15) / 255) 255#8 ++ [BitVec.ofNat 8 ((n - 15) % 255)]

/-- The two offset bytes in the variant's order (R77). -/
def encodeOffset (order : ByteOrder) (off : BitVec 16) : List Byte :=
  let lo := off.extractLsb' 0 8
  let hi := off.extractLsb' 8 8
  match order with
  | .le => [lo, hi]
  | .be => [hi, lo]

/-- The bytes of one sequence (R82; for the last one the token's ignored `M` is the instruction's own). -/
def encodeSequence (v : Variant) : Sequence → List Byte
  | .seq lits off mlen =>
    encodeToken v (min lits.length 15) (min (mlen - 4) 15) ::
      (encodeExt lits.length ++ lits ++ encodeOffset v.order off ++ encodeExt (mlen - 4))
  | .last lits m =>
    encodeToken v (min lits.length 15) m.toNat :: (encodeExt lits.length ++ lits)

/-- The encoder: the command word (R71), or the stream bytes of a sequence (R82). -/
def encode (v : Variant) : Instr → Encoding
  | .decrypt => .command 0x00000001#32
  | .decompress => .command 0x00000002#32
  | .lz4Seq lits off mlen => .stream (encodeSequence v (.seq lits off mlen))
  | .lz4End lits m => .stream (encodeSequence v (.last lits m))

/-- A whole stream as R82 assembles it: its sequences one after another, the last one last. -/
def encodeStream (v : Variant) (seqs : List Sequence) : List Byte :=
  (seqs.map (encodeSequence v)).flatten

/-! ### The opcode table's words -/

/-- The identity rewiring with `ORDER = LE`, the stock variant (R74: `PERM` the identity is stock LZ4).
The opcode table numbers the bits of the token AFTER the permutation, so its words are laid out for
this variant, under which the stored token is the table's word (notes/assumptions/5.md). -/
def stockVariant : Variant := { perm := #v[0, 1, 2, 3, 4, 5, 6, 7], order := .le }

/-- How many bytes of zeros follow a table token: more than any sequence of a table word needs (one
literal extension byte, 15 literals, two offset bytes, one match extension byte). -/
def tableTail : Nat := 19

/-- The stream of a table token: the token, then its operand bytes, all zero. -/
def tableStream (w : Nat) : List Byte :=
  unpermuteBits stockVariant.perm (BitVec.ofNat 8 w) :: List.replicate tableTail 0#8

/-- The table's rows have 32 bits (a command word) or 8 (a token); both are given to `decode`. -/
def tableEncoding (nbits w : Nat) : Option Encoding :=
  if nbits = 32 ∧ w < 2 ^ 32 then some (.command (BitVec.ofNat 32 w))
  else if nbits = 8 ∧ w < 2 ^ 8 then some (.stream (tableStream w))
  else none

/-- The instruction the decoder reads from an opcode-table word (bit 0 the least significant bit of the
first word, every bit above `nbits` zero). The two rows `LZ4.SEQ` and `LZ4.END` have the same words and
are told apart by position only (R78): here bytes follow the literals, so the word is an `LZ4.SEQ`
(notes/assumptions/5.md). -/
def decodeTableWord (nbits w : Nat) : Option Instr :=
  match tableEncoding nbits w with
  | none => none
  | some e =>
    match decode stockVariant e with
    | .ok i => some i
    | .reject _ => none

end Sys2Proof
end

