-- ==== Sys2Proof/Machine/State.lean ====
section
/-!
DEFINITION. The state of one CBCD unit (spec/10_state.md R20), its reset (R40, R220) and the reasons a
transition can stop. INVENTORY.md "State" lists every field with its rule.
-/
namespace Sys2Proof.Machine

/-- `STATUS.STATE` (R28, R170). -/
inductive CmdState where
  /-- no command since reset -/
  | idle
  /-- a command is in progress -/
  | busy
  /-- the last command completed without error -/
  | done
  /-- the last command ended with an error -/
  | error
deriving DecidableEq, Repr

/-- `ERR.CODE` (R29, R190). -/
inductive ErrCode where
  | none
  | truncated
  /-- reserved, never raised by this block (R190) -/
  | notRecognized
  | sizeMismatch
  | unsupportedCompressionType
  | badOffset
  | outputOverrun
  | illegalCommand
  | lengthRange
deriving DecidableEq, Repr

/-- A byte memory: the bytes written since reset, by rising address (R50). An address that is not
listed has been written by nobody since reset. -/
abbrev Memory := List Host.Cell

/-- The command latch: the command word and the operand registers as they were at issue (R38, R171). -/
structure Latch where
  cmd : Word
  len : Word
  expected : Word
  variant : Word
deriving DecidableEq, Repr

/-- Unit C's working storage (R34, R36) and sequencing state (R24: block index `b`, sample index `j`). -/
structure UnitC where
  feedback : Block
  ks : Block
  scratch : Memory
  blockIdx : Nat
  sampleIdx : Nat
deriving DecidableEq, Repr

/-- Unit Z's working storage (R24): `ip`, `op`, the fields of the sequence being decoded, and the
variant selected for the command (R148). `running` says that a DECOMPRESS is between two of its
sequences, so that the block's next step is the sequence at `ip`. -/
structure UnitZ where
  running : Bool
  sel : Variant
  ip : Nat
  op : Nat
  lit : Nat
  mat : Nat
  off : Nat
  mlen : Nat
deriving DecidableEq, Repr

/-- The state of one CBCD unit (R20). `CMD` stores nothing (R27). `params` is no state of the hardware
but the argument of its rules (R7, R39): it stands here because a step takes no other argument, and no
step writes it (notes/assumptions/1.md). `unit` (which unit this is), `epoch` (resets so far) and `draws`
(host reads of a buffer during a command so far) index the free values of `Config`; they are the model's
own, no event changes `unit`, and nothing the block does depends on it: the spec's units have no
identifiers (R212; DESIGN CHOICE, notes/assumptions/22.md). -/
structure State where
  params : Params
  status : CmdState
  err : ErrCode
  errInfo : Word
  len : Word
  expected : Word
  variant : Word
  produced : Word
  ibuf : Memory
  obuf : Memory
  latch : Latch
  c : UnitC
  z : UnitZ
  unit : Nat
  epoch : Nat
  draws : Nat
deriving DecidableEq, Repr

/-- Why the machine stops. No instruction and no step of the block ends so. -/
inductive Fault where
  /-- a host access through the data port to an index outside the buffer (R50, R53): raised by
  `hostMove`, never by `step`; safe -/
  | noSuchAddress (sp : Space) (a : Nat)
deriving DecidableEq, Repr

/-- Why a transition is not offered. No instruction and no step of the block ends so. -/
inductive Refusal where
  /-- an instruction without a meaning yet; no arm of `exec` answers so -/
  | notModelled (mnemonic : String)
  /-- the platform changes the profile while a command is in progress, which the spec tells a model not
  to offer (U10, R232): raised by `sysStep`, never by `step`; safe -/
  | profileWhileBusy
  /-- the platform puts a profile in place that breaks a constraint of R8: raised by `sysStep`, never by
  `step`; safe -/
  | illegalProfile
deriving DecidableEq, Repr

/-- The state of unit `unit` with parameters `p` after its `epoch`-th reset (R40, R220 to R222):
registers 0, `STATE = IDLE`, nothing written in any memory, the parameters unchanged. `ip`, `op`, the
sequence fields, the indices and the latch are dead; they are 0 here (notes/assumptions/6.md). -/
def State.afterReset (p : Params) (unit epoch draws : Nat) : State where
  params := p
  status := .idle
  err := .none
  errInfo := 0
  len := 0
  expected := 0
  variant := 0
  produced := 0
  ibuf := []
  obuf := []
  latch := { cmd := 0, len := 0, expected := 0, variant := 0 }
  c := { feedback := Config.resetFeedback unit epoch, ks := Config.resetKs unit epoch, scratch := [],
         blockIdx := 0, sampleIdx := 0 }
  z := { running := false, sel := stockVariant, ip := 0, op := 0, lit := 0, mat := 0, off := 0, mlen := 0 }
  unit := unit
  epoch := epoch
  draws := draws

/-- The machine right after its first reset (R40, R220). -/
def State.reset : State := State.afterReset Config.params 0 0 0

end Sys2Proof.Machine
end

