-- ==== Sys2Proof/Machine/Ops.lean ====
section
/-!
DEFINITION. The named operations over memory and registers: reading and writing a byte of an address
space (spec/20_memory.md R50, R51), ending a command with or without error (spec/44_host_commands.md
R173, spec/60_exceptions.md R195), and the host's issue of the next command, which is all the return from
an error there is (R171, R201).
-/
namespace Sys2Proof.Machine

/-! ### Memory -/

/-- The canonical form of a memory: addresses strictly rising. -/
abbrev Memory.wf (m : Memory) : Prop := m.Pairwise fun x y => x.1 < y.1

/-- The byte written at an address, if any has been since reset. -/
def Memory.get? : Memory → Nat → Option Byte
  | [], _ => none
  | (b, v) :: m, a => if a = b then some v else Memory.get? m a

/-- The memory with byte `v` at address `a`. -/
def Memory.put : Memory → Nat → Byte → Memory
  | [], a, v => [(a, v)]
  | (b, w) :: m, a, v =>
    if a < b then (a, v) :: (b, w) :: m
    else if a = b then (a, v) :: m
    else (b, w) :: Memory.put m a v

/-- The memory of an address space (R50). -/
def State.mem (s : State) : Space → Memory
  | .ibuf => s.ibuf
  | .obuf => s.obuf
  | .scratch => s.c.scratch

/-- `MemRead(S, a, 1)` (R51): the last value written, or the free value of a byte nobody has written
since reset (R61, U7). -/
def State.readByte (s : State) (sp : Space) (a : Nat) : Byte :=
  match (s.mem sp).get? a with
  | some v => v
  | none => Config.unwritten s.unit s.epoch sp a

/-- The state with another memory for an address space. The spaces do not alias (R50). -/
def State.setMem (s : State) (sp : Space) (m : Memory) : State :=
  match sp with
  | .ibuf => { s with ibuf := m }
  | .obuf => { s with obuf := m }
  | .scratch => { s with c := { s.c with scratch := m } }

/-- `MemWrite(S, a, 1, v)` (R51). -/
def State.writeByte (s : State) (sp : Space) (a : Nat) (v : Byte) : State :=
  s.setMem sp ((s.mem sp).put a v)

/-- `MemRead(S, a, n)`: `n` bytes, lowest address first (R51). -/
def State.readBytes (s : State) (sp : Space) : Nat → Nat → List Byte
  | _, 0 => []
  | a, n + 1 => s.readByte sp a :: s.readBytes sp (a + 1) n

/-- `MemWrite(S, a, n, v)`: the bytes of `v` in ascending order from `a` (R51). -/
def State.writeBytes (s : State) (sp : Space) : Nat → List Byte → State
  | _, [] => s
  | a, v :: vs => (s.writeByte sp a v).writeBytes sp (a + 1) vs

/-- Whether index `a` names a byte of the space (R50): IBUF and OBUF have their capacities, SCRATCH 256
bytes. -/
def State.inSpace (s : State) : Space → Nat → Bool
  | .ibuf, a => decide (a < s.params.ibufCap)
  | .obuf, a => s.params.obufHolds (a + 1)
  | .scratch, a => decide (a < 256)

/-! ### The end of a command -/

/-- `done`: completion without error (R173): `STATE <- DONE`, `ERR` and `ERRINFO` 0. -/
def State.complete (s : State) : State :=
  { s with status := .done, err := .none, errInfo := 0, z := { s.z with running := false } }

/-- `raise E(info)`: the one entry of every error (R195): the command stops, `ERR.CODE <- code of E`,
`ERRINFO <- info mod 2^32`, `STATE <- ERROR`. Nothing is saved anywhere else. -/
def State.raise (s : State) (e : ErrCode) (info : Nat) : State :=
  { s with status := .error, err := e, errInfo := BitVec.ofNat 32 info, z := { s.z with running := false } }

/-- `PRODUCED <- v mod 2^32` (R31). -/
def State.setProduced (s : State) (v : Nat) : State := { s with produced := BitVec.ofNat 32 v }

/-- `raise E(info)` inside `lz4_decode`: `PRODUCED <- op` and then the error (R148, R195). -/
def State.raiseStream (s : State) (e : ErrCode) (info : Nat) : State := (s.setProduced s.z.op).raise e info

/-! ### The start of a command -/

/-- Issue of the word `w` (R171): `ERR` and `ERRINFO` cleared, `STATE <- BUSY`, the command word and the
operand registers latched. There is no other return from an error (R201). -/
def State.issue (s : State) (w : Word) : State :=
  { s with
    status := .busy
    err := .none
    errInfo := 0
    latch := { cmd := w, len := s.len, expected := s.expected, variant := s.variant }
    z := { s.z with running := false } }

/-- A reset (R220 to R222): it does not depend on what the unit was doing, and the parameters stay. -/
def State.hostReset (s : State) : State := State.afterReset s.params s.unit (s.epoch + 1) s.draws

end Sys2Proof.Machine
end

