-- ==== Sys2Proof/Machine/Operands.lean ====
section
/-!
DEFINITION. Where a command and a sequence find their operands: the latched registers (spec/10_state.md R38),
the selected variant (spec/43_lz4_decompress.md R148) and the bytes of the stream at `ip`.
-/
namespace Sys2Proof.Machine

/-- `n`, the latched `LEN` (R38, R124, R148). -/
def State.opLen (s : State) : Nat := s.latch.len.toNat

/-- The latched `EXPECTED` (R148). -/
def State.opExpected (s : State) : Nat := s.latch.expected.toNat

/-- `VARIANTS(VARIANT)`: the variant of the latched code, if the profile has one (R80, R148). -/
def State.opVariant? (s : State) : Option Variant := s.params.profile.variants.lookup s.latch.variant

/-- The second command check (R172): `LEN <= IBUF_CAP`. -/
def State.lenInRange (s : State) : Bool := decide (s.opLen ≤ s.params.ibufCap)

/-- The rest of the stream, `IBUF[ip..LEN)` (R73): the operands of a sequence are the bytes at `ip`
(R145). -/
def State.streamRest (s : State) : List Byte := s.readBytes .ibuf s.z.ip (s.opLen - s.z.ip)

/-- The sequence at `ip`, decoded under the selected variant. -/
def State.fetchSequence (s : State) : DecodedSeq := decodeSequence s.z.sel s.streamRest

/-- The command in the latch (R70 to R72). -/
def State.fetchCommand (s : State) : Decoded := decodeCommand s.latch.cmd

end Sys2Proof.Machine
end

