-- ==== Sys2Proof/Machine/CipherModes.lean ====
section
/-!
DEFINITION. Unit C: the feedback function, the two modes and the command `DECRYPT` (spec/42_cipher_modes.md R120
to R124).
-/
namespace Sys2Proof.Machine

/-- `nlfb(ks)` (R120): byte `i` is `SBOX[rol8(ks[i] ^ (31*i mod 256) ^ FBMASK[i], 5)]`. -/
def nlfb (p : Profile) (ks : Block) : Block :=
  Vector.ofFn fun i : Fin 16 => tableAt p.sbox (rol8 (ks[i] ^^^ BitVec.ofNat 8 (31 * i.val) ^^^ p.fbmask[i]) 5)

/-- Byte `i` of a keystream block, for the index of a byte inside its block. -/
def blockByte (b : Block) (i : Nat) : Byte := b.toList.getD i 0#8

/-- One iteration of `decrypt_small`'s loop (R121): block `b` of the `n` bytes of space `sp`, a final
block of fewer than 16 bytes taking the first bytes of its keystream block. `FEEDBACK` is computed after every
block, as R121 says, also after a partial final one, where D7 says that none is computed; it is dead there
(R34; DESIGN CHOICE, notes/assumptions/24.md). -/
def cipherBlock (sp : Space) (n b : Nat) (s : State) : State :=
  let ks := encryptBlock s.params.profile s.c.feedback
  let s1 : State := { s with c := { s.c with ks := ks, blockIdx := b } }
  let s2 := forUpTo (min 16 (n - 16 * b))
    (fun i u => u.writeByte sp (16 * b + i) (u.readByte sp (16 * b + i) ^^^ blockByte ks i)) s1
  { s2 with c := { s2.c with feedback := nlfb s2.params.profile ks } }

/-- `decrypt_small(S, n)` (R121): the feedback starts from `IV` in every call. -/
def decryptSmall (sp : Space) (n : Nat) (s : State) : State :=
  forUpTo ((n + 15) / 16) (cipherBlock sp n) { s with c := { s.c with feedback := s.params.profile.iv } }

/-- `num_blocks` of `stride_params(n)` (R122). -/
def numBlocks (n : Nat) : Nat := n / 16

/-- `step` of `stride_params(n)`: `max(1, 256 / num_blocks)` by floor division (R122, C3). -/
def strideStep (n : Nat) : Nat := max 1 (256 / numBlocks n)

/-- `count` of `stride_params(n)`: `min(num_blocks, 256)` (R122). -/
def strideCount (n : Nat) : Nat := min (numBlocks n) 256

/-- One gather step of `decrypt_large` (R123): sample `j` from IBUF to SCRATCH. -/
def gatherSample (step j : Nat) (s : State) : State :=
  let s1 : State := { s with c := { s.c with sampleIdx := j } }
  s1.writeBytes .scratch (j * step) (s1.readBytes .ibuf (16 * j) step)

/-- One scatter step of `decrypt_large` (R123): sample `j` from SCRATCH to IBUF. -/
def scatterSample (step j : Nat) (s : State) : State :=
  let s1 : State := { s with c := { s.c with sampleIdx := j } }
  s1.writeBytes .ibuf (16 * j) (s1.readBytes .scratch (j * step) step)

/-- `decrypt_large(n)` (R123): gather, decrypt the scratch as one small buffer, scatter. -/
def decryptLarge (n : Nat) (s : State) : State :=
  let gathered := forUpTo (strideCount n) (gatherSample (strideStep n)) s
  let decrypted := decryptSmall .scratch (strideStep n * strideCount n) gathered
  forUpTo (strideCount n) (scatterSample (strideStep n)) decrypted

/-- How many bytes of IBUF a DECRYPT of `n` bytes touches (R31, R124). -/
def touchedCount (n : Nat) : Nat := if n ≤ 256 then n else strideStep n * strideCount n

/-- The body of `DECRYPT` after the command checks (R124), without the completion. -/
def decryptBuffer (n : Nat) (s : State) : State :=
  if n ≤ 256 then decryptSmall .ibuf n s else decryptLarge n s

/-- `DECRYPT` (R124), with the length check every command makes first (R172). -/
def decryptCommand (s : State) : State :=
  if s.lenInRange then ((decryptBuffer s.opLen s).setProduced (touchedCount s.opLen)).complete
  else s.raise .lengthRange s.opLen

/-- The meaning of `DECRYPT`. -/
def execDecrypt (s : State) : Host.Outcome State Fault Refusal := .next (decryptCommand s)

end Sys2Proof.Machine
end

