-- ==== Sys2Proof/Machine/Decompress.lean ====
section
/-!
DEFINITION. Unit Z: the literal run, the match copy, the two sequence forms, the stream loop and the command
`DECOMPRESS` (spec/43_lz4_decompress.md R140 to R148).
-/
namespace Sys2Proof.Machine

/-! ### Literal run -/

/-- The `ip` of the first literal byte of the sequence at `ip`: after the token and the literal
extension (R73, R75). -/
def State.literalStart (s : State) (lits : List Byte) : Nat := s.z.ip + 1 + extCount lits.length

/-- Whether the literal run fits OBUF (R142). -/
def State.literalFits (s : State) (lits : List Byte) : Bool := s.params.obufHolds (s.z.op + lits.length)

/-- The literal run copy (R142), its checks made: the bytes go to `OBUF[op..op+lit)`, `ip` and `op`
advance past them. -/
def State.literalRun (s : State) (lits : List Byte) : State :=
  let s1 := s.writeBytes .obuf s.z.op lits
  { s1 with z := { s1.z with ip := s.literalStart lits + lits.length, op := s.z.op + lits.length, lit := lits.length } }

/-! ### Match copy -/

/-- The match copy loop (R144): ascending, one byte at a time, so that a byte written earlier in the copy
can be read later in it. -/
def State.copyMatch (s : State) (off mlen : Nat) : State :=
  forUpTo mlen (fun k u => u.writeByte .obuf (s.z.op + k) (u.readByte .obuf (s.z.op + k - off))) s

/-- The offset and the match length have been read (R143, R145): `ip` is past them, at the next
sequence. -/
def State.matchFields (s : State) (off mlen : Nat) : State :=
  { s with z := { s.z with
      ip := s.z.ip + 2 + extCount (mlen - 4), mat := min (mlen - 4) 15, off := off, mlen := mlen } }

/-- The match of the sequence whose first offset byte is at `q` (R144): `BadOffset` before
`OutputOverrun`, both leaving `op` unchanged. -/
def State.matchCopy (s : State) (q off mlen : Nat) : State :=
  if off = 0 ∨ s.z.op < off then s.raiseStream .badOffset q
  else if s.params.obufHolds (s.z.op + mlen) then
    let s1 := s.copyMatch off mlen
    { s1 with z := { s1.z with op := s.z.op + mlen } }
  else s.raiseStream .outputOverrun q

/-! ### The two sequence forms -/

/-- `LZ4.SEQ` (R145) on a sequence whose bytes are all there: literal run, then match. A literal run that
does not fit raises with unit Z's dead `ip` and fields as they were before the sequence (DESIGN CHOICE,
notes/assumptions/23.md). -/
def lz4Seq (lits : List Byte) (off : BitVec 16) (mlen : Nat) (s : State) : State :=
  if s.literalFits lits then
    let s1 := s.literalRun lits
    (s1.matchFields off.toNat mlen).matchCopy s1.z.ip off.toNat mlen
  else s.raiseStream .outputOverrun (s.literalStart lits)

/-- The end of DECOMPRESS after its last sequence (R148): `PRODUCED <- op`, then the size check, which
is made only here (R192). -/
def State.finishStream (s : State) : State :=
  let s1 := s.setProduced s.z.op
  if s.z.op = s.opExpected then s1.complete else s1.raise .sizeMismatch s.z.op

/-- `LZ4.END` (R146): literal run, then decoding stops and the command completes. The dead `mat`, `off` and
`mlen` stay as they were, and so do `ip` and `lit` if the run does not fit (DESIGN CHOICE,
notes/assumptions/23.md). -/
def lz4End (lits : List Byte) (_m : BitVec 4) (s : State) : State :=
  if s.literalFits lits then (s.literalRun lits).finishStream
  else s.raiseStream .outputOverrun (s.literalStart lits)

/-- A stream that ends inside the sequence at `ip` (R79, R141 to R145): `Truncated` with the position of
the missing byte. If the literal run was complete it has been executed, with its own check first. Of unit Z's
`ip` and fields, dead from here on (R24), only `ip` and `lit` of an executed literal run are set, not what was
read of the sequence beside it (DESIGN CHOICE, notes/assumptions/23.md). -/
def truncatedSequence (pos : Nat) (run : Option (List Byte)) (s : State) : State :=
  match run with
  | none => s.raiseStream .truncated (s.z.ip + pos)
  | some lits =>
    if s.literalFits lits then (s.literalRun lits).raiseStream .truncated (s.z.ip + pos)
    else s.raiseStream .outputOverrun (s.literalStart lits)

/-- What a rejected encoding raises: `IllegalCommand` with the word (R72, R172), or the truncation of the
stream. -/
def rejected (r : Reject) (s : State) : State :=
  match r with
  | .illegalCommand w => s.raise .illegalCommand w.toNat
  | .truncated pos run => truncatedSequence pos run s

/-! ### The stream loop -/

/-- One iteration of `lz4_decode`'s loop: "execute one sequence at ip" (R147). -/
def sequenceStep (s : State) : State :=
  match s.fetchSequence with
  | .ok (.seq lits off mlen) => lz4Seq lits off mlen s
  | .ok (.last lits m) => lz4End lits m s
  | .reject r => rejected r s

/-- The loop of `lz4_decode` (R147), at most `fuel` iterations; it stops when the command has ended. -/
def runStream : Nat → State → State
  | 0, s => s
  | fuel + 1, s => if s.z.running then runStream fuel (sequenceStep s) else s

/-- The start of `lz4_decode` under the selected variant (R147, R148): `ip <- 0; op <- 0`. -/
def State.openStream (s : State) (v : Variant) : State :=
  { s with z := { s.z with running := true, sel := v, ip := 0, op := 0 } }

/-- `DECOMPRESS` up to the loop (R148), with the length check every command makes first (R172): an unknown
code is reported before the stream is looked at. -/
def decompressOpen (s : State) : State :=
  if s.lenInRange then
    match s.opVariant? with
    | none => (s.setProduced 0).raise .unsupportedCompressionType s.latch.variant.toNat
    | some v => s.openStream v
  else s.raise .lengthRange s.opLen

/-- `DECOMPRESS` (R148) as one transition from issue to completion (R58). Every iteration that does not
end the command advances `ip` (R147), so `LEN + 1` iterations are enough. -/
def decompressCommand (s : State) : State := runStream (s.opLen + 1) (decompressOpen s)

/-- The meaning of `LZ4.SEQ`. -/
def execLz4Seq (lits : List Byte) (off : BitVec 16) (mlen : Nat) (s : State) :
    Host.Outcome State Fault Refusal := .next (lz4Seq lits off mlen s)

/-- The meaning of `LZ4.END`. -/
def execLz4End (lits : List Byte) (m : BitVec 4) (s : State) : Host.Outcome State Fault Refusal :=
  .next (lz4End lits m s)

/-- The meaning of `DECOMPRESS`. -/
def execDecompress (s : State) : Host.Outcome State Fault Refusal := .next (decompressCommand s)

end Sys2Proof.Machine
end

