-- ==== Sys2Proof/Machine/Dispatch.lean ====
section
/-!
DEFINITION. Every instruction's meaning, one arm per constructor of Instr.
-/
namespace Sys2Proof.Machine

def exec (i : Instr) (s : State) : Host.Outcome State Fault Refusal :=
  match i with
  | .decrypt => Sys2Proof.Machine.execDecrypt s
  | .decompress => Sys2Proof.Machine.execDecompress s
  | .lz4Seq lits off mlen => Sys2Proof.Machine.execLz4Seq lits off mlen s
  | .lz4End lits m => Sys2Proof.Machine.execLz4End lits m s

end Sys2Proof.Machine
end

