-- ==== Sys2Proof/Machine/Step.lean ====
section
/-!
DEFINITION. One step of the block. It has no program counter (spec/10_state.md R23): what it runs is the command
in its latch, or, inside a DECOMPRESS whose sequences are taken one at a time, the sequence at `ip`
(R24, R58). Outside a command it takes no step (R13).
-/
namespace Sys2Proof.Machine

/-- A fetched instruction runs; a rejected encoding raises its error. -/
def stepDecoded (d : Decoded) (s : State) : Host.Outcome State Fault Refusal :=
  match d with
  | .ok i => exec i s
  | .reject r => .next (rejected r s)

/-- The sequence at `ip` (R145), as the decoder's answer. -/
def State.fetchInstr (s : State) : Decoded := decode s.z.sel (.stream s.streamRest)

/-- One step: nothing while no command is in progress (R13), the sequence at `ip` between two sequences of
a DECOMPRESS (R147), else the latched command with its checks (R172). -/
def step (s : State) : Host.Outcome State Fault Refusal :=
  if s.status = .busy then
    if s.z.running then stepDecoded s.fetchInstr s else stepDecoded s.fetchCommand s
  else .next s

/-- `s` with a table word stored where `step` takes its next instruction (notes/assumptions/5.md): a
32-bit word is issued as a command (R171); an 8-bit token and its zero operand bytes stand in IBUF at
`ip`, and the unit is inside a DECOMPRESS whose stream ends after them, under the variant whose stored
tokens are the table's words. -/
def State.withFetchWord (s : State) (nbits w : Nat) : State :=
  if nbits = 8 then
    let bytes := tableStream w
    let s1 := s.writeBytes .ibuf s.z.ip bytes
    let n := BitVec.ofNat 32 (s.z.ip + bytes.length)
    let s2 := { s1 with len := n }.issue 0x00000002#32
    { s2 with z := { s2.z with running := true, sel := stockVariant } }
  else s.issue (BitVec.ofNat 32 w)

end Sys2Proof.Machine
end

