-- ==== Sys2Proof/Machine/Flags.lean ====
section
/-!
DEFINITION. The status the host reads. The block has no condition codes, carry or overflow (spec/10_state.md
R25): the only status a command leaves is `STATUS.STATE`, `ERR.CODE`, `ERRINFO` and `PRODUCED`.
-/
namespace Sys2Proof.Machine

/-- The value of `STATUS.STATE` in bits 1:0 (R28). -/
def CmdState.code : CmdState → Nat
  | .idle => 0
  | .busy => 1
  | .done => 2
  | .error => 3

/-- The value of `ERR.CODE` in bits 7:0 (R190). -/
def ErrCode.code : ErrCode → Nat
  | .none => 0
  | .truncated => 1
  | .notRecognized => 2
  | .sizeMismatch => 3
  | .unsupportedCompressionType => 4
  | .badOffset => 5
  | .outputOverrun => 6
  | .illegalCommand => 7
  | .lengthRange => 8

/-- Register `STATUS`: `STATE` in bits 1:0, bits 31:2 read as 0 (R28). -/
def State.statusWord (s : State) : Word := BitVec.ofNat 32 s.status.code

/-- Register `ERR`: `CODE` in bits 7:0, bits 31:8 read as 0 (R29). -/
def State.errWord (s : State) : Word := BitVec.ofNat 32 s.err.code

end Sys2Proof.Machine
end

