-- ==== Sys2Proof/Machine/HostPort.lean ====
section
/-!
DEFINITION. The host's moves (spec/44_host_commands.md R171, R175 to R177; spec/20_memory.md R53): register reads
and writes by number (spec/10_state.md R26, R32), and the byte data port of IBUF and OBUF. Every host access
has the same rights (R180, R208).
-/
namespace Sys2Proof.Machine

/-- One move of the host. -/
inductive HostMove where
  | writeReg (n : Nat) (v : Word)
  | readReg (n : Nat)
  | writeIbuf (a : Nat) (v : Byte)
  | readIbuf (a : Nat)
  | readObuf (a : Nat)
deriving DecidableEq, Repr

/-- What a move answers the host. -/
inductive Answer where
  | nothing
  | word (v : Word)
  | byte (v : Byte)
deriving DecidableEq, Repr

/-- A host read of register `n` (R26, R176): `CMD` reads 0 (R27), numbers 8 and above read 0 (R32). It has
no side effect. -/
def State.readReg (s : State) (n : Nat) : Word :=
  match n with
  | 0 => 0
  | 1 => s.statusWord
  | 2 => s.errWord
  | 3 => s.errInfo
  | 4 => s.len
  | 5 => s.expected
  | 6 => s.variant
  | 7 => s.produced
  | _ => 0

/-- A host write of register `n` (R26): ignored while a command is in progress (R175), an issue for `CMD`
(R171), no effect on a read-only or a reserved number (R26, R32). -/
def State.writeReg (s : State) (n : Nat) (v : Word) : State :=
  if s.status = .busy then s
  else
    match n with
    | 0 => s.issue v
    | 4 => { s with len := v }
    | 5 => { s with expected := v }
    | 6 => { s with variant := v }
    | _ => s

/-- A host read of byte `a` of a buffer (R53): while a command is in progress an unspecified byte, a new
draw each time (U9). -/
def State.readPort (s : State) (sp : Space) (a : Nat) : State × Answer :=
  if s.status = .busy then ({ s with draws := s.draws + 1 }, .byte (Config.busyRead s.unit s.draws))
  else (s, .byte (s.readByte sp a))

/-- A host write of byte `a` of IBUF (R53): no effect while a command is in progress (R175). -/
def State.writePort (s : State) (a : Nat) (v : Byte) : State :=
  if s.status = .busy then s else s.writeByte .ibuf a v

/-- One move of the host: the state after it and the answer. An index outside the buffer is no address
(R50). The host cannot write OBUF and cannot reach SCRATCH (R53): there is no such move. -/
def hostMove (m : HostMove) (s : State) : Host.Outcome (State × Answer) Fault Refusal :=
  match m with
  | .writeReg n v => .next (s.writeReg n v, .nothing)
  | .readReg n => .next (s, .word (s.readReg n))
  | .writeIbuf a v => if s.inSpace .ibuf a then .next (s.writePort a v, .nothing) else .fault (.noSuchAddress .ibuf a)
  | .readIbuf a => if s.inSpace .ibuf a then .next (s.readPort .ibuf a) else .fault (.noSuchAddress .ibuf a)
  | .readObuf a => if s.inSpace .obuf a then .next (s.readPort .obuf a) else .fault (.noSuchAddress .obuf a)

end Sys2Proof.Machine
end

