-- ==== Sys2Proof/Machine/System.lean ====
section
/-!
DEFINITION. The unit together with what acts on it (spec/00_scope.md R13): host moves and resets between the steps
of the block, the host's program statements (spec/30_encoding.md R81, spec/44_host_commands.md R178), and
several units side by side (spec/60_exceptions.md R212).
-/
namespace Sys2Proof.Machine

/-- Everything that can happen to one unit. -/
inductive Event where
  /-- reset, in any state (R170, R220, R221) -/
  | reset
  /-- a move of the host -/
  | host (m : HostMove)
  /-- a step of the block -/
  | block
  /-- the block begins an issued DECOMPRESS without finishing it, so that its sequences are the steps that
  follow: how long a command stays BUSY is unspecified (R174, U12), and an order of events chooses it -/
  | beginDecompress
  /-- the platform puts another profile in place (R232) -/
  | setProfile (p : Profile)
deriving DecidableEq, Repr

/-- The begin of an issued DECOMPRESS as a transition of its own; nothing where no DECOMPRESS waits to
begin. -/
def beginDecompress (s : State) : State :=
  if s.status = .busy ∧ s.z.running = false ∧ s.fetchCommand = .ok .decompress then decompressOpen s else s

/-- One event. The profile is a constant of a command (R232): a change while one is in progress is not
offered (U10). -/
def sysStep (e : Event) (s : State) : Host.Outcome State Fault Refusal :=
  match e with
  | .reset => .next s.hostReset
  | .host m =>
    match hostMove m s with
    | .next (t, _) => .next t
    | .fault f => .fault f
    | .refused r => .refused r
  | .block => step s
  | .beginDecompress => .next (beginDecompress s)
  | .setProfile p =>
    if s.status = .busy then .refused .profileWhileBusy
    else if p.wf then .next { s with params := { s.params with profile := p } }
    else .refused .illegalProfile

/-- A run of events, stopping at the first fault or refusal. -/
def sysRun : List Event → State → Host.Outcome State Fault Refusal
  | [], s => .next s
  | e :: es, s =>
    match sysStep e s with
    | .next t => sysRun es t
    | .fault f => .fault f
    | .refused r => .refused r

/-! ### Waiting for a command -/

/-- The block's steps until `STATE != BUSY`, at most `fuel` of them (R178). -/
def waitDone : Nat → State → Host.Outcome State Fault Refusal
  | 0, s => .next s
  | fuel + 1, s =>
    if s.status = .busy then
      match step s with
      | .next t => waitDone fuel t
      | .fault f => .fault f
      | .refused r => .refused r
    else .next s

/-- The host writes `w` to `CMD` and waits (R81, R178). -/
def runCommand (w : Word) (s : State) : Host.Outcome State Fault Refusal :=
  waitDone (s.len.toNat + 2) (s.writeReg 0 w)

/-! ### The host's statements -/

/-- The statements of a host program (R81). -/
inductive Statement where
  | write (reg : Nat) (v : Word)
  | load (bytes : List Byte)
  | decrypt
  | decompress
  | read (reg : Nat)
  | dumpIbuf (a n : Nat)
  | dumpObuf (a n : Nat)
deriving DecidableEq, Repr

/-- The moves of a statement that issues no command: `LOAD` writes `IBUF[0..n)`, `DUMP` reads `n` bytes
from index `a`. -/
def Statement.moves : Statement → List HostMove
  | .write reg v => [.writeReg reg v]
  | .load bytes => bytes.zipIdx.map fun p => .writeIbuf p.2 p.1
  | .decrypt => []
  | .decompress => []
  | .read reg => [.readReg reg]
  | .dumpIbuf a n => (List.range n).map fun k => .readIbuf (a + k)
  | .dumpObuf a n => (List.range n).map fun k => .readObuf (a + k)

/-- Host moves one after another, with their answers in order. -/
def runMoves : List HostMove → State → Host.Outcome (State × List Answer) Fault Refusal
  | [], s => .next (s, [])
  | m :: ms, s =>
    match hostMove m s with
    | .next (t, a) =>
      match runMoves ms t with
      | .next (u, as) => .next (u, a :: as)
      | .fault f => .fault f
      | .refused r => .refused r
    | .fault f => .fault f
    | .refused r => .refused r

/-- One statement: `DECRYPT` and `DECOMPRESS` write the command word and wait (R81), the others are host
moves. -/
def runStatement (st : Statement) (s : State) : Host.Outcome (State × List Answer) Fault Refusal :=
  match st with
  | .decrypt =>
    match runCommand 0x00000001#32 s with
    | .next t => .next (t, [])
    | .fault f => .fault f
    | .refused r => .refused r
  | .decompress =>
    match runCommand 0x00000002#32 s with
    | .next t => .next (t, [])
    | .fault f => .fault f
    | .refused r => .refused r
  | st => runMoves st.moves s

/-- A host program: its statements in order, with the answers of its reads. -/
def runProgram : List Statement → State → Host.Outcome (State × List Answer) Fault Refusal
  | [], s => .next (s, [])
  | st :: sts, s =>
    match runStatement st s with
    | .next (t, as) =>
      match runProgram sts t with
      | .next (u, bs) => .next (u, as ++ bs)
      | .fault f => .fault f
      | .refused r => .refused r
    | .fault f => .fault f
    | .refused r => .refused r

/-! ### Several units -/

/-- An event at unit `k` of several (R14, R212): units share no state, so the others stay as they are;
`none` if there is no such unit or the event is not offered. -/
def unitsStep (k : Nat) (e : Event) (us : List State) : Option (List State) :=
  match us[k]? with
  | none => none
  | some s =>
    match sysStep e s with
    | .next t => some (us.set k t)
    | .fault _ => none
    | .refused _ => none

end Sys2Proof.Machine
end

