-- ==== Sys2Proof/Safety.lean ====
section
/-!
DEFINITION. The terms claims use: the keystream and the touched bytes of DECRYPT, the output a compressed stream
stands for, the conditions of a command, and the invariant of the machine.
-/
namespace Sys2Proof.Machine

/-! ### Unit C -/

/-- `KS_b`: `KS_0 = encrypt_block(IV)`, `KS_(b+1) = encrypt_block(nlfb(KS_b))` (R121): a function of the
profile alone. -/
def keystreamBlock (p : Profile) : Nat → Block
  | 0 => encryptBlock p p.iv
  | b + 1 => encryptBlock p (nlfb p (keystreamBlock p b))

/-- Byte `k` of the keystream string `KS_0 ++ KS_1 ++ ...` (R121). -/
def keystreamByte (p : Profile) (k : Nat) : Byte := blockByte (keystreamBlock p (k / 16)) (k % 16)

/-- Whether a DECRYPT of `n` bytes touches byte `a` of IBUF (R121, R123): every byte below `n` in
small-buffer mode; in large-buffer mode the indices `16*j + k` with `j < count` and `k < step`. -/
def touches (n a : Nat) : Bool :=
  if n ≤ 256 then decide (a < n) else decide (a / 16 < strideCount n) && decide (a % 16 < strideStep n)

/-- The keystream byte a touched byte `a` is XORed with (R121, R123): its own index in small-buffer mode,
`j*step + k` for `a = 16*j + k` in large-buffer mode. -/
def keystreamIndex (n a : Nat) : Nat := if n ≤ 256 then a else a / 16 * strideStep n + a % 16

/-! ### Unit Z -/

/-- The bytes of a match (R144): byte `k` is byte `(k mod off) - off` from the end of the output as it stood
before the copy. -/
def matchBytes (out : List Byte) (off mlen : Nat) : List Byte :=
  (List.range mlen).map fun k => out.getD (out.length - off + k % off) 0#8

/-- The output a complete stream stands for, after the output `out`: sequences with a match and then a last
one (R73), every offset between 1 and the number of bytes before the match (R77); `none` for any other
list. -/
def expand : List Byte → List Sequence → Option (List Byte)
  | out, [.last lits _] => some (out ++ lits)
  | out, .seq lits off mlen :: rest =>
    if 1 ≤ off.toNat ∧ off.toNat ≤ (out ++ lits).length then
      expand (out ++ lits ++ matchBytes (out ++ lits) off.toNat mlen) rest
    else none
  | _, _ => none

/-- Whether every byte of `IBUF[0..n)` has been written since reset (R225, condition 2). -/
def State.written (s : State) (n : Nat) : Prop := ∀ a < n, (s.ibuf.get? a).isSome = true

/-- The conditions under which a command's rules hold (R225), as far as they concern the unit: a legal
profile in place, the bytes `IBUF[0..LEN)` written, and no command in progress. -/
structure State.Ready (s : State) : Prop where
  profile : s.params.wf = true
  bytes : s.written s.len.toNat
  idle : s.status ≠ .busy

/-- A command is issued and the unit it was issued on met R225's conditions: the premise of a claim about what a
command makes of the bytes of IBUF. -/
def State.IssuedReady (s : State) : Prop := ∃ r : State, r.Ready ∧ s = r.issue s.latch.cmd

/-- R225's conditions as they stand at any point of a command, also between the sequences of a DECOMPRESS: a legal
profile, the bytes `IBUF[0..LEN)` of the latched `LEN` written, and the command in progress, which was issued on a unit
that was not BUSY, because a write of `CMD` while BUSY issues nothing (R175). -/
structure State.BusyReady (s : State) : Prop where
  profile : s.params.wf = true
  bytes : s.written s.latch.len.toNat
  busy : s.status = .busy

/-- The errors whose data result on the original is unknown (R194): a claim about data holds only of a
command that did not end in one of them. -/
def ErrCode.unknownData : ErrCode → Bool
  | .badOffset => true
  | .outputOverrun => true
  | .illegalCommand => true
  | .lengthRange => true
  | _ => false

/-! ### The machine -/

/-- The invariant of the machine: what the spec promises of every state a run reaches. -/
structure State.Inv (s : State) : Prop where
  /-- the parameters are legal (R8) -/
  params : s.params.wf = true
  /-- the memories keep their canonical form and hold only addresses that exist (R50) -/
  ibufWf : Memory.wf s.ibuf
  obufWf : Memory.wf s.obuf
  scratchWf : Memory.wf s.c.scratch
  ibufIn : ∀ x ∈ s.ibuf, s.inSpace .ibuf x.1 = true
  obufIn : ∀ x ∈ s.obuf, s.inSpace .obuf x.1 = true
  scratchIn : ∀ x ∈ s.c.scratch, s.inSpace .scratch x.1 = true
  /-- `CODE = 0` if and only if `STATE != ERROR` (R29) -/
  errIff : s.err = .none ↔ s.status ≠ .error
  /-- `NotRecognized` is never raised by this block (R190) -/
  errRaised : s.err ≠ .notRecognized
  /-- `ERRINFO` is 0 unless the last command ended in an error (R30, R190) -/
  infoZero : s.status ≠ .error → s.errInfo = 0
  /-- during a command the operand registers equal the latch (R38) -/
  latched : s.status = .busy →
    s.latch.len = s.len ∧ s.latch.expected = s.expected ∧ s.latch.variant = s.variant
  /-- the stream loop runs only inside a DECOMPRESS whose checks have passed, under the variant of its
  code, with `ip` in the stream and `op` in OBUF (R24, R148, R172) -/
  running : s.z.running = true →
    s.status = .busy ∧ s.latch.cmd = 0x00000002#32 ∧ s.opLen ≤ s.params.ibufCap ∧
      s.opVariant? = some s.z.sel ∧ s.z.ip ≤ s.opLen ∧ s.params.obufHolds s.z.op = true

/-- What the host can see of a unit outside a command is alike (R20): every register and every byte of the two
buffers. -/
def SameVisible (s t : State) : Prop :=
  (∀ n, s.readReg n = t.readReg n) ∧ (∀ a, s.readByte .ibuf a = t.readByte .ibuf a) ∧
    ∀ a, s.readByte .obuf a = t.readByte .obuf a

/-- The states a run of events reaches from the first reset. -/
def Reachable (s : State) : Prop := ∃ es : List Event, sysRun es State.reset = .next s

end Sys2Proof.Machine
end

