-- ==== Sys2Proof/Certificates/Slice0/Obligations.lean ====
section
/-!
DEFINITION. The statements for the provers. Each formalises rules of spec/ (OBLIGATIONS.json says which).
-/

open Sys2Proof Sys2Proof.Machine

/-! ### Reset, registers and host moves -/

/-- R220, R221, R222: after a reset, in whatever state it comes, `STATE` is IDLE, no command is in progress, every
register reads 0, and every byte of every memory and of `FEEDBACK` and `KS` is unspecified; the first reset is such a
state, and a reset leaves the parameters as they were (R222). That the unspecified values are the free values
`Config.unwritten`, `Config.resetFeedback` and `Config.resetKs` of the unit and the reset is the model's choice
(DESIGN CHOICE, notes/assumptions/2.md, 3.md and 22.md). -/
def Obligations.ResetClearsRegisters : Prop :=
  (∀ s : State, ∃ t, sysStep .reset s = .next t ∧ t.status = .idle ∧ t.z.running = false ∧
    (∀ n, t.readReg n = 0) ∧ t.params = s.params ∧ t.unit = s.unit ∧
    (∀ sp a, t.readByte sp a = Config.unwritten s.unit (s.epoch + 1) sp a) ∧
    t.c.feedback = Config.resetFeedback s.unit (s.epoch + 1) ∧ t.c.ks = Config.resetKs s.unit (s.epoch + 1)) ∧
  State.reset.status = .idle ∧ State.reset.z.running = false ∧ (∀ n, State.reset.readReg n = 0) ∧
    (∀ sp a, State.reset.readByte sp a = Config.unwritten 0 0 sp a) ∧
    State.reset.c.feedback = Config.resetFeedback 0 0 ∧ State.reset.c.ks = Config.resetKs 0 0

/-- R32: register numbers 8 and above read 0 and ignore writes. -/
def Obligations.ReservedRegistersReadZero : Prop :=
  ∀ (s : State) (n : Nat) (v : Word), 8 ≤ n →
    hostMove (.readReg n) s = .next (s, .word 0) ∧ hostMove (.writeReg n v) s = .next (s, .nothing)

/-- R26, R27: `CMD` reads 0; a write to a read-only register has no effect; `LEN`, `EXPECTED` and `VARIANT` hold
what was written while no command is in progress, and such a write changes no other register and no byte. -/
def Obligations.OperandRegistersHoldWrites : Prop :=
  ∀ (s : State) (v : Word), s.readReg 0 = 0 ∧
    (∀ n, n = 1 ∨ n = 2 ∨ n = 3 ∨ n = 7 → s.writeReg n v = s) ∧
    (s.status ≠ .busy → ∀ n, n = 4 ∨ n = 5 ∨ n = 6 →
      (s.writeReg n v).readReg n = v ∧ (∀ k, k ≠ n → (s.writeReg n v).readReg k = s.readReg k) ∧
      ∀ sp a, (s.writeReg n v).readByte sp a = s.readByte sp a)

/-- R28, R29, R190: the values of `STATUS` and `ERR`. -/
def Obligations.StatusAndErrorCodes : Prop :=
  ∀ s : State,
    (s.readReg 1).toNat = (match s.status with | .idle => 0 | .busy => 1 | .done => 2 | .error => 3) ∧
    (s.readReg 2).toNat = (match s.err with
      | .none => 0 | .truncated => 1 | .notRecognized => 2 | .sizeMismatch => 3
      | .unsupportedCompressionType => 4 | .badOffset => 5 | .outputOverrun => 6 | .illegalCommand => 7
      | .lengthRange => 8)

/-- R171: a write to `CMD` while no command is in progress clears `ERR` and `ERRINFO`, makes `STATE` BUSY and
latches the word and the operand registers; nothing else changes, `PRODUCED` and the buffers among it. It is
so from ERROR as from IDLE and DONE. -/
def Obligations.IssueLatchesOperands : Prop :=
  ∀ (s : State) (w : Word), s.status ≠ .busy →
    ∃ t, hostMove (.writeReg 0 w) s = .next (t, .nothing) ∧
      t.status = .busy ∧ t.readReg 2 = 0 ∧ t.readReg 3 = 0 ∧
      t.latch = { cmd := w, len := s.readReg 4, expected := s.readReg 5, variant := s.readReg 6 } ∧
      t = { s with status := .busy, err := .none, errInfo := 0, latch := t.latch,
                   z := { s.z with running := false } }

/-- R175: a host write while a command is in progress has no effect at all. -/
def Obligations.BusyWritesIgnored : Prop :=
  ∀ s : State, s.status = .busy →
    (∀ n v, hostMove (.writeReg n v) s = .next (s, .nothing)) ∧
    ∀ a v, s.inSpace .ibuf a = true → hostMove (.writeIbuf a v) s = .next (s, .nothing)

/-- R176: register reads are allowed in every state and have no side effects; while a command is in progress
`STATUS` reads 1, `ERR` and `ERRINFO` 0, the operand registers their latched values, and `PRODUCED` what it held
at issue: neither the issue nor a step of the block that leaves the command in progress changes it. -/
def Obligations.RegisterReadsWhileBusy : Prop :=
  ∀ s : State,
    (∀ n, hostMove (.readReg n) s = .next (s, .word (s.readReg n))) ∧
    (s.Inv → s.status = .busy →
      s.readReg 1 = 1 ∧ s.readReg 2 = 0 ∧ s.readReg 3 = 0 ∧ s.readReg 4 = s.latch.len ∧
      s.readReg 5 = s.latch.expected ∧ s.readReg 6 = s.latch.variant) ∧
    (∀ w, s.status ≠ .busy → (s.writeReg 0 w).readReg 7 = s.readReg 7) ∧
    ∀ e t, e = .block ∨ e = .beginDecompress → s.status = .busy → sysStep e s = .next t →
      t.status = .busy → t.readReg 7 = s.readReg 7

/-- R53: while no command is in progress the host reads any byte of IBUF and OBUF and writes any byte of IBUF, one
at a time; it can write no byte of OBUF and of SCRATCH by any move; while one is in progress a write has no effect
and a read returns an unspecified byte. That this byte is the free value `Config.busyRead` at the unit's counter
`draws`, which the read advances, is the model's choice (DESIGN CHOICE, notes/assumptions/4.md and 22.md). -/
def Obligations.DataPortMoves : Prop :=
  ∀ s : State,
    (s.status ≠ .busy →
      (∀ a, s.inSpace .ibuf a = true → hostMove (.readIbuf a) s = .next (s, .byte (s.readByte .ibuf a))) ∧
      (∀ a, s.inSpace .obuf a = true → hostMove (.readObuf a) s = .next (s, .byte (s.readByte .obuf a))) ∧
      ∀ a v, s.inSpace .ibuf a = true → ∃ t, hostMove (.writeIbuf a v) s = .next (t, .nothing) ∧
        t.readByte .ibuf a = v ∧ (∀ x, x ≠ a → t.readByte .ibuf x = s.readByte .ibuf x) ∧
        t = { s with ibuf := t.ibuf }) ∧
    (s.status = .busy →
      (∀ a, s.inSpace .ibuf a = true →
        hostMove (.readIbuf a) s = .next ({ s with draws := s.draws + 1 }, .byte (Config.busyRead s.unit s.draws))) ∧
      (∀ a, s.inSpace .obuf a = true →
        hostMove (.readObuf a) s = .next ({ s with draws := s.draws + 1 }, .byte (Config.busyRead s.unit s.draws))) ∧
      ∀ a v, s.inSpace .ibuf a = true → hostMove (.writeIbuf a v) s = .next (s, .nothing)) ∧
    ∀ m t ans, hostMove m s = .next (t, ans) →
      ∀ a, t.readByte .obuf a = s.readByte .obuf a ∧ t.readByte .scratch a = s.readByte .scratch a

/-- R50, R51: a read returns the last value written; a write reaches no other byte of its space and no byte of
another space. -/
def Obligations.WrittenBytesReadBack : Prop :=
  ∀ (s : State) (sp : Space) (a : Nat) (vs : List Byte),
    (s.writeBytes sp a vs).readBytes sp a vs.length = vs ∧
    (∀ x, x < a ∨ a + vs.length ≤ x → (s.writeBytes sp a vs).readByte sp x = s.readByte sp x) ∧
    ∀ sp' x, sp' ≠ sp → (s.writeBytes sp a vs).readByte sp' x = s.readByte sp' x

/-! ### Primitives -/

/-- R90: `rol8` moves bit `k` to bit `(k + n) mod 8`; its corner cases and examples. -/
def Obligations.Rol8RotatesBits : Prop :=
  (∀ (x : Byte) (n k : Nat), n ≤ 7 → k < 8 → (rol8 x n).getLsbD ((k + n) % 8) = x.getLsbD k) ∧
  (∀ n, n ≤ 7 → rol8 0x00#8 n = 0x00#8 ∧ rol8 0xFF#8 n = 0xFF#8) ∧
  rol8 0x01#8 5 = 0x20#8 ∧ rol8 0x81#8 5 = 0x30#8 ∧ rol8 0xB4#8 5 = 0x96#8

/-- R91: `xtime` and `gmul3`, with their examples. -/
def Obligations.XtimeDoublesInField : Prop :=
  (∀ x : Byte,
    (x.toNat < 128 → (xtime x).toNat = 2 * x.toNat) ∧
    (128 ≤ x.toNat → (xtime x).toNat = (2 * x.toNat % 256) ^^^ 0x1B) ∧ gmul3 x = xtime x ^^^ x) ∧
  xtime 0x57#8 = 0xAE#8 ∧ xtime 0xAE#8 = 0x47#8 ∧ gmul3 0x57#8 = 0xF9#8 ∧ xtime 0x80#8 = 0x1B#8 ∧
  xtime 0x00#8 = 0x00#8

/-- R92: exclusive or is bytewise, and twice with the same sequence is the identity: of the 16-byte blocks of the
rounds, where it is the key addition, of the 4-byte words of the key schedule, and of any two byte sequences of one
length. -/
def Obligations.XorTwiceIsIdentity : Prop :=
  (∀ a k : Block,
    (∀ i : Fin 16, (xorBlock a k)[i] = a[i] ^^^ k[i]) ∧ xorBlock (xorBlock a k) k = a ∧
    (∀ i : Fin 16, (addRoundKey a k)[i] = a[i] ^^^ k[i]) ∧ addRoundKey (addRoundKey a k) k = a) ∧
  (∀ a k : Quad, (∀ i : Fin 4, (xorQuad a k)[i] = a[i] ^^^ k[i]) ∧ xorQuad (xorQuad a k) k = a) ∧
  ∀ a k : List Byte, a.length = k.length →
    (xorBytes a k).length = a.length ∧
    (∀ i, i < a.length → (xorBytes a k).getD i 0 = a.getD i 0 ^^^ k.getD i 0) ∧
    xorBytes (xorBytes a k) k = a

/-- R93: `permute_bits` puts bit `PERM[j]` at bit `j`; it is a bijection whose inverse is
`permute_bits` of the inverse permutation (and the encoder's rewiring, R82);
0x00 and 0xFF are fixed; the rule's examples. -/
def Obligations.PermuteBitsIsBijection : Prop :=
  (∀ v : Variant, v.wf = true →
    (∀ (t : Byte) (j : Fin 8), (permuteBits v.perm t).getLsbD j = t.getLsbD v.perm[j]) ∧
    Function.Bijective (permuteBits v.perm) ∧
    (∀ t, unpermuteBits v.perm (permuteBits v.perm t) = t ∧ permuteBits v.perm (unpermuteBits v.perm t) = t) ∧
    (∀ q : Perm, (∀ j : Fin 8, q[v.perm[j]] = j) →
      ∀ t, permuteBits q (permuteBits v.perm t) = t ∧ permuteBits v.perm (permuteBits q t) = t) ∧
    permuteBits v.perm 0x00#8 = 0x00#8 ∧ permuteBits v.perm 0xFF#8 = 0xFF#8) ∧
  permuteBits #v[0, 1, 2, 3, 4, 5, 6, 7] 0xF3#8 = 0xF3#8 ∧ permuteBits #v[4, 5, 6, 7, 0, 1, 2, 3] 0x3F#8 = 0xF3#8 ∧
  permuteBits #v[5, 0, 7, 2, 4, 1, 6, 3] 0xB5#8 = 0x1F#8 ∧ permuteBits #v[5, 0, 7, 2, 4, 1, 6, 3] 0x7B#8 = 0xF3#8

/-! ### The block primitive -/

/-- R101: the key schedule: its 44 words, the recurrence with the profile's S-box and `RCON`, and the round keys;
`RK[0] = KEY`, and `RCON[k]` is `xtime` applied `k` times to 1. -/
def Obligations.KeyScheduleRecurrence : Prop :=
  ∀ (key : Block) (t : Table),
    (keyWords key t).length = 44 ∧
    (∀ i : Fin 16, (quadAt (keyWords key t) (i.val / 4))[i.val % 4] = key[i]) ∧
    (∀ i, 4 ≤ i → i < 44 →
      quadAt (keyWords key t) i = xorQuad (quadAt (keyWords key t) (i - 4))
        (if i % 4 = 0 then
          #v[tableAt t (quadAt (keyWords key t) (i - 1))[1] ^^^ rcon (i / 4 - 1),
             tableAt t (quadAt (keyWords key t) (i - 1))[2], tableAt t (quadAt (keyWords key t) (i - 1))[3],
             tableAt t (quadAt (keyWords key t) (i - 1))[0]]
         else quadAt (keyWords key t) (i - 1))) ∧
    (∀ r, r ≤ 10 → ∀ i : Fin 16, (roundKey key t r)[i] = (quadAt (keyWords key t) (4 * r + i.val / 4))[i.val % 4]) ∧
    roundKey key t 0 = key ∧
    ∀ k, k < 10 → rcon k = xtime^[k] 0x01#8

/-- R102 to R105: the four steps of a round, byte by byte; the shift step written out. -/
def Obligations.RoundStepsBytewise : Prop :=
  ∀ (t : Table) (s rk : Block),
    (∀ i : Fin 16, (subBytes t s)[i] = tableAt t s[i]) ∧
    (∀ r c : Fin 4, (shiftRows s)[r.val + 4 * c.val] = s[r.val + 4 * ((c.val + r.val) % 4)]) ∧
    (shiftRows s).toList = [s[0], s[5], s[10], s[15], s[4], s[9], s[14], s[3], s[8], s[13], s[2], s[7], s[12], s[1],
      s[6], s[11]] ∧
    (∀ c : Fin 4,
      (mixColumns s)[4 * c.val] = xtime s[4 * c.val] ^^^ gmul3 s[4 * c.val + 1] ^^^ s[4 * c.val + 2] ^^^ s[4 * c.val + 3] ∧
      (mixColumns s)[4 * c.val + 1] = s[4 * c.val] ^^^ xtime s[4 * c.val + 1] ^^^ gmul3 s[4 * c.val + 2] ^^^ s[4 * c.val + 3] ∧
      (mixColumns s)[4 * c.val + 2] = s[4 * c.val] ^^^ s[4 * c.val + 1] ^^^ xtime s[4 * c.val + 2] ^^^ gmul3 s[4 * c.val + 3] ∧
      (mixColumns s)[4 * c.val + 3] = gmul3 s[4 * c.val] ^^^ s[4 * c.val + 1] ^^^ s[4 * c.val + 2] ^^^ xtime s[4 * c.val + 3]) ∧
    ∀ i : Fin 16, (addRoundKey s rk)[i] = s[i] ^^^ rk[i]

/-- R106: `encrypt_block` is an initial key addition, nine full rounds and a tenth without the mix step: for every
sequence of block states that starts so and makes the nine rounds, the result is the tenth round of its last
state. -/
def Obligations.EncryptBlockTenRounds : Prop :=
  ∀ (p : Profile) (x : Block) (st : Nat → Block),
    st 0 = addRoundKey x (roundKey p.key p.sbox 0) →
    (∀ r, 1 ≤ r → r ≤ 9 →
      st r = addRoundKey (mixColumns (shiftRows (subBytes p.sbox (st (r - 1))))) (roundKey p.key p.sbox r)) →
    encryptBlock p x = addRoundKey (shiftRows (subBytes p.sbox (st 9))) (roundKey p.key p.sbox 10)

/-- R106 (corner case): with an S-box that is constant 0 the result is `RK[10]` whatever the input. -/
def Obligations.ZeroSboxGivesLastRoundKey : Prop :=
  ∀ (p : Profile) (x : Block), (∀ b, tableAt p.sbox b = 0#8) → encryptBlock p x = roundKey p.key p.sbox 10

/-- R107: `encrypt_block` is a permutation of the blocks if and only if the S-box is a permutation of the bytes. -/
def Obligations.EncryptBlockPermutationIff : Prop :=
  ∀ p : Profile, Function.Bijective (encryptBlock p) ↔ Function.Bijective (tableAt p.sbox)

/-- R120: the feedback function, byte by byte, with its constants `(31*i) mod 256` written out. -/
def Obligations.FeedbackBytewise : Prop :=
  (∀ (p : Profile) (ks : Block) (i : Fin 16),
    (nlfb p ks)[i] = tableAt p.sbox (rol8 (ks[i] ^^^ BitVec.ofNat 8 (31 * i.val % 256) ^^^ p.fbmask[i]) 5)) ∧
  ((List.range 16).map fun i => 31 * i % 256) =
    [0x00, 0x1f, 0x3e, 0x5d, 0x7c, 0x9b, 0xba, 0xd9, 0xf8, 0x17, 0x36, 0x55, 0x74, 0x93, 0xb2, 0xd1]

/-! ### DECRYPT -/

/-- R121: `decrypt_small` XORs the keystream string onto the first `n` bytes of its space, for every `n`, and
changes no other byte of any space and no register. -/
def Obligations.SmallModeXorsKeystream : Prop :=
  ∀ (s : State) (sp : Space) (n : Nat),
    (∀ a, a < n → (decryptSmall sp n s).readByte sp a = s.readByte sp a ^^^ keystreamByte s.params.profile a) ∧
    (∀ a, n ≤ a → (decryptSmall sp n s).readByte sp a = s.readByte sp a) ∧
    (∀ sp' a, sp' ≠ sp → (decryptSmall sp n s).readByte sp' a = s.readByte sp' a) ∧
    ∀ r, (decryptSmall sp n s).readReg r = s.readReg r

/-- R122: the stride parameters for `n > 256`: their formulas, their bounds, and the whole table. -/
def Obligations.StrideTable : Prop :=
  ∀ n : Nat, 256 < n →
    numBlocks n = n / 16 ∧ strideStep n = max 1 (256 / numBlocks n) ∧ strideCount n = min (numBlocks n) 256 ∧
    16 ≤ numBlocks n ∧ 1 ≤ strideStep n ∧ strideStep n ≤ 16 ∧ strideStep n * strideCount n ≤ 256 ∧
    (numBlocks n = 16 → strideStep n = 16) ∧ (numBlocks n = 17 → strideStep n = 15) ∧
    (numBlocks n = 18 → strideStep n = 14) ∧ (numBlocks n = 19 → strideStep n = 13) ∧
    (20 ≤ numBlocks n ∧ numBlocks n ≤ 21 → strideStep n = 12) ∧
    (22 ≤ numBlocks n ∧ numBlocks n ≤ 23 → strideStep n = 11) ∧
    (24 ≤ numBlocks n ∧ numBlocks n ≤ 25 → strideStep n = 10) ∧
    (26 ≤ numBlocks n ∧ numBlocks n ≤ 28 → strideStep n = 9) ∧
    (29 ≤ numBlocks n ∧ numBlocks n ≤ 32 → strideStep n = 8) ∧
    (33 ≤ numBlocks n ∧ numBlocks n ≤ 36 → strideStep n = 7) ∧
    (37 ≤ numBlocks n ∧ numBlocks n ≤ 42 → strideStep n = 6) ∧
    (43 ≤ numBlocks n ∧ numBlocks n ≤ 51 → strideStep n = 5) ∧
    (52 ≤ numBlocks n ∧ numBlocks n ≤ 64 → strideStep n = 4) ∧
    (65 ≤ numBlocks n ∧ numBlocks n ≤ 85 → strideStep n = 3) ∧
    (86 ≤ numBlocks n ∧ numBlocks n ≤ 128 → strideStep n = 2) ∧
    (129 ≤ numBlocks n → strideStep n = 1) ∧
    (numBlocks n ≤ 256 → strideCount n = numBlocks n) ∧ (257 ≤ numBlocks n → strideCount n = 256)

/-- R123: `decrypt_large` XORs sample byte `16*j + k` with keystream byte `j*step + k`, and leaves every other byte
of IBUF, every byte of OBUF and every register as it was; the sampled bytes lie below `n`. -/
def Obligations.LargeModeTouchesSamples : Prop :=
  ∀ (s : State) (n : Nat), 256 < n →
    (∀ j k, j < strideCount n → k < strideStep n →
      16 * j + k < n ∧
      (decryptLarge n s).readByte .ibuf (16 * j + k) =
        s.readByte .ibuf (16 * j + k) ^^^ keystreamByte s.params.profile (j * strideStep n + k)) ∧
    (∀ a, (∀ j k, j < strideCount n → k < strideStep n → a ≠ 16 * j + k) →
      (decryptLarge n s).readByte .ibuf a = s.readByte .ibuf a) ∧
    (∀ a, (decryptLarge n s).readByte .obuf a = s.readByte .obuf a) ∧
    ∀ r, (decryptLarge n s).readReg r = s.readReg r

/-- R31, R123, R124 (the document's property S2): a DECRYPT with `LEN <= IBUF_CAP` completes DONE whatever stands in
IBUF. It leaves in `PRODUCED` the number of bytes of `IBUF[0..LEN)` it touches, which is `LEN` in small-buffer mode
and `step * count`, at most 256, in large-buffer mode; every byte of IBUF it does not touch keeps its value, and
nothing else changes but `ERR`, `ERRINFO` and unit C's working storage. What the touched bytes become is said by
`Obligations.DecryptCompletes`, under R225's conditions. -/
def Obligations.ProducedCountsTouchedBytes : Prop :=
  (∀ n : Nat, ((List.range n).filter (touches n)).length = touchedCount n ∧ touchedCount n ≤ 256) ∧
  ∀ s : State, s.latch.len.toNat ≤ s.params.ibufCap →
    ∃ t, exec .decrypt s = .next t ∧
      t.produced.toNat = ((List.range s.latch.len.toNat).filter (touches s.latch.len.toNat)).length ∧
      (s.latch.len.toNat ≤ 256 → t.produced.toNat = s.latch.len.toNat) ∧
      (256 < s.latch.len.toNat →
        t.produced.toNat = strideStep s.latch.len.toNat * strideCount s.latch.len.toNat ∧ t.produced.toNat ≤ 256) ∧
      (∀ a, touches s.latch.len.toNat a = false → t.readByte .ibuf a = s.readByte .ibuf a) ∧
      t = { s with
        status := .done, err := .none, errInfo := 0, produced := t.produced, ibuf := t.ibuf, c := t.c
        z := { s.z with running := false } }

/-- R124, R225: DECRYPT with `LEN <= IBUF_CAP`, issued under R225's conditions, completes DONE: the touched bytes of
IBUF are XORed with their keystream bytes and every other byte keeps its value, `PRODUCED` is the number of bytes
touched, `ERR` and `ERRINFO` are 0, and nothing else changes but unit C's working storage: not OBUF, not `LEN`,
`EXPECTED`, `VARIANT`. -/
def Obligations.DecryptCompletes : Prop :=
  ∀ s : State, s.IssuedReady → s.latch.len.toNat ≤ s.params.ibufCap →
    ∃ t, exec .decrypt s = .next t ∧
      (∀ a, t.readByte .ibuf a =
        if touches s.latch.len.toNat a then
          s.readByte .ibuf a ^^^ keystreamByte s.params.profile (keystreamIndex s.latch.len.toNat a)
        else s.readByte .ibuf a) ∧
      t = { s with
        status := .done, err := .none, errInfo := 0
        produced := BitVec.ofNat 32 (touchedCount s.latch.len.toNat)
        ibuf := t.ibuf, c := t.c, z := { s.z with running := false } }

/-- R124, R148, R225: the two commands as a host issues them, with R225's conditions as premise: a legal profile in
place, `IBUF[0..LEN)` written since reset, no command in progress. DECRYPT decrypts register `LEN` bytes; DECOMPRESS
of an assembled stream gives its output, DONE or `SizeMismatch`; and no unspecified byte reaches a result: on two
units, or on one at two times, with equal parameters and operand registers and equal written bytes `IBUF[0..LEN)`,
either command leaves equal registers, equal `IBUF[0..LEN)` and, for DECOMPRESS, equal `OBUF[0..PRODUCED)`, whatever
the two hold elsewhere. -/
def Obligations.CommandStatementsFromReady : Prop :=
  (∀ s : State, s.Ready → s.len.toNat ≤ s.params.ibufCap →
      ∃ t, runStatement .decrypt s = .next (t, []) ∧ t.readReg 1 = 2 ∧ t.readReg 2 = 0 ∧ t.readReg 3 = 0 ∧
        t.readReg 7 = BitVec.ofNat 32 (touchedCount s.len.toNat) ∧
        (∀ a, t.readByte .ibuf a =
          if touches s.len.toNat a then
            s.readByte .ibuf a ^^^ keystreamByte s.params.profile (keystreamIndex s.len.toNat a)
          else s.readByte .ibuf a) ∧
        (∀ a, t.readByte .obuf a = s.readByte .obuf a) ∧ ∀ n, n = 4 ∨ n = 5 ∨ n = 6 → t.readReg n = s.readReg n) ∧
  (∀ (s : State) (v : Variant) (seqs : List Sequence) (out : List Byte), s.Ready → s.len.toNat ≤ s.params.ibufCap →
    s.params.profile.variants.lookup s.variant = some v → s.readBytes .ibuf 0 s.len.toNat = encodeStream v seqs →
    (∀ q ∈ seqs, q.wellFormed = true) → expand [] seqs = some out → s.params.obufHolds out.length = true →
    ∃ t, runStatement .decompress s = .next (t, []) ∧
      t.readReg 1 = (if out.length = s.expected.toNat then 2 else 3) ∧
      t.readReg 2 = (if out.length = s.expected.toNat then 0 else 3) ∧
      t.readReg 3 = (if out.length = s.expected.toNat then 0 else BitVec.ofNat 32 out.length) ∧
      t.readReg 7 = BitVec.ofNat 32 out.length ∧
      (∀ i, i < out.length → t.readByte .obuf i = out.getD i 0) ∧
      (∀ a, out.length ≤ a → t.readByte .obuf a = s.readByte .obuf a) ∧
      (∀ a, t.readByte .ibuf a = s.readByte .ibuf a) ∧ ∀ n, n = 4 ∨ n = 5 ∨ n = 6 → t.readReg n = s.readReg n) ∧
  ∀ s s' : State, s.Ready → s'.Ready → s.params = s'.params → s.len = s'.len → s.expected = s'.expected →
    s.variant = s'.variant → s.len.toNat ≤ s.params.ibufCap →
    (∀ a, a < s.len.toNat → s.ibuf.get? a = s'.ibuf.get? a) →
    ∀ c, c = .decrypt ∨ c = .decompress →
    ∃ t t', runStatement c s = .next (t, []) ∧ runStatement c s' = .next (t', []) ∧
      (∀ n, t.readReg n = t'.readReg n) ∧ (∀ a, a < s.len.toNat → t.readByte .ibuf a = t'.readByte .ibuf a) ∧
      (c = .decompress → ∀ a, a < t.produced.toNat → t.readByte .obuf a = t'.readByte .obuf a)

/-- R125, R225: DECRYPT is its own inverse: issued under R225's conditions it leaves a unit that meets them again with
the same `LEN`, and a second DECRYPT restores IBUF. -/
def Obligations.DecryptTwiceRestores : Prop :=
  ∀ s : State, s.Ready →
    ∃ t u, runStatement .decrypt s = .next (t, []) ∧ t.Ready ∧ t.len = s.len ∧
      runStatement .decrypt t = .next (u, []) ∧ ∀ a, u.readByte .ibuf a = s.readByte .ibuf a

/-- R126, R225: two DECRYPTs, each issued under R225's conditions, on equal `IBUF[0..LEN)` with equal `LEN` under one
profile, on one unit or two, leave equal `IBUF[0..LEN)`. -/
def Obligations.DecryptDeterministic : Prop :=
  ∀ s s' t t' : State, s.IssuedReady → s'.IssuedReady →
    s.params.profile = s'.params.profile → s.latch.len = s'.latch.len →
    s.latch.len.toNat ≤ s.params.ibufCap → s.latch.len.toNat ≤ s'.params.ibufCap →
    (∀ a, a < s.latch.len.toNat → s.readByte .ibuf a = s'.readByte .ibuf a) →
    exec .decrypt s = .next t → exec .decrypt s' = .next t' →
    t.status = t'.status ∧ t.produced = t'.produced ∧
      ∀ a, a < s.latch.len.toNat → t.readByte .ibuf a = t'.readByte .ibuf a

/-! ### Command words and their checks -/

/-- R71, R72, R74: words written out from the encodings decode to the instructions they stand for, and others are
rejected by name. -/
def Obligations.EncodedWordsDecode : Prop :=
  decode stockVariant (.command 0x00000001#32) = .ok .decrypt ∧
  decode stockVariant (.command 0x00000002#32) = .ok .decompress ∧
  decode stockVariant (.command 0x00000003#32) = .reject (.illegalCommand 0x00000003#32) ∧
  decode stockVariant (.command 0x00000101#32) = .reject (.illegalCommand 0x00000101#32) ∧
  decode stockVariant (.stream [0x35, 0x61, 0x62, 0x63, 0x03, 0x00, 0x30]) = .ok (.lz4Seq [0x61, 0x62, 0x63] 3 9) ∧
  decode { perm := #v[4, 5, 6, 7, 0, 1, 2, 3], order := .be } (.stream [0x53, 0x61, 0x62, 0x63, 0x00, 0x03, 0x30]) =
    .ok (.lz4Seq [0x61, 0x62, 0x63] 3 9) ∧
  decode stockVariant (.stream [0x3f, 0x61, 0x62, 0x63]) = .ok (.lz4End [0x61, 0x62, 0x63] 15)

/-- R72: every command word but the two is illegal: the command ends at once in ERROR with `IllegalCommand` and the
word in `ERRINFO`, before any other check (R197), and nothing else changes. -/
def Obligations.IllegalCommandRaises : Prop :=
  ∀ s : State, s.status = .busy → s.z.running = false →
    s.latch.cmd ≠ 0x00000001#32 → s.latch.cmd ≠ 0x00000002#32 →
    step s = .next { s with status := .error, err := .illegalCommand, errInfo := s.latch.cmd }

/-- R172: a DECRYPT or DECOMPRESS with `LEN > IBUF_CAP` ends in ERROR with `LengthRange` and `LEN` in `ERRINFO`, and
changes nothing but `STATUS`, `ERR` and `ERRINFO`. -/
def Obligations.LengthRangeRaises : Prop :=
  ∀ (s : State) (i : Instr), i = .decrypt ∨ i = .decompress → s.params.ibufCap < s.latch.len.toNat →
    exec i s = .next { s with
      status := .error, err := .lengthRange, errInfo := s.latch.len, z := { s.z with running := false } }

/-- A step runs the decoded instruction (R71, R145, R147, R172): the command in the latch, or the sequence at `ip`;
a rejected encoding raises its error. That the sequences of a begun DECOMPRESS are steps of their own is the model's
reading (DEDUCED, notes/assumptions/7.md), and so is that a step outside a command changes nothing, where R13 says
only that the block takes no step (DEDUCED, notes/assumptions/8.md). -/
def Obligations.StepRunsDecodedInstruction : Prop :=
  ∀ s : State,
    (s.status ≠ .busy → step s = .next s) ∧
    (s.status = .busy → s.z.running = false →
      (∀ i, decode s.z.sel (.command s.latch.cmd) = .ok i → step s = exec i s) ∧
      ∀ r, decode s.z.sel (.command s.latch.cmd) = .reject r → step s = .next (rejected r s)) ∧
    (s.status = .busy → s.z.running = true →
      (∀ i, decode s.z.sel (.stream (s.readBytes .ibuf s.z.ip (s.latch.len.toNat - s.z.ip))) = .ok i →
        step s = exec i s) ∧
      ∀ r, decode s.z.sel (.stream (s.readBytes .ibuf s.z.ip (s.latch.len.toNat - s.z.ip))) = .reject r →
        step s = .next (rejected r s))

/-- No step of the block stops: every one answers a next state (R174: every command terminates; R190: what an error
reports). That each error is a next state in ERROR and none a fault of the model, also the four that R194 asks a model
to treat as faults, is the model's reading (DEDUCED, notes/assumptions/9.md), and so is that a step answers in states
no run reaches (DEDUCED, notes/assumptions/19.md). -/
def Obligations.StepNeverStops : Prop := ∀ s : State, ∃ t, step s = .next t

/-! ### Encodings -/

/-- Decode and encode agree: for every well-formed instruction, whatever its operands, decoding its encoding gives
it back, under every legal variant (R71, R74 to R77, R82). -/
def Obligations.DecodeEncodeAgree : Prop :=
  ∀ (v : Variant) (i : Instr), v.wf = true → i.wellFormed = true → decode v (encode v i) = .ok i

/-- R75: an `LZ4.SEQ` decodes from its bytes whatever follows them in the stream, and it is as long as R75 says. -/
def Obligations.SequenceDecodesBeforeRest : Prop :=
  ∀ (v : Variant) (lits : List Byte) (off : BitVec 16) (mlen : Nat) (rest : List Byte), v.wf = true → 4 ≤ mlen →
    decodeSequence v (encodeSequence v (.seq lits off mlen) ++ rest) = .ok (.seq lits off mlen) ∧
    (encodeSequence v (.seq lits off mlen)).length =
      1 + extCount lits.length + lits.length + 2 + extCount (mlen - 4)

/-- R76: every accepted sequence is the encoding of what was decoded: the last one takes the whole stream, any other
the bytes of its encoding. So no two byte strings stand for one sequence with a match; they do not for a last sequence
only because the model's `LZ4.END` carries the token's ignored `M` (the model's choice: DESIGN CHOICE,
notes/assumptions/17.md), since by R82 other values of `M` decode to the same output. -/
def Obligations.EncodingIsUnique : Prop :=
  ∀ (v : Variant) (src : List Byte) (q : Sequence), v.wf = true → decodeSequence v src = .ok q →
    match q with
    | .seq lits off mlen => 4 ≤ mlen ∧ ∃ rest, src = encodeSequence v (.seq lits off mlen) ++ rest
    | .last lits m => src = encodeSequence v (.last lits m)

/-- R78: under every legal variant every pair of nibbles is the token of exactly one byte. -/
def Obligations.EveryTokenLegal : Prop :=
  ∀ v : Variant, v.wf = true → Function.Bijective (tokenSplit v)

/-- R76, R77, R141, R143: the fields of a sequence: a length nibble below 15 is complete and reads nothing; 15 is
followed by `k` bytes of 255 and one byte `r` below 255, and means `15 + 255*k + r`; a run of 255s that the stream's
end cuts is incomplete; the offset is two bytes in the variant's order. -/
def Obligations.SequenceFields : Prop :=
  (∀ base src, base < 15 → readLenExt base src = some (base, 0, src)) ∧
  (∀ (k : Nat) (r : Byte) (rest : List Byte), r.toNat < 255 →
    readLenExt 15 (List.replicate k 255#8 ++ r :: rest) = some (15 + 255 * k + r.toNat, k + 1, rest)) ∧
  (∀ k, readLenExt 15 (List.replicate k 255#8) = none) ∧
  ∀ b0 b1 : Byte,
    (offsetOf .le b0 b1).toNat = b0.toNat + 256 * b1.toNat ∧
    (offsetOf .be b0 b1).toNat = 256 * b0.toNat + b1.toNat

/-- R79, R141 to R143, R145: where a truncated stream is rejected: no token; an unfinished literal extension; a
literal run longer than what is left (its first byte is reported); fewer than two offset bytes (the first is
reported, also when one is there); an unfinished match extension. -/
def Obligations.TruncationPositions : Prop :=
  ∀ (v : Variant) (t : Byte) (lits xs : List Byte) (n k : Nat) (b0 b1 : Byte),
    decodeSequence v [] = .reject (.truncated 0 none) ∧
    ((tokenSplit v t).1.toNat = 15 →
      decodeSequence v (t :: List.replicate k 255#8) = .reject (.truncated (1 + k) none)) ∧
    ((tokenSplit v t).1.toNat = min n 15 → xs.length < n →
      decodeSequence v (t :: (encodeExt n ++ xs)) = .reject (.truncated (1 + extCount n) none)) ∧
    ((tokenSplit v t).1.toNat = min lits.length 15 →
      decodeSequence v (t :: (encodeExt lits.length ++ lits ++ [b0])) =
        .reject (.truncated (1 + extCount lits.length + lits.length) (some lits)) ∧
      ((tokenSplit v t).2.toNat = 15 →
        decodeSequence v (t :: (encodeExt lits.length ++ lits ++ [b0, b1] ++ List.replicate k 255#8)) =
          .reject (.truncated (1 + extCount lits.length + lits.length + 2 + k) (some lits))))

/-! ### Sequences -/

/-- R144: the match copy: byte `op + k` is byte `op + (k mod off) - off` of the output as it stood before the copy,
and no other byte changes. -/
def Obligations.MatchCopyRepeats : Prop :=
  ∀ (s : State) (off mlen : Nat), 1 ≤ off → off ≤ s.z.op →
    (∀ k, k < mlen →
      (s.copyMatch off mlen).readByte .obuf (s.z.op + k) = s.readByte .obuf (s.z.op + k % off - off)) ∧
    (∀ a, a < s.z.op ∨ s.z.op + mlen ≤ a → (s.copyMatch off mlen).readByte .obuf a = s.readByte .obuf a) ∧
    s.copyMatch off mlen = { s with obuf := (s.copyMatch off mlen).obuf }

/-- R142, R144, R145: `LZ4.SEQ` completes when its bytes fit OBUF and its offset lies in the output: the literal bytes
and the repeated match bytes stand at `OBUF[op..)`, `op` advances by both, `ip` by the length of the sequence, and
nothing else changes but the fields of the sequence. The values those fields (`lit`, `mat`, `off`, `mlen`) are left
with are the model's reading (DEDUCED, notes/assumptions/15.md). -/
def Obligations.SequenceCompletes : Prop :=
  ∀ (lits : List Byte) (off : BitVec 16) (mlen : Nat) (s : State),
    s.params.obufHolds (s.z.op + lits.length + mlen) = true → 1 ≤ off.toNat → off.toNat ≤ s.z.op + lits.length →
    ∃ t, exec (.lz4Seq lits off mlen) s = .next t ∧
      (∀ i, i < lits.length → t.readByte .obuf (s.z.op + i) = lits.getD i 0) ∧
      (∀ k, k < mlen → t.readByte .obuf (s.z.op + lits.length + k) =
        t.readByte .obuf (s.z.op + lits.length + k % off.toNat - off.toNat)) ∧
      (∀ a, a < s.z.op ∨ s.z.op + lits.length + mlen ≤ a → t.readByte .obuf a = s.readByte .obuf a) ∧
      t = { s with
        obuf := t.obuf
        z := { s.z with
          ip := s.z.ip + (1 + extCount lits.length + lits.length + 2 + extCount (mlen - 4))
          op := s.z.op + lits.length + mlen
          lit := lits.length, mat := min (mlen - 4) 15, off := off.toNat, mlen := mlen } }

/-- R142, R144, R145, R148, R195, R196: the errors of an `LZ4.SEQ` whose bytes are all there, in their order: a
literal run that does not fit OBUF, with nothing copied; then an offset of 0 or beyond the output, and then a match
that does not fit, with the literal run executed and nothing of the match copied. `ERRINFO` is the `ip` of the first
literal byte or of the first offset byte, `PRODUCED` the number of bytes produced; the registers the host writes and
IBUF are as they were. The literal run of an `LZ4.END` fails in the same way. R145 lists `Truncated` too; in this
model the decoder rejects a cut sequence before it is an instruction (DEDUCED, notes/assumptions/13.md), and
`Obligations.TruncatedSequenceRaises` says what it raises. That a literal run that does not fit leaves unit Z's
`ip`, `lit`, `mat`, `off` and `mlen`, dead after the error (R24), as they were before the sequence, where R142 and
R145 have `ip` at the first literal byte and `lit` read, is the model's choice (DESIGN CHOICE,
notes/assumptions/23.md; entry 15 says what a completed part leaves in them). -/
def Obligations.SequenceErrors : Prop :=
  ∀ (lits : List Byte) (off : BitVec 16) (mlen : Nat) (m : BitVec 4) (s : State),
    (s.params.obufHolds (s.z.op + lits.length) = false →
      ∀ i, i = .lz4Seq lits off mlen ∨ i = .lz4End lits m →
      exec i s = .next { s with
        status := .error, err := .outputOverrun
        errInfo := BitVec.ofNat 32 (s.z.ip + 1 + extCount lits.length)
        produced := BitVec.ofNat 32 s.z.op, z := { s.z with running := false } }) ∧
    (s.params.obufHolds (s.z.op + lits.length) = true →
      off.toNat = 0 ∨ s.z.op + lits.length < off.toNat ∨
        s.params.obufHolds (s.z.op + lits.length + mlen) = false →
      ∃ t, exec (.lz4Seq lits off mlen) s = .next t ∧
        (∀ i, i < lits.length → t.readByte .obuf (s.z.op + i) = lits.getD i 0) ∧
        (∀ a, a < s.z.op ∨ s.z.op + lits.length ≤ a → t.readByte .obuf a = s.readByte .obuf a) ∧
        t.z.op = s.z.op + lits.length ∧ t.z.running = false ∧
        t = { s with
          status := .error
          err := if off.toNat = 0 ∨ s.z.op + lits.length < off.toNat then .badOffset else .outputOverrun
          errInfo := BitVec.ofNat 32 (s.z.ip + 1 + extCount lits.length + lits.length)
          produced := BitVec.ofNat 32 (s.z.op + lits.length)
          obuf := t.obuf, z := t.z })

/-- R146, R148, R192: `LZ4.END` whose literal run fits OBUF copies it and ends the command: DONE if the number of
bytes produced is `EXPECTED`, else ERROR with `SizeMismatch` and that number in `ERRINFO`; `PRODUCED` is that number
either way. The token's `M` field does not matter. -/
def Obligations.LastSequenceCompletes : Prop :=
  ∀ (lits : List Byte) (m : BitVec 4) (s : State), s.params.obufHolds (s.z.op + lits.length) = true →
    ∃ t, exec (.lz4End lits m) s = .next t ∧
      (∀ i, i < lits.length → t.readByte .obuf (s.z.op + i) = lits.getD i 0) ∧
      (∀ a, a < s.z.op ∨ s.z.op + lits.length ≤ a → t.readByte .obuf a = s.readByte .obuf a) ∧
      t.z.op = s.z.op + lits.length ∧ t.z.running = false ∧
      t = { s with
        status := if s.z.op + lits.length = s.latch.expected.toNat then .done else .error
        err := if s.z.op + lits.length = s.latch.expected.toNat then .none else .sizeMismatch
        errInfo := if s.z.op + lits.length = s.latch.expected.toNat then 0
                   else BitVec.ofNat 32 (s.z.op + lits.length)
        produced := BitVec.ofNat 32 (s.z.op + lits.length)
        obuf := t.obuf, z := t.z } ∧
      ∀ m', exec (.lz4End lits m') s = .next t

/-- R145, R195, R225: in a DECOMPRESS under R225's conditions a sequence the stream's end cuts raises `Truncated`
with the position of the missing byte; its literal run has been executed if and only if it was complete, and
`PRODUCED` counts it; a complete run that does not fit OBUF raises `OutputOverrun` first. -/
def Obligations.TruncatedSequenceRaises : Prop :=
  ∀ (s : State) (pos : Nat) (run : Option (List Byte)), s.BusyReady → s.z.running = true →
    decodeSequence s.z.sel s.streamRest = .reject (.truncated pos run) →
    ∃ t, step s = .next t ∧ t.status = .error ∧ t.z.running = false ∧ t.produced = BitVec.ofNat 32 t.z.op ∧
      (match run with
        | none => t.err = .truncated ∧ t.errInfo = BitVec.ofNat 32 (s.z.ip + pos) ∧ t.z.op = s.z.op ∧
            ∀ a, t.readByte .obuf a = s.readByte .obuf a
        | some lits =>
          if s.params.obufHolds (s.z.op + lits.length) then
            t.err = .truncated ∧ t.errInfo = BitVec.ofNat 32 (s.z.ip + pos) ∧ t.z.op = s.z.op + lits.length ∧
            (∀ i, i < lits.length → t.readByte .obuf (s.z.op + i) = lits.getD i 0) ∧
            ∀ a, a < s.z.op ∨ s.z.op + lits.length ≤ a → t.readByte .obuf a = s.readByte .obuf a
          else
            t.err = .outputOverrun ∧ t.errInfo = BitVec.ofNat 32 (s.z.ip + 1 + extCount lits.length) ∧
            t.z.op = s.z.op ∧ ∀ a, t.readByte .obuf a = s.readByte .obuf a) ∧
      t = { s with
        status := t.status, err := t.err, errInfo := t.errInfo, produced := t.produced, obuf := t.obuf, z := t.z }

/-! ### DECOMPRESS -/

/-- R82, R147, R148, R225: DECOMPRESS, issued under R225's conditions, of a stream assembled from sequences (R82),
whose offsets all lie in the output and whose output fits OBUF, produces exactly the output those sequences stand
for, and is DONE if its length is `EXPECTED`, else in ERROR with `SizeMismatch`; it changes no byte of OBUF at or
above that length and nothing else but `STATUS`, `ERR`, `ERRINFO`, `PRODUCED` and unit Z's working storage. -/
def Obligations.DecompressCompletes : Prop :=
  ∀ (s : State) (v : Variant) (seqs : List Sequence) (out : List Byte),
    s.IssuedReady → s.latch.len.toNat ≤ s.params.ibufCap →
    s.params.profile.variants.lookup s.latch.variant = some v →
    s.readBytes .ibuf 0 s.latch.len.toNat = encodeStream v seqs → (∀ q ∈ seqs, q.wellFormed = true) →
    expand [] seqs = some out → s.params.obufHolds out.length = true →
    ∃ t, exec .decompress s = .next t ∧
      (∀ i, i < out.length → t.readByte .obuf i = out.getD i 0) ∧
      (∀ a, out.length ≤ a → t.readByte .obuf a = s.readByte .obuf a) ∧
      t = { s with
        status := if out.length = s.latch.expected.toNat then .done else .error
        err := if out.length = s.latch.expected.toNat then .none else .sizeMismatch
        errInfo := if out.length = s.latch.expected.toNat then 0 else BitVec.ofNat 32 out.length
        produced := BitVec.ofNat 32 out.length
        obuf := t.obuf, z := t.z }

/-- R193: a `VARIANT` that is not in the profile's map ends the command before any byte of the stream is read:
`UnsupportedCompressionType` with the code in `ERRINFO`, OBUF unchanged, `PRODUCED` 0. -/
def Obligations.UnsupportedVariantRaises : Prop :=
  ∀ s : State, s.latch.len.toNat ≤ s.params.ibufCap →
    s.params.profile.variants.lookup s.latch.variant = none →
    exec .decompress s = .next { s with
      status := .error, err := .unsupportedCompressionType, errInfo := s.latch.variant, produced := 0
      z := { s.z with running := false } }

/-- R147, R174: every command completes: DECRYPT and DECOMPRESS leave BUSY from every state, whatever stands in IBUF
and in the registers, and so does every step of the block at an issued command. -/
def Obligations.CommandsComplete : Prop :=
  (∀ (s : State) (i : Instr), i = .decrypt ∨ i = .decompress →
    ∃ t, exec i s = .next t ∧ t.z.running = false ∧
      ((t.status = .done ∧ t.err = .none) ∨ (t.status = .error ∧ t.err ≠ .none))) ∧
  ∀ s : State, s.status = .busy → s.z.running = false → ∃ t, step s = .next t ∧ t.status ≠ .busy

/-- R148, R60: what DECOMPRESS, `LZ4.SEQ` and `LZ4.END` do not write: IBUF, `LEN`, `EXPECTED`, `VARIANT`, SCRATCH and
unit C's registers, and OBUF at indices at and above `op`. -/
def Obligations.DecompressFrame : Prop :=
  ∀ (s t : State) (i : Instr), i ≠ .decrypt → exec i s = .next t →
    t.ibuf = s.ibuf ∧ t.len = s.len ∧ t.expected = s.expected ∧ t.variant = s.variant ∧ t.latch = s.latch ∧
    t.c = s.c ∧ t.params = s.params ∧ ∀ a, t.z.op ≤ a → t.readByte .obuf a = s.readByte .obuf a

/-- R149: what a DECOMPRESS produces depends on nothing but the stream, `LEN`, the variant and `OBUF_CAP`:
`EXPECTED` decides only between DONE and `SizeMismatch`, and no working storage, other register or byte matters, nor
which of two codes selects one variant. For a code that selects none, `ERRINFO` names the code (R193). Both commands
are issued under R225's conditions. -/
def Obligations.OutputIndependentOfExpected : Prop :=
  ∀ s s' t t' : State, s.IssuedReady → s'.IssuedReady →
    s.latch.len = s'.latch.len → s.opVariant? = s'.opVariant? → s.params.obufCap = s'.params.obufCap →
    s.latch.len.toNat ≤ s.params.ibufCap → s.latch.len.toNat ≤ s'.params.ibufCap →
    (∀ a, a < s.latch.len.toNat → s.readByte .ibuf a = s'.readByte .ibuf a) →
    exec .decompress s = .next t → exec .decompress s' = .next t' →
    t.produced = t'.produced ∧
    (s.opVariant? ≠ none → t.z.op = t'.z.op ∧ ∀ a, a < t.z.op → t.readByte .obuf a = t'.readByte .obuf a) ∧
    ((t.err = .none ∨ t.err = .sizeMismatch) ↔ (t'.err = .none ∨ t'.err = .sizeMismatch)) ∧
    (t.err ≠ .none → t.err ≠ .sizeMismatch → t'.err = t.err) ∧
    (s.latch.expected = s'.latch.expected → t'.status = t.status ∧ t'.err = t.err) ∧
    (s.opVariant? ≠ none ∨ s.latch.variant = s'.latch.variant →
      (t.err ≠ .none → t.err ≠ .sizeMismatch → t'.errInfo = t.errInfo) ∧
      (s.latch.expected = s'.latch.expected → t'.errInfo = t.errInfo))

/-- R58, R174, R225: a DECOMPRESS issued under R225's conditions and taken one sequence a step reaches the state the
one transition of the command reaches, however long the host waits. Beginning a DECOMPRESS and taking its sequences
as steps is the model's reading of the command (DEDUCED, notes/assumptions/7.md). -/
def Obligations.SequenceStepsReachCommandEnd : Prop :=
  ∀ s : State, s.BusyReady → s.z.running = false → s.latch.cmd = 0x00000002#32 →
    ∃ t, exec .decompress s = .next t ∧
      ∀ k, s.latch.len.toNat + 1 ≤ k → waitDone k (beginDecompress s) = .next t

/-- R60, R179, R225, R233: the region flow, begun under R225's conditions: a stream that stands in IBUF XORed with
the keystream at the bytes a DECRYPT of its length touches is decoded by DECRYPT and then DECOMPRESS, with the same
`LEN`, to the output its sequences stand for. -/
def Obligations.RegionFlowDecodes : Prop :=
  ∀ (s : State) (v : Variant) (seqs : List Sequence) (out : List Byte),
    s.Ready → s.len.toNat ≤ s.params.ibufCap → s.params.profile.variants.lookup s.variant = some v →
    (encodeStream v seqs).length = s.len.toNat → (∀ q ∈ seqs, q.wellFormed = true) →
    (∀ a, a < s.len.toNat → s.readByte .ibuf a =
      if touches s.len.toNat a then
        (encodeStream v seqs).getD a 0 ^^^ keystreamByte s.params.profile (keystreamIndex s.len.toNat a)
      else (encodeStream v seqs).getD a 0) →
    expand [] seqs = some out → s.params.obufHolds out.length = true → out.length = s.expected.toNat →
    ∃ t, runProgram [.decrypt, .decompress] s = .next (t, []) ∧ t.readReg 1 = 2 ∧ t.readReg 2 = 0 ∧
      t.readReg 7 = BitVec.ofNat 32 out.length ∧ ∀ i, i < out.length → t.readByte .obuf i = out.getD i 0

/-! ### The whole machine -/

/-- The invariant holds at reset (R29, R40, R50). -/
def Obligations.ResetMeetsInvariant : Prop := State.reset.Inv

/-- Every event keeps the invariant (R8, R24, R28 to R30, R38, R50, R172): a step of the block, a move of the host, a
reset, the begin of a DECOMPRESS, another profile. -/
def Obligations.EventsKeepInvariant : Prop :=
  ∀ (e : Event) (s t : State), s.Inv → sysStep e s = .next t → t.Inv

/-- R170: the transitions of `STATE`, and no others: a reset makes it IDLE; an issue makes it BUSY; the block makes it
DONE or ERROR, and only while it is BUSY; a write to `CMD` while BUSY changes nothing. -/
def Obligations.StatusTransitions : Prop :=
  ∀ (e : Event) (s t : State), sysStep e s = .next t →
    (e = .reset → t.status = .idle) ∧
    (∀ w, e = .host (.writeReg 0 w) → (s.status = .busy → t = s) ∧ (s.status ≠ .busy → t.status = .busy)) ∧
    (t.status ≠ s.status →
      e = .reset ∨ (s.status ≠ .busy ∧ t.status = .busy ∧ ∃ w, e = .host (.writeReg 0 w)) ∨
      (s.status = .busy ∧ (t.status = .done ∨ t.status = .error) ∧ (e = .block ∨ e = .beginDecompress)))

/-- R7: no rule writes the profile; R39: the profile and the capacities are parameters. Nothing but the platform's
own change writes the profile, and it is constant during a command (R232). That such a change is an event, refused
during a command, and that no event changes the capacities is the model's choice (DESIGN CHOICE,
notes/assumptions/11.md). -/
def Obligations.ProfileNeverWritten : Prop :=
  ∀ (e : Event) (s t : State), sysStep e s = .next t →
    ((∀ p, e ≠ .setProfile p) → t.params = s.params) ∧
    (s.status = .busy → t.params = s.params) ∧
    t.params.ibufCap = s.params.ibufCap ∧ t.params.obufCap = s.params.obufCap

/-- R190: which errors each command can end in; none ends in `NotRecognized`, and a command ends in `IllegalCommand`
only for its word. The clauses for `LZ4.SEQ` and `LZ4.END` are for a sequence whose bytes are all there: R145 lists
`Truncated` too among the errors of `LZ4.SEQ`, and R146 takes it over for `LZ4.END`, but in this model a cut
sequence is rejected by the decoder before it is an instruction (DEDUCED, notes/assumptions/13.md), and its
`Truncated`, an error of DECOMPRESS (R148), is said by `Obligations.TruncatedSequenceRaises`. -/
def Obligations.ErrorsOfEachInstruction : Prop :=
  ∀ s t : State,
    (exec .decrypt s = .next t → t.err = .none ∨ t.err = .lengthRange) ∧
    (exec .decompress s = .next t →
      t.err = .none ∨ t.err = .truncated ∨ t.err = .sizeMismatch ∨ t.err = .unsupportedCompressionType ∨
      t.err = .badOffset ∨ t.err = .outputOverrun ∨ t.err = .lengthRange) ∧
    (∀ lits off mlen, exec (.lz4Seq lits off mlen) s = .next t → t.status ≠ s.status →
      t.err = .badOffset ∨ t.err = .outputOverrun) ∧
    ∀ lits m, exec (.lz4End lits m) s = .next t →
      t.err = .none ∨ t.err = .sizeMismatch ∨ t.err = .outputOverrun

/-- R195: IBUF is never changed by an error: a step that ends a command in ERROR leaves every byte of it. -/
def Obligations.ErrorsLeaveIbuf : Prop :=
  ∀ s t : State, s.status = .busy → step s = .next t → t.status = .error →
    ∀ a, t.readByte .ibuf a = s.readByte .ibuf a

/-- R201: the ERROR state lasts until the next command is issued, which clears `ERR` and `ERRINFO`; the next command
runs exactly as it would from IDLE, a DECRYPT or DECOMPRESS under R225's conditions. -/
def Obligations.ErrorLastsUntilIssue : Prop :=
  ∀ s : State, s.status = .error →
    (∀ e t, sysStep e s = .next t → t.status ≠ .error ∨ t.err ≠ s.err ∨ t.errInfo ≠ s.errInfo →
      e = .reset ∨ ∃ w, e = .host (.writeReg 0 w)) ∧
    ∀ w, (s.writeReg 0 w).err = .none ∧ (s.writeReg 0 w).errInfo = 0 ∧
      ((w = 0x00000001#32 ∨ w = 0x00000002#32 → s.Ready) →
        runCommand w s = runCommand w { s with status := .idle, err := .none, errInfo := 0 })

/-- R178, R225: a command issued and waited for is its instruction at the issued state, a DECRYPT or DECOMPRESS under
R225's conditions; any other word ends in `IllegalCommand`. -/
def Obligations.WaitReachesCommandEnd : Prop :=
  ∀ s : State, s.status ≠ .busy →
    (s.Ready →
      runCommand 0x00000001#32 s = exec .decrypt (s.issue 0x00000001#32) ∧
      runCommand 0x00000002#32 s = exec .decompress (s.issue 0x00000002#32)) ∧
    ∀ w, w ≠ 0x00000001#32 → w ≠ 0x00000002#32 →
      runCommand w s = .next ((s.issue w).raise .illegalCommand w.toNat)

/-- R38: nothing of the hidden state survives a command in a way a later command or the host can observe: two units
that differ in the latch and the working storage of the two units alone look alike after every command; DECRYPT and
DECOMPRESS are issued under R225's conditions. -/
def Obligations.HiddenStateUnobservable : Prop :=
  ∀ (s : State) (l : Latch) (c : UnitC) (z : UnitZ) (w : Word) (t t' : State), s.status ≠ .busy →
    (w = 0x00000001#32 ∨ w = 0x00000002#32 → s.Ready) →
    runCommand w s = .next t → runCommand w { s with latch := l, c := c, z := z } = .next t' → SameVisible t t'

/-- R212: units share nothing: an event at one has the result it would have alone, and leaves every other unit as it
was. That no event changes the index `unit` of the free values, so that units that begin with different ones keep
them, is the model's own (DESIGN CHOICE, notes/assumptions/22.md). -/
def Obligations.UnitsIndependent : Prop :=
  ∀ (k : Nat) (e : Event) (us us' : List State), unitsStep k e us = some us' →
    us'.length = us.length ∧ (∀ j, j ≠ k → us'[j]? = us[j]?) ∧
    us'.map State.unit = us.map State.unit ∧
    ∃ s t, us[k]? = some s ∧ sysStep e s = .next t ∧ us'[k]? = some t
end

