-- ==== Sys2Proof/Laws/Memory.lean ====
section
/-!
SUPPORT. The laws of a memory: a read after a write, the canonical form and the listed addresses kept by
every operation, and the loop lemma.
-/
namespace Sys2Proof.Machine

/-! ### Loops -/

/-- What holds before the first iteration and is carried from each iteration to the next holds after the
loop. -/
theorem forUpTo_induct {σ : Type} (P : Nat → σ → Prop) (body : Nat → σ → σ) (s : σ) (n : Nat)
    (h0 : P 0 s) (hs : ∀ i u, i < n → P i u → P (i + 1) (body i u)) : P n (forUpTo n body s) := by
  induction n with
  | zero => exact h0
  | succ n ih =>
    exact hs n _ (Nat.lt_succ_self n) (ih fun i u hi => hs i u (Nat.lt_succ_of_lt hi))

@[simp] theorem forUpTo_zero {σ : Type} (body : Nat → σ → σ) (s : σ) : forUpTo 0 body s = s := rfl

@[simp] theorem forUpTo_succ {σ : Type} (n : Nat) (body : Nat → σ → σ) (s : σ) :
    forUpTo (n + 1) body s = body n (forUpTo n body s) := rfl

/-! ### One byte -/

namespace Memory

@[simp] theorem get?_nil (a : Nat) : Memory.get? [] a = none := rfl

/-- A write puts its byte at its address and leaves every other address alone. -/
theorem get?_put (m : Memory) (a x : Nat) (v : Byte) :
    (m.put a v).get? x = if x = a then some v else m.get? x := by
  induction m with
  | nil => simp [Memory.put, Memory.get?]
  | cons c m ih =>
    obtain ⟨b, w⟩ := c
    simp only [Memory.put]
    split
    · simp [Memory.get?]
    · split
      · subst_vars; simp only [Memory.get?]; split <;> simp_all
      · simp only [Memory.get?, ih]
        split
        · split
          · omega
          · rfl
        · rfl

@[simp] theorem get?_put_same (m : Memory) (a : Nat) (v : Byte) : (m.put a v).get? a = some v := by
  simp [get?_put]

theorem get?_put_ne (m : Memory) {a x : Nat} (v : Byte) (h : x ≠ a) : (m.put a v).get? x = m.get? x := by
  simp [get?_put, h]

/-- The addresses listed after a write. -/
theorem mem_put {m : Memory} {a : Nat} {v : Byte} {x : Host.Cell} (h : x ∈ m.put a v) :
    x = (a, v) ∨ x ∈ m := by
  induction m with
  | nil => simpa [Memory.put] using h
  | cons c m ih =>
    obtain ⟨b, w⟩ := c
    simp only [Memory.put] at h
    split at h
    · simpa using h
    · split at h
      · rcases List.mem_cons.1 h with h | h
        · exact .inl h
        · exact .inr (List.mem_cons_of_mem _ h)
      · rcases List.mem_cons.1 h with h | h
        · exact .inr (h ▸ List.mem_cons_self)
        · exact (ih h).imp_right (List.mem_cons_of_mem _)

/-- A write keeps the canonical form. -/
theorem wf_put {m : Memory} (h : Memory.wf m) (a : Nat) (v : Byte) : Memory.wf (m.put a v) := by
  induction m with
  | nil => exact List.pairwise_singleton _ _
  | cons c m ih =>
    obtain ⟨b, w⟩ := c
    obtain ⟨hb, hm⟩ := List.pairwise_cons.1 h
    simp only [Memory.put]
    split
    · next hab =>
      refine List.pairwise_cons.2 ⟨fun x hx => ?_, h⟩
      rcases List.mem_cons.1 hx with rfl | hx
      · exact hab
      · exact Nat.lt_trans hab (hb x hx)
    · split
      · next hab => subst hab; exact List.pairwise_cons.2 ⟨hb, hm⟩
      · refine List.pairwise_cons.2 ⟨fun x hx => ?_, ih hm⟩
        rcases mem_put hx with rfl | hx
        · simp only; omega
        · exact hb x hx

/-- The empty memory of a reset is in canonical form. -/
theorem wf_nil : Memory.wf [] := List.Pairwise.nil

theorem get?_eq_none_of_lt {m : Memory} {a : Nat} (h : ∀ x ∈ m, a < x.1) : m.get? a = none := by
  induction m with
  | nil => rfl
  | cons c m ih =>
    have := h c List.mem_cons_self
    simp only [Memory.get?]
    rw [if_neg (by omega), ih fun x hx => h x (List.mem_cons_of_mem _ hx)]

/-- Two memories in canonical form that read alike everywhere are the same data. -/
theorem ext_of_wf {m n : Memory} (hm : Memory.wf m) (hn : Memory.wf n)
    (h : ∀ a, m.get? a = n.get? a) : m = n := by
  induction m generalizing n with
  | nil =>
    cases n with
    | nil => rfl
    | cons c n => have := h c.1; simp [Memory.get?] at this
  | cons c m ih =>
    cases n with
    | nil => have := h c.1; simp [Memory.get?] at this
    | cons d n =>
      obtain ⟨b, v⟩ := c
      obtain ⟨e, w⟩ := d
      obtain ⟨hb, hm'⟩ := List.pairwise_cons.1 hm
      obtain ⟨he, hn'⟩ := List.pairwise_cons.1 hn
      have hbe : b = e := by
        rcases Nat.lt_trichotomy b e with hlt | heq | hgt
        · have h1 := h b
          rw [get?_eq_none_of_lt (m := (e, w) :: n) (a := b)] at h1
          · simp [Memory.get?] at h1
          · intro x hx
            rcases List.mem_cons.1 hx with rfl | hx
            · exact hlt
            · exact Nat.lt_trans hlt (he x hx)
        · exact heq
        · have h1 := h e
          rw [get?_eq_none_of_lt (m := (b, v) :: m) (a := e)] at h1
          · simp [Memory.get?] at h1
          · intro x hx
            rcases List.mem_cons.1 hx with rfl | hx
            · exact hgt
            · exact Nat.lt_trans hgt (hb x hx)
      subst hbe
      have hvw := h b
      simp only [Memory.get?, if_true, Option.some.injEq] at hvw
      subst hvw
      congr 1
      refine ih hm' hn' fun a => ?_
      have h1 := h a
      simp only [Memory.get?] at h1
      by_cases hab : a = b
      · subst hab
        rw [get?_eq_none_of_lt fun x hx => hb x hx, get?_eq_none_of_lt fun x hx => he x hx]
      · simpa [hab] using h1

end Memory

end Sys2Proof.Machine
end

