-- ==== Sys2Proof/Laws/State.lean ====
section
/-!
SUPPORT. One lemma per field per update of the state, each true by unfolding, and what the byte operations
do to a state: they change the one memory they name.
-/
namespace Sys2Proof.Machine

variable (s : State)

/-! ### Replacing a memory -/

section setMem
variable (sp sp' : Space) (m m' : Memory)

@[simp] theorem State.setMem_params : (s.setMem sp m).params = s.params := by cases sp <;> rfl
@[simp] theorem State.setMem_status : (s.setMem sp m).status = s.status := by cases sp <;> rfl
@[simp] theorem State.setMem_err : (s.setMem sp m).err = s.err := by cases sp <;> rfl
@[simp] theorem State.setMem_errInfo : (s.setMem sp m).errInfo = s.errInfo := by cases sp <;> rfl
@[simp] theorem State.setMem_len : (s.setMem sp m).len = s.len := by cases sp <;> rfl
@[simp] theorem State.setMem_expected : (s.setMem sp m).expected = s.expected := by cases sp <;> rfl
@[simp] theorem State.setMem_variant : (s.setMem sp m).variant = s.variant := by cases sp <;> rfl
@[simp] theorem State.setMem_produced : (s.setMem sp m).produced = s.produced := by cases sp <;> rfl
@[simp] theorem State.setMem_latch : (s.setMem sp m).latch = s.latch := by cases sp <;> rfl
@[simp] theorem State.setMem_z : (s.setMem sp m).z = s.z := by cases sp <;> rfl
@[simp] theorem State.setMem_unit : (s.setMem sp m).unit = s.unit := by cases sp <;> rfl
@[simp] theorem State.setMem_epoch : (s.setMem sp m).epoch = s.epoch := by cases sp <;> rfl
@[simp] theorem State.setMem_draws : (s.setMem sp m).draws = s.draws := by cases sp <;> rfl
@[simp] theorem State.setMem_feedback : (s.setMem sp m).c.feedback = s.c.feedback := by cases sp <;> rfl
@[simp] theorem State.setMem_ks : (s.setMem sp m).c.ks = s.c.ks := by cases sp <;> rfl
@[simp] theorem State.setMem_blockIdx : (s.setMem sp m).c.blockIdx = s.c.blockIdx := by cases sp <;> rfl
@[simp] theorem State.setMem_sampleIdx : (s.setMem sp m).c.sampleIdx = s.c.sampleIdx := by cases sp <;> rfl

@[simp] theorem State.mem_setMem_same : (s.setMem sp m).mem sp = m := by cases sp <;> rfl

theorem State.mem_setMem_ne (h : sp' ≠ sp) : (s.setMem sp m).mem sp' = s.mem sp' := by
  cases sp <;> cases sp' <;> first | rfl | exact absurd rfl h

theorem State.mem_setMem : (s.setMem sp m).mem sp' = if sp' = sp then m else s.mem sp' := by
  split
  · next h => subst h; simp
  · next h => exact s.mem_setMem_ne sp sp' m h

@[simp] theorem State.setMem_setMem : (s.setMem sp m).setMem sp m' = s.setMem sp m' := by
  cases sp <;> rfl

@[simp] theorem State.setMem_mem : s.setMem sp (s.mem sp) = s := by cases sp <;> rfl

@[simp] theorem State.setMem_opLen : (s.setMem sp m).opLen = s.opLen := by cases sp <;> rfl
@[simp] theorem State.setMem_opExpected : (s.setMem sp m).opExpected = s.opExpected := by cases sp <;> rfl
@[simp] theorem State.setMem_opVariant? : (s.setMem sp m).opVariant? = s.opVariant? := by cases sp <;> rfl
@[simp] theorem State.setMem_lenInRange : (s.setMem sp m).lenInRange = s.lenInRange := by cases sp <;> rfl
@[simp] theorem State.setMem_inSpace (a : Nat) : (s.setMem sp m).inSpace sp' a = s.inSpace sp' a := by
  cases sp <;> cases sp' <;> rfl

end setMem

/-! ### Bytes -/

theorem State.mem_ibuf : s.mem .ibuf = s.ibuf := rfl
theorem State.mem_obuf : s.mem .obuf = s.obuf := rfl
theorem State.mem_scratch : s.mem .scratch = s.c.scratch := rfl

/-- A read depends on the memory of its space, on the unit and on the reset it follows. -/
theorem State.readByte_congr {s t : State} {sp : Space} (a : Nat) (hm : s.mem sp = t.mem sp)
    (hu : s.unit = t.unit) (he : s.epoch = t.epoch) : s.readByte sp a = t.readByte sp a := by
  simp only [State.readByte, hm, hu, he]

/-- A read after a write of one byte (R51): the value written at its own address of its own space, and
anywhere else what was there. -/
theorem State.readByte_writeByte (sp sp' : Space) (a x : Nat) (v : Byte) :
    (s.writeByte sp a v).readByte sp' x = if sp' = sp ∧ x = a then v else s.readByte sp' x := by
  unfold State.readByte State.writeByte
  rw [State.setMem_unit, State.setMem_epoch]
  by_cases h : sp' = sp
  · subst h
    rw [State.mem_setMem_same, Memory.get?_put]
    by_cases hx : x = a <;> simp [hx]
  · rw [State.mem_setMem_ne _ _ _ _ h]
    simp [h]

@[simp] theorem State.readByte_writeByte_same (sp : Space) (a : Nat) (v : Byte) :
    (s.writeByte sp a v).readByte sp a = v := by simp [State.readByte_writeByte]

/-- The memory that a run of bytes leaves. -/
def Memory.putBytes : Memory → Nat → List Byte → Memory
  | m, _, [] => m
  | m, a, v :: vs => (m.put a v).putBytes (a + 1) vs

/-- A write of bytes changes the memory of its space and nothing else (R51). -/
theorem State.writeBytes_eq (sp : Space) (a : Nat) (vs : List Byte) :
    s.writeBytes sp a vs = s.setMem sp ((s.mem sp).putBytes a vs) := by
  induction vs generalizing s a with
  | nil => simp [State.writeBytes, Memory.putBytes]
  | cons v vs ih => simp [State.writeBytes, Memory.putBytes, ih, State.writeByte]

theorem Memory.get?_putBytes (m : Memory) (a x : Nat) (vs : List Byte) :
    (m.putBytes a vs).get? x = if a ≤ x ∧ x < a + vs.length then vs[x - a]? else m.get? x := by
  induction vs generalizing m a with
  | nil => simp only [Memory.putBytes, List.length_nil]; rw [if_neg (by omega)]
  | cons v vs ih =>
    simp only [Memory.putBytes, ih, Memory.get?_put, List.length_cons]
    by_cases h1 : x = a
    · subst h1
      rw [if_neg (by omega), if_pos (by omega)]; simp
    · by_cases h2 : a + 1 ≤ x ∧ x < a + 1 + vs.length
      · rw [if_pos h2, if_pos (by omega), show x - a = (x - (a + 1)) + 1 by omega]; simp
      · rw [if_neg h2, if_neg h1, if_neg (by omega)]

theorem Memory.wf_putBytes {m : Memory} (h : Memory.wf m) (a : Nat) (vs : List Byte) :
    Memory.wf (m.putBytes a vs) := by
  induction vs generalizing m a with
  | nil => exact h
  | cons v vs ih => exact ih (Memory.wf_put h a v) (a + 1)

theorem Memory.mem_putBytes {m : Memory} {a : Nat} {vs : List Byte} {x : Host.Cell}
    (h : x ∈ m.putBytes a vs) : (a ≤ x.1 ∧ x.1 < a + vs.length) ∨ x ∈ m := by
  induction vs generalizing m a with
  | nil => exact .inr h
  | cons v vs ih =>
    rcases ih h with h | h
    · refine .inl ⟨by omega, by simp only [List.length_cons]; omega⟩
    · rcases Memory.mem_put h with rfl | h
      · exact .inl ⟨Nat.le_refl _, by simp only [List.length_cons]; omega⟩
      · exact .inr h

/-- A read after a write of bytes (R51). -/
theorem State.readByte_writeBytes (sp sp' : Space) (a x : Nat) (vs : List Byte) :
    (s.writeBytes sp a vs).readByte sp' x =
      if sp' = sp ∧ a ≤ x ∧ x < a + vs.length then vs.getD (x - a) 0#8 else s.readByte sp' x := by
  rw [State.writeBytes_eq]
  unfold State.readByte
  rw [State.setMem_unit, State.setMem_epoch]
  by_cases h : sp' = sp
  · subst h
    rw [State.mem_setMem_same, Memory.get?_putBytes]
    by_cases hx : a ≤ x ∧ x < a + vs.length
    · rw [if_pos hx, if_pos ⟨rfl, hx⟩, List.getD_eq_getElem?_getD]
      have : x - a < vs.length := by omega
      simp [this]
    · rw [if_neg hx, if_neg (by simpa using hx)]
  · rw [State.mem_setMem_ne _ _ _ _ h, if_neg (fun h' => h h'.1)]

@[simp] theorem State.length_readBytes (sp : Space) (a n : Nat) : (s.readBytes sp a n).length = n := by
  induction n generalizing a with
  | zero => rfl
  | succ n ih => simp [State.readBytes, ih]

/-- Byte `i` of a read of bytes (R51). -/
theorem State.getElem_readBytes (sp : Space) (a n i : Nat) (h : i < (s.readBytes sp a n).length) :
    (s.readBytes sp a n)[i] = s.readByte sp (a + i) := by
  induction n generalizing a i with
  | zero => simp [State.readBytes] at h
  | succ n ih =>
    cases i with
    | zero => rfl
    | succ i =>
      simp only [State.readBytes, List.getElem_cons_succ]
      rw [ih]; congr 1; omega

/-- Reads of bytes agree where the bytes do. -/
theorem State.readBytes_congr {s t : State} {sp : Space} {a n : Nat}
    (h : ∀ x, a ≤ x → x < a + n → s.readByte sp x = t.readByte sp x) :
    s.readBytes sp a n = t.readBytes sp a n := by
  induction n generalizing a with
  | zero => rfl
  | succ n ih =>
    simp only [State.readBytes]
    rw [h a (Nat.le_refl _) (by omega), ih fun x h1 h2 => h x (by omega) (by omega)]

/-! ### The ends and the start of a command -/

section ends
variable (e : ErrCode) (info v : Nat) (w : Word) (var : Variant)

@[simp] theorem State.complete_params : s.complete.params = s.params := rfl
@[simp] theorem State.complete_status : s.complete.status = .done := rfl
@[simp] theorem State.complete_err : s.complete.err = .none := rfl
@[simp] theorem State.complete_errInfo : s.complete.errInfo = 0 := rfl
@[simp] theorem State.complete_len : s.complete.len = s.len := rfl
@[simp] theorem State.complete_expected : s.complete.expected = s.expected := rfl
@[simp] theorem State.complete_variant : s.complete.variant = s.variant := rfl
@[simp] theorem State.complete_produced : s.complete.produced = s.produced := rfl
@[simp] theorem State.complete_latch : s.complete.latch = s.latch := rfl
@[simp] theorem State.complete_ibuf : s.complete.ibuf = s.ibuf := rfl
@[simp] theorem State.complete_obuf : s.complete.obuf = s.obuf := rfl
@[simp] theorem State.complete_c : s.complete.c = s.c := rfl
@[simp] theorem State.complete_running : s.complete.z.running = false := rfl
@[simp] theorem State.complete_op : s.complete.z.op = s.z.op := rfl
@[simp] theorem State.complete_unit : s.complete.unit = s.unit := rfl
@[simp] theorem State.complete_epoch : s.complete.epoch = s.epoch := rfl
@[simp] theorem State.complete_draws : s.complete.draws = s.draws := rfl
@[simp] theorem State.complete_readByte (sp : Space) (a : Nat) :
    s.complete.readByte sp a = s.readByte sp a := by cases sp <;> rfl

@[simp] theorem State.raise_params : (s.raise e info).params = s.params := rfl
@[simp] theorem State.raise_status : (s.raise e info).status = .error := rfl
@[simp] theorem State.raise_err : (s.raise e info).err = e := rfl
@[simp] theorem State.raise_errInfo : (s.raise e info).errInfo = BitVec.ofNat 32 info := rfl
@[simp] theorem State.raise_len : (s.raise e info).len = s.len := rfl
@[simp] theorem State.raise_expected : (s.raise e info).expected = s.expected := rfl
@[simp] theorem State.raise_variant : (s.raise e info).variant = s.variant := rfl
@[simp] theorem State.raise_produced : (s.raise e info).produced = s.produced := rfl
@[simp] theorem State.raise_latch : (s.raise e info).latch = s.latch := rfl
@[simp] theorem State.raise_ibuf : (s.raise e info).ibuf = s.ibuf := rfl
@[simp] theorem State.raise_obuf : (s.raise e info).obuf = s.obuf := rfl
@[simp] theorem State.raise_c : (s.raise e info).c = s.c := rfl
@[simp] theorem State.raise_running : (s.raise e info).z.running = false := rfl
@[simp] theorem State.raise_op : (s.raise e info).z.op = s.z.op := rfl
@[simp] theorem State.raise_unit : (s.raise e info).unit = s.unit := rfl
@[simp] theorem State.raise_epoch : (s.raise e info).epoch = s.epoch := rfl
@[simp] theorem State.raise_draws : (s.raise e info).draws = s.draws := rfl
@[simp] theorem State.raise_readByte (sp : Space) (a : Nat) :
    (s.raise e info).readByte sp a = s.readByte sp a := by cases sp <;> rfl

@[simp] theorem State.setProduced_produced : (s.setProduced v).produced = BitVec.ofNat 32 v := rfl
@[simp] theorem State.setProduced_params : (s.setProduced v).params = s.params := rfl
@[simp] theorem State.setProduced_status : (s.setProduced v).status = s.status := rfl
@[simp] theorem State.setProduced_err : (s.setProduced v).err = s.err := rfl
@[simp] theorem State.setProduced_errInfo : (s.setProduced v).errInfo = s.errInfo := rfl
@[simp] theorem State.setProduced_len : (s.setProduced v).len = s.len := rfl
@[simp] theorem State.setProduced_expected : (s.setProduced v).expected = s.expected := rfl
@[simp] theorem State.setProduced_variant : (s.setProduced v).variant = s.variant := rfl
@[simp] theorem State.setProduced_latch : (s.setProduced v).latch = s.latch := rfl
@[simp] theorem State.setProduced_ibuf : (s.setProduced v).ibuf = s.ibuf := rfl
@[simp] theorem State.setProduced_obuf : (s.setProduced v).obuf = s.obuf := rfl
@[simp] theorem State.setProduced_c : (s.setProduced v).c = s.c := rfl
@[simp] theorem State.setProduced_z : (s.setProduced v).z = s.z := rfl
@[simp] theorem State.setProduced_unit : (s.setProduced v).unit = s.unit := rfl
@[simp] theorem State.setProduced_epoch : (s.setProduced v).epoch = s.epoch := rfl
@[simp] theorem State.setProduced_draws : (s.setProduced v).draws = s.draws := rfl
@[simp] theorem State.setProduced_readByte (sp : Space) (a : Nat) :
    (s.setProduced v).readByte sp a = s.readByte sp a := by cases sp <;> rfl

@[simp] theorem State.raiseStream_status : (s.raiseStream e info).status = .error := rfl
@[simp] theorem State.raiseStream_err : (s.raiseStream e info).err = e := rfl
@[simp] theorem State.raiseStream_errInfo : (s.raiseStream e info).errInfo = BitVec.ofNat 32 info := rfl
@[simp] theorem State.raiseStream_produced :
    (s.raiseStream e info).produced = BitVec.ofNat 32 s.z.op := rfl
@[simp] theorem State.raiseStream_params : (s.raiseStream e info).params = s.params := rfl
@[simp] theorem State.raiseStream_len : (s.raiseStream e info).len = s.len := rfl
@[simp] theorem State.raiseStream_expected : (s.raiseStream e info).expected = s.expected := rfl
@[simp] theorem State.raiseStream_variant : (s.raiseStream e info).variant = s.variant := rfl
@[simp] theorem State.raiseStream_latch : (s.raiseStream e info).latch = s.latch := rfl
@[simp] theorem State.raiseStream_ibuf : (s.raiseStream e info).ibuf = s.ibuf := rfl
@[simp] theorem State.raiseStream_obuf : (s.raiseStream e info).obuf = s.obuf := rfl
@[simp] theorem State.raiseStream_c : (s.raiseStream e info).c = s.c := rfl
@[simp] theorem State.raiseStream_running : (s.raiseStream e info).z.running = false := rfl
@[simp] theorem State.raiseStream_op : (s.raiseStream e info).z.op = s.z.op := rfl
@[simp] theorem State.raiseStream_unit : (s.raiseStream e info).unit = s.unit := rfl
@[simp] theorem State.raiseStream_epoch : (s.raiseStream e info).epoch = s.epoch := rfl
@[simp] theorem State.raiseStream_draws : (s.raiseStream e info).draws = s.draws := rfl
@[simp] theorem State.raiseStream_readByte (sp : Space) (a : Nat) :
    (s.raiseStream e info).readByte sp a = s.readByte sp a := by cases sp <;> rfl

@[simp] theorem State.issue_params : (s.issue w).params = s.params := rfl
@[simp] theorem State.issue_status : (s.issue w).status = .busy := rfl
@[simp] theorem State.issue_err : (s.issue w).err = .none := rfl
@[simp] theorem State.issue_errInfo : (s.issue w).errInfo = 0 := rfl
@[simp] theorem State.issue_len : (s.issue w).len = s.len := rfl
@[simp] theorem State.issue_expected : (s.issue w).expected = s.expected := rfl
@[simp] theorem State.issue_variant : (s.issue w).variant = s.variant := rfl
@[simp] theorem State.issue_produced : (s.issue w).produced = s.produced := rfl
@[simp] theorem State.issue_latch :
    (s.issue w).latch = { cmd := w, len := s.len, expected := s.expected, variant := s.variant } := rfl
@[simp] theorem State.issue_ibuf : (s.issue w).ibuf = s.ibuf := rfl
@[simp] theorem State.issue_obuf : (s.issue w).obuf = s.obuf := rfl
@[simp] theorem State.issue_c : (s.issue w).c = s.c := rfl
@[simp] theorem State.issue_running : (s.issue w).z.running = false := rfl
@[simp] theorem State.issue_unit : (s.issue w).unit = s.unit := rfl
@[simp] theorem State.issue_epoch : (s.issue w).epoch = s.epoch := rfl
@[simp] theorem State.issue_draws : (s.issue w).draws = s.draws := rfl
@[simp] theorem State.issue_readByte (sp : Space) (a : Nat) :
    (s.issue w).readByte sp a = s.readByte sp a := by cases sp <;> rfl

@[simp] theorem State.openStream_params : (s.openStream var).params = s.params := rfl
@[simp] theorem State.openStream_status : (s.openStream var).status = s.status := rfl
@[simp] theorem State.openStream_err : (s.openStream var).err = s.err := rfl
@[simp] theorem State.openStream_errInfo : (s.openStream var).errInfo = s.errInfo := rfl
@[simp] theorem State.openStream_len : (s.openStream var).len = s.len := rfl
@[simp] theorem State.openStream_expected : (s.openStream var).expected = s.expected := rfl
@[simp] theorem State.openStream_variant : (s.openStream var).variant = s.variant := rfl
@[simp] theorem State.openStream_produced : (s.openStream var).produced = s.produced := rfl
@[simp] theorem State.openStream_latch : (s.openStream var).latch = s.latch := rfl
@[simp] theorem State.openStream_ibuf : (s.openStream var).ibuf = s.ibuf := rfl
@[simp] theorem State.openStream_obuf : (s.openStream var).obuf = s.obuf := rfl
@[simp] theorem State.openStream_c : (s.openStream var).c = s.c := rfl
@[simp] theorem State.openStream_running : (s.openStream var).z.running = true := rfl
@[simp] theorem State.openStream_sel : (s.openStream var).z.sel = var := rfl
@[simp] theorem State.openStream_ip : (s.openStream var).z.ip = 0 := rfl
@[simp] theorem State.openStream_op : (s.openStream var).z.op = 0 := rfl
@[simp] theorem State.openStream_unit : (s.openStream var).unit = s.unit := rfl
@[simp] theorem State.openStream_epoch : (s.openStream var).epoch = s.epoch := rfl
@[simp] theorem State.openStream_draws : (s.openStream var).draws = s.draws := rfl
@[simp] theorem State.openStream_readByte (sp : Space) (a : Nat) :
    (s.openStream var).readByte sp a = s.readByte sp a := by cases sp <;> rfl

end ends

end Sys2Proof.Machine
end

