-- ==== Sys2Proof/Laws/Change.lean ====
section
/-!
SUPPORT. What an operation that writes one address space can do, said once: the state is the old one but for
that memory (and unit C's working registers), the canonical form stays, and no address outside a set is
written. Every loop of the two units is such a change.
-/
namespace Sys2Proof.Machine

/-- The state with other working registers of unit C. -/
def State.setWork (s : State) (fb ks : Block) (b j : Nat) : State :=
  { s with c := { s.c with feedback := fb, ks := ks, blockIdx := b, sampleIdx := j } }

section setWork
variable (s : State) (fb ks fb' ks' : Block) (b j b' j' : Nat) (sp : Space) (m : Memory)

@[simp] theorem State.setWork_mem : (s.setWork fb ks b j).mem sp = s.mem sp := by cases sp <;> rfl
@[simp] theorem State.setWork_params : (s.setWork fb ks b j).params = s.params := rfl
@[simp] theorem State.setWork_unit : (s.setWork fb ks b j).unit = s.unit := rfl
@[simp] theorem State.setWork_epoch : (s.setWork fb ks b j).epoch = s.epoch := rfl
@[simp] theorem State.setWork_status : (s.setWork fb ks b j).status = s.status := rfl
@[simp] theorem State.setWork_err : (s.setWork fb ks b j).err = s.err := rfl
@[simp] theorem State.setWork_errInfo : (s.setWork fb ks b j).errInfo = s.errInfo := rfl
@[simp] theorem State.setWork_len : (s.setWork fb ks b j).len = s.len := rfl
@[simp] theorem State.setWork_expected : (s.setWork fb ks b j).expected = s.expected := rfl
@[simp] theorem State.setWork_variant : (s.setWork fb ks b j).variant = s.variant := rfl
@[simp] theorem State.setWork_produced : (s.setWork fb ks b j).produced = s.produced := rfl
@[simp] theorem State.setWork_latch : (s.setWork fb ks b j).latch = s.latch := rfl
@[simp] theorem State.setWork_z : (s.setWork fb ks b j).z = s.z := rfl
@[simp] theorem State.setWork_draws : (s.setWork fb ks b j).draws = s.draws := rfl
@[simp] theorem State.setWork_feedback : (s.setWork fb ks b j).c.feedback = fb := rfl
@[simp] theorem State.setWork_ks : (s.setWork fb ks b j).c.ks = ks := rfl
@[simp] theorem State.setWork_readByte (a : Nat) : (s.setWork fb ks b j).readByte sp a = s.readByte sp a := by
  cases sp <;> rfl
@[simp] theorem State.setWork_setWork :
    (s.setWork fb ks b j).setWork fb' ks' b' j' = s.setWork fb' ks' b' j' := rfl
@[simp] theorem State.setWork_readBytes (a n : Nat) :
    (s.setWork fb ks b j).readBytes sp a n = s.readBytes sp a n :=
  State.readBytes_congr fun _ _ _ => s.setWork_readByte fb ks b j sp _
theorem State.setMem_setWork : (s.setMem sp m).setWork fb ks b j = (s.setWork fb ks b j).setMem sp m := by
  cases sp <;> rfl
theorem State.setWork_self : s.setWork s.c.feedback s.c.ks s.c.blockIdx s.c.sampleIdx = s := rfl

end setWork

/-- `u` is `s` but for the memory of `sp` at addresses in `R` and unit C's working registers. -/
structure Changes (sp : Space) (R : Nat → Prop) (s u : State) : Prop where
  eq : u = (s.setWork u.c.feedback u.c.ks u.c.blockIdx u.c.sampleIdx).setMem sp (u.mem sp)
  wf : Memory.wf (s.mem sp) → Memory.wf (u.mem sp)
  listed : ∀ x ∈ u.mem sp, R x.1 ∨ x ∈ s.mem sp
  same : ∀ a, ¬ R a → (u.mem sp).get? a = (s.mem sp).get? a

namespace Changes

variable {sp : Space} {R Q : Nat → Prop} {s t u : State}

theorem refl : Changes sp R s s where
  eq := by rw [State.setWork_self]; simp
  wf := id
  listed := fun _ h => .inr h
  same := fun _ _ => rfl

theorem trans (h : Changes sp R s t) (k : Changes sp R t u) : Changes sp R s u where
  eq := by
    rw [k.eq, h.eq]
    simp only [State.setMem_setWork, State.setWork_setWork, State.setMem_setMem, State.mem_setMem_same,
      State.setMem_feedback, State.setWork_feedback, State.setMem_ks, State.setWork_ks,
      State.setMem_blockIdx, State.setMem_sampleIdx]
    rfl
  wf := fun w => k.wf (h.wf w)
  listed := fun x hx => (k.listed x hx).elim .inl (h.listed x)
  same := fun a ha => (k.same a ha).trans (h.same a ha)

theorem mono (h : Changes sp R s u) (hRQ : ∀ a, R a → Q a) : Changes sp Q s u where
  eq := h.eq
  wf := h.wf
  listed := fun x hx => (h.listed x hx).imp_left (hRQ _)
  same := fun a ha => h.same a fun hr => ha (hRQ a hr)

theorem work (fb ks : Block) (b j : Nat) : Changes sp R s (s.setWork fb ks b j) where
  eq := by rw [State.setWork_mem]; cases sp <;> rfl
  wf := fun w => by rwa [State.setWork_mem]
  listed := fun x hx => .inr (by rwa [State.setWork_mem] at hx)
  same := fun a _ => by rw [State.setWork_mem]

theorem writeByte {a : Nat} (ha : R a) (v : Byte) : Changes sp R s (s.writeByte sp a v) where
  eq := by cases sp <;> rfl
  wf := fun w => by
    rw [State.writeByte, State.mem_setMem_same]; exact Memory.wf_put w a v
  listed := fun x hx => by
    rw [State.writeByte, State.mem_setMem_same] at hx
    exact (Memory.mem_put hx).imp_left fun h => by rw [h]; exact ha
  same := fun x hx => by
    rw [State.writeByte, State.mem_setMem_same]
    exact Memory.get?_put_ne _ _ fun h => hx (h ▸ ha)

theorem writeBytes {a : Nat} {vs : List Byte} (ha : ∀ x, a ≤ x → x < a + vs.length → R x) :
    Changes sp R s (s.writeBytes sp a vs) := by
  rw [State.writeBytes_eq]
  exact {
    eq := by cases sp <;> rfl
    wf := fun w => by rw [State.mem_setMem_same]; exact Memory.wf_putBytes w a vs
    listed := fun x hx => by
      rw [State.mem_setMem_same] at hx
      exact (Memory.mem_putBytes hx).imp_left fun h => ha _ h.1 h.2
    same := fun x hx => by
      rw [State.mem_setMem_same, Memory.get?_putBytes, if_neg fun h => hx (ha x h.1 h.2)] }

theorem loop {n : Nat} {body : Nat → State → State} (h : ∀ i v, i < n → Changes sp R v (body i v)) :
    Changes sp R s (forUpTo n body s) :=
  forUpTo_induct (fun _ v => Changes sp R s v) body s n refl fun i v hi hv => hv.trans (h i v hi)

/-! What a change leaves alone. -/

theorem params (h : Changes sp R s u) : u.params = s.params := by rw [h.eq]; simp
theorem status (h : Changes sp R s u) : u.status = s.status := by rw [h.eq]; simp
theorem err (h : Changes sp R s u) : u.err = s.err := by rw [h.eq]; simp
theorem errInfo (h : Changes sp R s u) : u.errInfo = s.errInfo := by rw [h.eq]; simp
theorem len (h : Changes sp R s u) : u.len = s.len := by rw [h.eq]; simp
theorem expected (h : Changes sp R s u) : u.expected = s.expected := by rw [h.eq]; simp
theorem variant (h : Changes sp R s u) : u.variant = s.variant := by rw [h.eq]; simp
theorem produced (h : Changes sp R s u) : u.produced = s.produced := by rw [h.eq]; simp
theorem latch (h : Changes sp R s u) : u.latch = s.latch := by rw [h.eq]; simp
theorem z (h : Changes sp R s u) : u.z = s.z := by rw [h.eq]; simp
theorem unit (h : Changes sp R s u) : u.unit = s.unit := by rw [h.eq]; simp
theorem epoch (h : Changes sp R s u) : u.epoch = s.epoch := by rw [h.eq]; simp
theorem draws (h : Changes sp R s u) : u.draws = s.draws := by rw [h.eq]; simp

theorem mem_ne (h : Changes sp R s u) {sp' : Space} (hne : sp' ≠ sp) : u.mem sp' = s.mem sp' := by
  rw [h.eq, State.mem_setMem_ne _ _ _ _ hne, State.setWork_mem]

theorem readByte_ne (h : Changes sp R s u) {sp' : Space} (hne : sp' ≠ sp) (a : Nat) :
    u.readByte sp' a = s.readByte sp' a := State.readByte_congr a (h.mem_ne hne) h.unit h.epoch

theorem readByte_same (h : Changes sp R s u) {a : Nat} (ha : ¬ R a) : u.readByte sp a = s.readByte sp a := by
  simp only [State.readByte, h.same a ha, h.unit, h.epoch]

end Changes

end Sys2Proof.Machine
end

