-- ==== Sys2Proof/Laws/Cipher.lean ====
section
/-!
SUPPORT. What unit C's loops do to a state: the bytes of the block loop, of `decrypt_small` and of the gather
and scatter loops, in terms of the keystream.
-/
namespace Sys2Proof.Machine

/-- The XOR loop of one block (R121): `m` bytes from `base`, byte `i` XORed with `f i`. -/
theorem xorLoop_readByte (sp : Space) (base m : Nat) (f : Nat → Byte) (s : State) (x : Nat) :
    (forUpTo m (fun i u => u.writeByte sp (base + i) (u.readByte sp (base + i) ^^^ f i)) s).readByte sp x =
      if base ≤ x ∧ x < base + m then s.readByte sp x ^^^ f (x - base) else s.readByte sp x := by
  induction m with
  | zero => rw [if_neg (by omega)]; rfl
  | succ m ih =>
    rw [forUpTo_succ, State.readByte_writeByte]
    by_cases hx : x = base + m
    · subst hx
      rw [if_pos ⟨rfl, rfl⟩, if_pos (by omega), Nat.add_sub_cancel_left]
      congr 1
      exact (Changes.loop (R := fun a => a < base + m) fun i v hi =>
        Changes.writeByte (by omega) _).readByte_same (by omega)
    · rw [if_neg fun h => hx h.2, ih]
      by_cases h : base ≤ x ∧ x < base + m
      · rw [if_pos h, if_pos (by omega)]
      · rw [if_neg h, if_neg (by omega)]

/-- The XOR loop of block `b` (R121), after `KS` and the block index have been written. -/
def xorBlockLoop (sp : Space) (n b : Nat) (ks : Block) (s : State) : State :=
  forUpTo (min 16 (n - 16 * b))
    (fun i u => u.writeByte sp (16 * b + i) (u.readByte sp (16 * b + i) ^^^ blockByte ks i))
    (s.setWork s.c.feedback ks b s.c.sampleIdx)

theorem cipherBlock_eq (sp : Space) (n b : Nat) (s : State) :
    cipherBlock sp n b s =
      let ks := encryptBlock s.params.profile s.c.feedback
      let u := xorBlockLoop sp n b ks s
      u.setWork (nlfb u.params.profile ks) u.c.ks u.c.blockIdx u.c.sampleIdx := rfl

theorem xorBlockLoop_changes (sp : Space) (n b : Nat) (ks : Block) (s : State) :
    Changes sp (fun a => 16 * b ≤ a ∧ a < 16 * b + min 16 (n - 16 * b)) s (xorBlockLoop sp n b ks s) :=
  (Changes.work s.c.feedback ks b s.c.sampleIdx).trans
    (Changes.loop fun _ _ hi => Changes.writeByte ⟨Nat.le_add_right _ _, Nat.add_lt_add_left hi _⟩ _)

/-- One block of `decrypt_small` is a change of the bytes of that block. -/
theorem cipherBlock_changes (sp : Space) (n b : Nat) (s : State) :
    Changes sp (fun a => 16 * b ≤ a ∧ a < 16 * b + min 16 (n - 16 * b)) s (cipherBlock sp n b s) := by
  rw [cipherBlock_eq]
  exact (xorBlockLoop_changes sp n b _ s).trans (Changes.work _ _ _ _)

/-- The bytes of one block (R121). -/
theorem cipherBlock_readByte (sp : Space) (n b : Nat) (s : State) (x : Nat) :
    (cipherBlock sp n b s).readByte sp x =
      if 16 * b ≤ x ∧ x < 16 * b + min 16 (n - 16 * b) then
        s.readByte sp x ^^^ blockByte (encryptBlock s.params.profile s.c.feedback) (x - 16 * b)
      else s.readByte sp x := by
  rw [cipherBlock_eq]
  simp only [State.setWork_readByte, xorBlockLoop, xorLoop_readByte]

/-- The feedback after one block (R121). -/
theorem cipherBlock_feedback (sp : Space) (n b : Nat) (s : State) :
    (cipherBlock sp n b s).c.feedback =
      nlfb s.params.profile (encryptBlock s.params.profile s.c.feedback) := by
  rw [cipherBlock_eq]
  simp only [State.setWork_feedback, (xorBlockLoop_changes sp n b _ s).params]

/-- The feedback with which block `b` starts: `IV`, then the feedback of the keystream block before. -/
def feedbackAt (p : Profile) : Nat → Block
  | 0 => p.iv
  | b + 1 => nlfb p (keystreamBlock p b)

theorem encryptBlock_feedbackAt (p : Profile) (b : Nat) :
    encryptBlock p (feedbackAt p b) = keystreamBlock p b := by cases b <;> rfl

/-- The first `k` blocks of `decrypt_small`: the change, the feedback and the bytes (R121). -/
theorem cipherBlocks (sp : Space) (n k : Nat) (s : State) (hf : s.c.feedback = s.params.profile.iv) :
    Changes sp (fun a => a < min n (16 * k)) s (forUpTo k (cipherBlock sp n) s) ∧
      (forUpTo k (cipherBlock sp n) s).c.feedback = feedbackAt s.params.profile k ∧
      ∀ x, (forUpTo k (cipherBlock sp n) s).readByte sp x =
        if x < min n (16 * k) then s.readByte sp x ^^^ keystreamByte s.params.profile x
        else s.readByte sp x := by
  induction k with
  | zero =>
    refine ⟨Changes.refl, hf, fun x => ?_⟩
    rw [if_neg (by omega)]; rfl
  | succ k ih =>
    obtain ⟨hc, hfb, hr⟩ := ih
    rw [forUpTo_succ]
    generalize forUpTo k (cipherBlock sp n) s = u at *
    have hp : u.params = s.params := hc.params
    refine ⟨(hc.mono fun a ha => by omega).trans ((cipherBlock_changes sp n k u).mono fun a ha => by omega),
      ?_, fun x => ?_⟩
    · rw [cipherBlock_feedback, hp, hfb, encryptBlock_feedbackAt]; rfl
    · rw [cipherBlock_readByte, hp, hfb, encryptBlock_feedbackAt, hr]
      by_cases h1 : 16 * k ≤ x ∧ x < 16 * k + min 16 (n - 16 * k)
      · rw [if_pos h1, if_neg (by omega), if_pos (by omega)]
        congr 1
        unfold keystreamByte
        rw [show x / 16 = k by omega, show x % 16 = x - 16 * k by omega]
      · rw [if_neg h1]
        by_cases h2 : x < min n (16 * k)
        · rw [if_pos h2, if_pos (by omega)]
        · rw [if_neg h2, if_neg (by omega)]

/-- `decrypt_small` changes the first `n` bytes of its space and nothing else but unit C's registers. -/
theorem decryptSmall_changes (sp : Space) (n : Nat) (s : State) :
    Changes sp (fun a => a < n) s (decryptSmall sp n s) := by
  refine Changes.trans (Changes.work s.params.profile.iv s.c.ks s.c.blockIdx s.c.sampleIdx) ?_
  exact (cipherBlocks sp n ((n + 15) / 16) _ rfl).1.mono fun a ha => by omega

/-! ### Large-buffer mode -/

theorem gatherSample_eq (step j : Nat) (s : State) :
    gatherSample step j s =
      (s.setWork s.c.feedback s.c.ks s.c.blockIdx j).writeBytes .scratch (j * step) (s.readBytes .ibuf (16 * j) step) := by
  rw [← State.setWork_readBytes s s.c.feedback s.c.ks s.c.blockIdx j]; rfl

theorem scatterSample_eq (step j : Nat) (s : State) :
    scatterSample step j s =
      (s.setWork s.c.feedback s.c.ks s.c.blockIdx j).writeBytes .ibuf (16 * j) (s.readBytes .scratch (j * step) step) := by
  rw [← State.setWork_readBytes s s.c.feedback s.c.ks s.c.blockIdx j]; rfl

/-- The first `k` gather steps (R123): the scratch holds the samples one after another. -/
theorem gather_loop (step k : Nat) (s : State) (hs : 1 ≤ step) :
   Changes .scratch (fun a => a < k*step) s (forUpTo k (gatherSample step) s) ∧
   ∀ x, x < k * step → (forUpTo k (gatherSample step) s).readByte .scratch x = s.readByte .ibuf (16*(x/step) + x % step) := by
  induction k with
  | zero => exact ⟨Changes.refl, fun x hx => by omega⟩
  | succ k ih =>
    obtain ⟨hc, hr⟩ := ih
    rw [forUpTo_succ]
    generalize forUpTo k (gatherSample step) s = u at *
    have hg : Changes .scratch (fun a => k*step ≤ a ∧ a < k*step+step) u (gatherSample step k u) := by
      refine (Changes.work u.c.feedback u.c.ks u.c.blockIdx k).trans ?_
      exact Changes.writeBytes (fun x h1 h2 => ⟨h1, by simpa using h2⟩)
    have hm : (k+1)*step = k*step+step := by rw [Nat.add_mul, Nat.one_mul]
    rw [hm]
    refine ⟨(hc.mono fun a ha => by omega).trans (hg.mono fun a ha => by omega), fun x hx => ?_⟩
    by_cases h : x < k*step
    · rw [hg.readByte_same (by omega), hr x h]
    · have : (gatherSample step k u).readByte .scratch x = 
          if Space.scratch = .scratch ∧ k*step ≤ x ∧ x < k*step + (u.readBytes .ibuf (16*k) step).length then
            (u.readBytes .ibuf (16*k) step).getD (x - k*step) 0#8
          else u.readByte .scratch x := by
        rw [gatherSample_eq, State.readByte_writeBytes, State.setWork_readByte]
      rw [this, if_pos ⟨rfl, by omega, by simpa using by omega⟩]
      have hl : x - k*step < step := by omega
      rw [List.getD_eq_getElem?_getD, List.getElem?_eq_getElem (by simpa using hl), Option.getD_some, State.getElem_readBytes]
      have e1 : x / step = k := by
        rw [Nat.div_eq_iff (by omega)]; omega
      have e2 : x % step = x - k * step := by
        have := Nat.div_add_mod x step; rw [e1, Nat.mul_comm] at this; omega
      rw [e1, e2]
      rw [← hc.readByte_ne (sp' := .ibuf) (by decide)]

/-- The first `k` scatter steps (R123): each sample is back in its place. -/
theorem scatter_loop (step k : Nat) (s : State) (hs : 1 ≤ step) (h16 : step ≤ 16) :
   Changes .ibuf (fun a => a/16 < k ∧ a % 16 < step) s (forUpTo k (scatterSample step) s) ∧
   ∀ x, x/16 < k → x%16 < step → (forUpTo k (scatterSample step) s).readByte .ibuf x = s.readByte .scratch ((x/16)*step + x % 16) := by
  induction k with
  | zero => exact ⟨Changes.refl, fun x hx => by omega⟩
  | succ k ih =>
    obtain ⟨hc, hr⟩ := ih
    rw [forUpTo_succ]
    generalize forUpTo k (scatterSample step) s = u at *
    have hg : Changes .ibuf (fun a => 16*k ≤ a ∧ a < 16*k+step) u (scatterSample step k u) := by
      refine (Changes.work u.c.feedback u.c.ks u.c.blockIdx k).trans ?_
      exact Changes.writeBytes (fun x h1 h2 => ⟨h1, by simpa using h2⟩)
    refine ⟨(hc.mono fun a ha => by omega).trans (hg.mono fun a ha => by omega), fun x hx hx2 => ?_⟩
    by_cases h : x/16 < k
    · rw [hg.readByte_same (by omega), hr x h hx2]
    · have e1 : x / 16 = k := by omega
      have : (scatterSample step k u).readByte .ibuf x = 
          if Space.ibuf = .ibuf ∧ 16*k ≤ x ∧ x < 16*k + (u.readBytes .scratch (k*step) step).length then
            (u.readBytes .scratch (k*step) step).getD (x - 16*k) 0#8
          else u.readByte .ibuf x := by
        rw [scatterSample_eq, State.readByte_writeBytes, State.setWork_readByte]
      have hl : x - 16*k < step := by omega
      rw [this, if_pos ⟨rfl, by omega, by simpa using by omega⟩]
      rw [List.getD_eq_getElem?_getD, List.getElem?_eq_getElem (by simpa using hl), Option.getD_some, State.getElem_readBytes]
      have e2 : x % 16 = x - 16*k := by omega
      rw [e1, e2]
      rw [← hc.readByte_ne (sp' := .scratch) (by decide)]

/-! ### The key schedule -/

@[simp] theorem getElem_xorBlock (a b : Block) (i : Nat) (h : i < 16) : (xorBlock a b)[i] = a[i] ^^^ b[i] := by
  simp [xorBlock]

@[simp] theorem getElem_xorQuad (a b : Quad) (i : Nat) (h : i < 4) : (xorQuad a b)[i] = a[i] ^^^ b[i] := by
  simp [xorQuad]

/-- Byte `i` of round key `r` (R101). -/
theorem roundKeyOf_getElem (ws : List Quad) (r i : Nat) (h : i < 16) :
    (roundKeyOf ws r)[i] = (quadAt ws (4 * r + i / 4))[i % 4] := by
  simp only [roundKeyOf, Vector.getElem_ofFn]

theorem quadAt_append (ws : List Quad) (x : Quad) {i : Nat} (hi : i < ws.length) :
    quadAt (ws ++ [x]) i = quadAt ws i := by
  simp [quadAt, List.getD_eq_getElem?_getD, hi, List.getElem?_append_left]

theorem quadAt_length (ws : List Quad) (x : Quad) : quadAt (ws ++ [x]) ws.length = x := by
  simp [quadAt]

@[simp] theorem length_scheduleStep (t : Table) (ws : List Quad) : (scheduleStep t ws).length = ws.length + 1 := by
  simp [scheduleStep]

end Sys2Proof.Machine
end

