-- ==== Sys2Proof/Laws/Decode.lean ====
section
/-!
SUPPORT. Laws of the encodings: the token rewiring and its inverse, the length extension, the offset, and the
decoder's steps on the bytes an encoder writes.
-/
namespace Sys2Proof

open Machine

/-! ### The token rewiring -/

namespace Machine

theorem byteOfBits_table (b0 b1 b2 b3 b4 b5 b6 b7 : Bool) :
    ∀ j : Fin 8, (byteOfBits #v[b0, b1, b2, b3, b4, b5, b6, b7].get).getLsbD j.val =
      #v[b0, b1, b2, b3, b4, b5, b6, b7].get j := by
  revert b0 b1 b2 b3 b4 b5 b6 b7
  decide

/-- Bit `j` of the byte made of the bits `b`. -/
theorem getLsbD_byteOfBits (b : Fin 8 → Bool) (j : Fin 8) : (byteOfBits b).getLsbD j.val = b j := by
  have h : b = #v[b 0, b 1, b 2, b 3, b 4, b 5, b 6, b 7].get := by
    funext k; fin_cases k <;> rfl
  rw [h]
  exact byteOfBits_table _ _ _ _ _ _ _ _ j

/-- Two bytes with the same eight bits are the same byte. -/
theorem byte_ext {x y : Byte} (h : ∀ j : Fin 8, x.getLsbD j.val = y.getLsbD j.val) : x = y := by
  apply BitVec.eq_of_getLsbD_eq
  intro i hi
  exact h ⟨i, hi⟩

/-- Bit `j` of the rewired byte is bit `PERM[j]` of the byte (R93). -/
theorem getLsbD_permuteBits (perm : Perm) (t : Byte) (j : Fin 8) :
    (permuteBits perm t).getLsbD j.val = t.getLsbD perm[j].val := getLsbD_byteOfBits _ j

/-- A permutation holds no value twice. -/
theorem perm_injective {v : Variant} (h : v.wf = true) {i j : Fin 8} (hij : v.perm[i] = v.perm[j]) : i = j := by
  have hn : v.perm.toList.Nodup := by simpa [Variant.wf] using h
  have hi : i.val < v.perm.toList.length := by simp
  have hj : j.val < v.perm.toList.length := by simp
  have := (List.Nodup.getElem_inj_iff hn (hi := hi) (hj := hj)).1 (by simpa using hij)
  exact Fin.ext this

/-- A permutation holds every value. -/
theorem perm_surjective {v : Variant} (h : v.wf = true) (k : Fin 8) : ∃ j : Fin 8, v.perm[j] = k :=
  (Finite.surjective_of_injective (f := fun j : Fin 8 => v.perm[j]) fun _ _ hij => perm_injective h hij) k

/-- Bit `PERM[j]` of the stored byte is bit `j` of the rewired byte (R82). -/
theorem getLsbD_unpermuteBits {v : Variant} (h : v.wf = true) (p : Byte) (j : Fin 8) :
    (unpermuteBits v.perm p).getLsbD v.perm[j].val = p.getLsbD j.val := by
  rw [unpermuteBits, getLsbD_byteOfBits, Bool.eq_iff_iff]
  simp only [List.any_eq_true, List.mem_finRange, true_and, Bool.and_eq_true, decide_eq_true_eq]
  constructor
  · rintro ⟨i, hi, hp⟩
    rwa [← perm_injective h hi]
  · exact fun hp => ⟨j, rfl, hp⟩

/-- The two rewirings undo each other (R93). -/
theorem permuteBits_unpermuteBits {v : Variant} (h : v.wf = true) (p : Byte) :
    permuteBits v.perm (unpermuteBits v.perm p) = p :=
  byte_ext fun j => by rw [getLsbD_permuteBits, getLsbD_unpermuteBits h]

theorem unpermuteBits_permuteBits {v : Variant} (h : v.wf = true) (t : Byte) :
    unpermuteBits v.perm (permuteBits v.perm t) = t :=
  byte_ext fun k => by
    obtain ⟨j, rfl⟩ := perm_surjective h k
    rw [getLsbD_unpermuteBits h, getLsbD_permuteBits]

end Machine

/-- The fields of a stored token are the nibbles it was made of (R74, R82). -/
theorem tokenSplit_encodeToken {v : Variant} (h : v.wf = true) {l m : Nat} (hm : m < 16) :
    tokenSplit v (encodeToken v l m) = (BitVec.ofNat 4 l, BitVec.ofNat 4 m) := by
  simp only [tokenSplit, encodeToken, permuteBits_unpermuteBits h]
  rw [Prod.mk.injEq]
  constructor <;> apply BitVec.eq_of_toNat_eq
  · simp only [BitVec.extractLsb'_toNat, BitVec.toNat_ofNat, Nat.shiftRight_eq_div_pow]; omega
  · simp only [BitVec.extractLsb'_toNat, BitVec.toNat_ofNat, Nat.shiftRight_eq_div_pow]; omega

/-! ### The length extension -/

/-- A run of `k` bytes of 255 and a last byte below 255 (R76). -/
theorem readExt_run (k : Nat) {r : Byte} (hr : r ≠ 255#8) (rest : List Byte) :
    readExt (List.replicate k 255#8 ++ r :: rest) = some (255 * k + r.toNat, k + 1, rest) := by
  induction k with
  | zero => simp [readExt, hr]
  | succ k ih =>
    rw [List.replicate_succ, List.cons_append, readExt, if_pos rfl, ih]
    simp only [Option.some.injEq, Prod.mk.injEq, and_true]
    omega

/-- A run of 255s alone is unfinished (R76, R141). -/
theorem readExt_unfinished (k : Nat) : readExt (List.replicate k 255#8) = none := by
  induction k with
  | zero => rfl
  | succ k ih => rw [List.replicate_succ, readExt, if_pos rfl, ih]

/-- How many bytes an extension takes, and what is left. -/
theorem readExt_split {src : List Byte} {n k : Nat} {rest : List Byte} (h : readExt src = some (n, k, rest)) :
    ∃ r : Byte, r ≠ 255#8 ∧ 1 ≤ k ∧ n = 255 * (k - 1) + r.toNat ∧
      src = List.replicate (k - 1) 255#8 ++ r :: rest := by
  induction src generalizing n k with
  | nil => simp [readExt] at h
  | cons b src ih =>
    simp only [readExt] at h
    split at h
    · next hb =>
      split at h
      · simp at h
      · next n' k' rest' h' =>
        simp only [Option.some.injEq, Prod.mk.injEq] at h
        obtain ⟨rfl, rfl, rfl⟩ := h
        obtain ⟨r, hr, hk, hn, hs⟩ := ih h'
        refine ⟨r, hr, by omega, ?_, ?_⟩
        · simp only [Nat.add_sub_cancel]; omega
        · obtain ⟨j, rfl⟩ : ∃ j, k' = j + 1 := ⟨k' - 1, by omega⟩
          rw [hb, hs]; simp [List.replicate_succ]
    · next hb =>
      simp only [Option.some.injEq, Prod.mk.injEq] at h
      obtain ⟨rfl, rfl, rfl⟩ := h
      exact ⟨b, hb, by omega, by simp, by simp⟩

theorem length_encodeExt (n : Nat) : (encodeExt n).length = extCount n := by
  unfold encodeExt extCount
  split <;> simp

/-- The extension of a length reads back as that length, in its number of bytes (R76). -/
theorem readLenExt_encodeExt (n : Nat) (rest : List Byte) :
    readLenExt (min n 15) (encodeExt n ++ rest) = some (n, extCount n, rest) := by
  unfold readLenExt encodeExt extCount
  by_cases h : n < 15
  · rw [if_neg (by omega), if_pos h, if_pos h, Nat.min_eq_left (by omega)]; rfl
  · rw [if_pos (by omega), if_neg h, if_neg h]
    have hr : BitVec.ofNat 8 ((n - 15) % 255) ≠ 255#8 := by
      intro hc
      have := congrArg BitVec.toNat hc
      simp only [BitVec.toNat_ofNat] at this
      omega
    rw [List.append_assoc, List.singleton_append, readExt_run _ hr]
    simp only [Option.some.injEq, Prod.mk.injEq, and_true, BitVec.toNat_ofNat]
    omega

/-- What a completed length says of the bytes it was read from (R76, R141). -/
theorem readLenExt_split {base : Nat} {src : List Byte} {n k : Nat} {rest : List Byte} (hb : base < 16)
    (h : readLenExt base src = some (n, k, rest)) :
    base = min n 15 ∧ k = extCount n ∧ src = encodeExt n ++ rest := by
  unfold readLenExt at h
  split at h
  · next hb15 =>
    split at h
    · simp at h
    · next n' k' rest' h' =>
      simp only [Option.some.injEq, Prod.mk.injEq] at h
      obtain ⟨rfl, rfl, rfl⟩ := h
      obtain ⟨r, hr, hk, hn, hs⟩ := readExt_split h'
      have hr255 : r.toNat < 255 := by
        have h1 := r.isLt
        have h2 : r.toNat ≠ 255 := fun hc => hr (BitVec.eq_of_toNat_eq hc)
        omega
      have hq : (15 + n' - 15) / 255 = k' - 1 := by omega
      have hm : (15 + n' - 15) % 255 = r.toNat := by omega
      refine ⟨by omega, ?_, ?_⟩
      · unfold extCount; rw [if_neg (by omega), hq]; omega
      · unfold encodeExt; rw [if_neg (by omega), hq, hm, hs]; simp
  · simp only [Option.some.injEq, Prod.mk.injEq] at h
    obtain ⟨rfl, rfl, rfl⟩ := h
    refine ⟨by omega, ?_, ?_⟩
    · unfold extCount; rw [if_pos (by omega)]
    · unfold encodeExt; rw [if_pos (by omega)]; rfl

/-! ### The offset -/

/-- The value of the two offset bytes in each order (R77, R143). -/
theorem offsetOf_le (b0 b1 : Byte) : (offsetOf .le b0 b1).toNat = b0.toNat + 256 * b1.toNat := by
  have := b0.isLt
  simp only [offsetOf, BitVec.toNat_append, Nat.shiftLeft_eq]
  rw [Nat.mul_comm, ← Nat.two_pow_add_eq_or_of_lt (by omega)]
  omega

theorem offsetOf_be (b0 b1 : Byte) : (offsetOf .be b0 b1).toNat = 256 * b0.toNat + b1.toNat := by
  have := b1.isLt
  simp only [offsetOf, BitVec.toNat_append, Nat.shiftLeft_eq]
  rw [Nat.mul_comm, ← Nat.two_pow_add_eq_or_of_lt (by omega)]

/-- The two bytes of an offset (R77). -/
theorem encodeOffset_eq (o : ByteOrder) (off : BitVec 16) :
    ∃ b0 b1 : Byte, encodeOffset o off = [b0, b1] ∧ offsetOf o b0 b1 = off := by
  cases o
  · refine ⟨off.extractLsb' 0 8, off.extractLsb' 8 8, rfl, ?_⟩
    apply BitVec.eq_of_toNat_eq
    rw [offsetOf_le]
    simp only [BitVec.extractLsb'_toNat, Nat.shiftRight_eq_div_pow]
    have := off.isLt
    omega
  · refine ⟨off.extractLsb' 8 8, off.extractLsb' 0 8, rfl, ?_⟩
    apply BitVec.eq_of_toNat_eq
    rw [offsetOf_be]
    simp only [BitVec.extractLsb'_toNat, Nat.shiftRight_eq_div_pow]
    have := off.isLt
    omega

/-! ### Sequences -/

@[simp] theorem length_encodeSequence_last (v : Variant) (lits : List Byte) (m : BitVec 4) :
    (encodeSequence v (.last lits m)).length = (Sequence.last lits m).size := by
  simp only [encodeSequence, Sequence.size, List.length_cons, List.length_append, length_encodeExt]; omega

@[simp] theorem length_encodeSequence_seq (v : Variant) (lits : List Byte) (off : BitVec 16) (mlen : Nat) :
    (encodeSequence v (.seq lits off mlen)).length = (Sequence.seq lits off mlen).size := by
  obtain ⟨b0, b1, h, -⟩ := encodeOffset_eq v.order off
  simp only [encodeSequence, Sequence.size, List.length_cons, List.length_append, length_encodeExt, h,
    List.length_nil]
  omega

/-- The two nibbles of a token are below 16. -/
theorem tokenSplit_lt (v : Variant) (t : Byte) : (tokenSplit v t).1.toNat < 16 ∧ (tokenSplit v t).2.toNat < 16 :=
  ⟨(tokenSplit v t).1.isLt, (tokenSplit v t).2.isLt⟩

/-- What the decoder's acceptance says of the stream: the sequence's parts in their order (R73), all the
stream for the last one. -/
theorem decodeSequence_ok {v : Variant} {src : List Byte} {q : Sequence} (h : decodeSequence v src = .ok q) :
    ∃ t rest, (tokenSplit v t).1.toNat = min q.lits.length 15 ∧
      match q with
      | .seq lits off mlen =>
        4 ≤ mlen ∧ (tokenSplit v t).2.toNat = min (mlen - 4) 15 ∧
          ∃ b0 b1, offsetOf v.order b0 b1 = off ∧
            src = t :: (encodeExt lits.length ++ lits ++ [b0, b1] ++ encodeExt (mlen - 4)) ++ rest
      | .last lits m => (tokenSplit v t).2 = m ∧ rest = [] ∧ src = t :: (encodeExt lits.length ++ lits) := by
  unfold decodeSequence at h
  split at h
  · simp at h
  · next t r0 =>
    split at h
    · simp at h
    · next lit eL r1 h1 =>
      obtain ⟨hL, -, hr0⟩ := readLenExt_split (tokenSplit_lt v t).1 h1
      split at h
      · simp at h
      · next hlen =>
        have htake : (r1.take lit).length = lit := by rw [List.length_take]; omega
        split at h
        · next h2 =>
          simp only [DecodedSeq.ok.injEq] at h
          subst h
          refine ⟨t, [], by simpa only [Sequence.lits, htake] using hL, rfl, rfl, ?_⟩
          rw [htake, hr0]
          conv_lhs => rw [← List.take_append_drop lit r1, h2]
          simp
        · simp at h
        · next b0 b1 r2 h2 =>
          split at h
          · simp at h
          · next m eM r3 h3 =>
            obtain ⟨hM, -, hr2⟩ := readLenExt_split (tokenSplit_lt v t).2 h3
            simp only [DecodedSeq.ok.injEq] at h
            subst h
            refine ⟨t, r3, by simpa only [Sequence.lits, htake] using hL, by omega,
              by simpa using hM, b0, b1, rfl, ?_⟩
            rw [htake, hr0, Nat.add_sub_cancel]
            conv_lhs => rw [← List.take_append_drop lit r1, h2, hr2]
            simp

/-- An accepted sequence takes its size from the stream: all of it for the last one. -/
theorem decodeSequence_size {v : Variant} {src : List Byte} {q : Sequence} (h : decodeSequence v src = .ok q) :
    match q with
    | .seq lits off mlen => (Sequence.seq lits off mlen).size ≤ src.length
    | .last lits m => (Sequence.last lits m).size = src.length := by
  obtain ⟨t, rest, -, hq⟩ := decodeSequence_ok h
  cases q with
  | seq lits off mlen =>
    obtain ⟨-, -, b0, b1, -, rfl⟩ := hq
    simp only [Sequence.size, List.length_cons, List.length_append, length_encodeExt, List.length_nil]
    omega
  | last lits m =>
    obtain ⟨-, -, rfl⟩ := hq
    simp only [Sequence.size, List.length_cons, List.length_append, length_encodeExt]
    omega

/-- A decoder's rejection of a stream is a truncation. -/
theorem decodeSequence_reject {v : Variant} {src : List Byte} {r : Reject} (h : decodeSequence v src = .reject r) :
    ∃ pos run, r = .truncated pos run := by
  unfold decodeSequence at h
  repeat' (split at h)
  all_goals first
    | simp at h
      done
    | simp only [DecodedSeq.reject.injEq] at h
      exact ⟨_, _, h.symm⟩

end Sys2Proof
end

