-- ==== Sys2Proof/Laws/PerInstr.lean ====
section
/-!
SUPPORT. What is said of every instruction as syntax, one lemma per constructor.
-/
namespace Sys2Proof.Laws.EncodingFits

/-- A command is one command word (R70); a sequence is a stream of at least one byte, and if it is well-formed a
stream of that length can stand in IBUF under some `LEN` (R24, R73, R75). -/
def Statement (i : Instr) : Prop :=
  ∀ v : Variant,
    match encode v i with
    | .command w => i.wellFormed = true ∧ decodeCommand w = .ok i
    | .stream src => 1 ≤ src.length ∧ (i.wellFormed = true → (BitVec.ofNat 32 src.length).toNat = src.length)

theorem decrypt : Statement .decrypt := fun _ => ⟨rfl, rfl⟩

theorem decompress : Statement .decompress := fun _ => ⟨rfl, rfl⟩

theorem ofNat_size {n : Nat} (h : n ≤ maxStream) : (BitVec.ofNat 32 n).toNat = n := by
  rw [BitVec.toNat_ofNat]
  exact Nat.mod_eq_of_lt (Nat.lt_of_le_of_lt h (by decide))

theorem lz4Seq (lits : List Byte) (off : BitVec 16) (mlen : Nat) : Statement (.lz4Seq lits off mlen) := by
  intro v
  simp only [encode, length_encodeSequence_seq]
  refine ⟨by simp only [Sequence.size]; omega, fun h => ofNat_size ?_⟩
  simp only [Instr.wellFormed, Sequence.wellFormed, Bool.and_eq_true, decide_eq_true_eq] at h
  exact h.2

theorem lz4End (lits : List Byte) (m : BitVec 4) : Statement (.lz4End lits m) := by
  intro v
  simp only [encode, length_encodeSequence_last]
  refine ⟨by simp only [Sequence.size]; omega, fun h => ofNat_size ?_⟩
  simpa only [Instr.wellFormed, Sequence.wellFormed, decide_eq_true_eq] using h

end Sys2Proof.Laws.EncodingFits
end

