-- ==== Sys2Proof/Laws/Stream.lean ====
section
/-!
SUPPORT. What unit Z's operations do to a state: the literal run, the match copy, the two ends of a stream, and
one inversion lemma for a sequence: it extends the output and either goes on or ends the command.
-/
namespace Sys2Proof.Machine

/-! ### Capacities -/

/-- Fewer bytes fit where more do. -/
theorem Params.obufHolds_mono {p : Params} {m n : Nat} (h : m ≤ n) (hn : p.obufHolds n = true) :
    p.obufHolds m = true := by
  unfold Params.obufHolds at *
  split at *
  · rfl
  · simp only [decide_eq_true_eq] at *; omega

theorem Params.obufHolds_zero (p : Params) : p.obufHolds 0 = true := by
  unfold Params.obufHolds; split <;> simp

/-! ### Literal run -/

/-- The literal run writes the literal bytes at `op` and moves `ip` and `op` past them (R142). -/
theorem State.literalRun_eq (s : State) (lits : List Byte) :
    s.literalRun lits = { s with
      obuf := s.obuf.putBytes s.z.op lits
      z := { s.z with ip := s.literalStart lits + lits.length, op := s.z.op + lits.length, lit := lits.length } } := by
  unfold State.literalRun
  rw [State.writeBytes_eq]
  rfl

/-! ### Match copy -/

/-- The match copy writes `OBUF[op..op+mlen)` and nothing else. -/
theorem State.copyMatch_changes (s : State) (off mlen : Nat) :
    Changes .obuf (fun a => s.z.op ≤ a ∧ a < s.z.op + mlen) s (s.copyMatch off mlen) :=
  Changes.loop fun _ _ hi => Changes.writeByte ⟨Nat.le_add_right _ _, Nat.add_lt_add_left hi _⟩ _

/-- The match copy leaves unit C alone. -/
theorem State.copyMatch_c (s : State) (off mlen : Nat) : (s.copyMatch off mlen).c = s.c := by
  unfold State.copyMatch
  refine forUpTo_induct (fun _ u => u.c = s.c) _ s mlen rfl ?_
  intro i u _ h
  rw [← h]
  rfl

theorem State.copyMatch_ibuf (s : State) (off mlen : Nat) : (s.copyMatch off mlen).ibuf = s.ibuf :=
  (s.copyMatch_changes off mlen).mem_ne (sp' := .ibuf) (by decide)

/-- The match copy changes OBUF alone. -/
theorem State.copyMatch_eq (s : State) (off mlen : Nat) :
    s.copyMatch off mlen = { s with obuf := (s.copyMatch off mlen).obuf } := by
  have h := (s.copyMatch_changes off mlen).eq
  rw [s.copyMatch_c off mlen, State.setWork_self] at h
  exact h

/-! ### One sequence -/

/-- What unit Z can do to a state inside a command: it extends the output, and either goes on or ends the
command. -/
structure Extends (s u : State) : Prop where
  params : u.params = s.params
  len : u.len = s.len
  expected : u.expected = s.expected
  variant : u.variant = s.variant
  latch : u.latch = s.latch
  ibuf : u.ibuf = s.ibuf
  c : u.c = s.c
  unit : u.unit = s.unit
  epoch : u.epoch = s.epoch
  draws : u.draws = s.draws
  sel : u.z.sel = s.z.sel
  op_le : s.z.op ≤ u.z.op
  wf : Memory.wf s.obuf → Memory.wf u.obuf
  listed : ∀ x ∈ u.obuf, (s.z.op ≤ x.1 ∧ x.1 < u.z.op) ∨ x ∈ s.obuf
  same : ∀ a, (a < s.z.op ∨ u.z.op ≤ a) → u.obuf.get? a = s.obuf.get? a
  holds : s.params.obufHolds s.z.op = true → s.params.obufHolds u.z.op = true

/-- The command goes on: the registers the host reads are as they were. -/
structure GoesOn (s u : State) : Prop where
  running : u.z.running = s.z.running
  status : u.status = s.status
  err : u.err = s.err
  errInfo : u.errInfo = s.errInfo
  produced : u.produced = s.produced

/-- The command has ended (R148): `PRODUCED` is the length of the output, and either the unit is DONE, or
it reports one of the errors of a stream. -/
structure Ended (u : State) : Prop where
  running : u.z.running = false
  produced : u.produced = BitVec.ofNat 32 u.z.op
  outcome : (u.status = .done ∧ u.err = .none ∧ u.errInfo = 0) ∨
    (u.status = .error ∧ (u.err = .truncated ∨ u.err = .sizeMismatch ∨ u.err = .badOffset ∨ u.err = .outputOverrun))

namespace Extends

theorem refl (s : State) : Extends s s where
  params := rfl
  len := rfl
  expected := rfl
  variant := rfl
  latch := rfl
  ibuf := rfl
  c := rfl
  unit := rfl
  epoch := rfl
  draws := rfl
  sel := rfl
  op_le := Nat.le_refl _
  wf := id
  listed := fun _ h => .inr h
  same := fun _ _ => rfl
  holds := id

theorem trans {s t u : State} (h : Extends s t) (k : Extends t u) : Extends s u where
  params := k.params.trans h.params
  len := k.len.trans h.len
  expected := k.expected.trans h.expected
  variant := k.variant.trans h.variant
  latch := k.latch.trans h.latch
  ibuf := k.ibuf.trans h.ibuf
  c := k.c.trans h.c
  unit := k.unit.trans h.unit
  epoch := k.epoch.trans h.epoch
  draws := k.draws.trans h.draws
  sel := k.sel.trans h.sel
  op_le := Nat.le_trans h.op_le k.op_le
  wf := fun w => k.wf (h.wf w)
  listed := fun x hx => by
    have h1 := h.op_le
    have h2 := k.op_le
    rcases k.listed x hx with hx | hx
    · exact .inl ⟨by omega, hx.2⟩
    · exact (h.listed x hx).imp_left fun hx => ⟨hx.1, by omega⟩
  same := fun a ha => by
    have h1 := h.op_le
    have h2 := k.op_le
    rw [k.same a (by omega), h.same a (by omega)]
  holds := fun ho => by
    have h2 := k.holds
    rw [h.params] at h2
    exact h2 (h.holds ho)

/-- A read below the output's old end, or at or above its new end, is as it was. -/
theorem readByte {s u : State} (h : Extends s u) {a : Nat} (ha : a < s.z.op ∨ u.z.op ≤ a) :
    u.readByte .obuf a = s.readByte .obuf a := by
  have := h.same a ha
  simp only [State.readByte, State.mem_obuf, this, h.unit, h.epoch]

theorem readByte_ibuf {s u : State} (h : Extends s u) (a : Nat) :
    u.readByte .ibuf a = s.readByte .ibuf a := State.readByte_congr a h.ibuf h.unit h.epoch

end Extends

theorem extends_raiseStream (s : State) (e : ErrCode) (info : Nat) : Extends s (s.raiseStream e info) :=
  { Extends.refl s with }

theorem ended_raiseStream (s : State) {e : ErrCode} (info : Nat)
    (he : e = .truncated ∨ e = .sizeMismatch ∨ e = .badOffset ∨ e = .outputOverrun) :
    Ended (s.raiseStream e info) := ⟨rfl, rfl, .inr ⟨rfl, he⟩⟩

theorem extends_literalRun (s : State) (lits : List Byte) (hf : s.literalFits lits = true) :
    Extends s (s.literalRun lits) := by
  rw [State.literalRun_eq]
  exact { Extends.refl s with
    op_le := Nat.le_add_right _ _
    wf := fun w => Memory.wf_putBytes w _ _
    listed := fun x hx => Memory.mem_putBytes hx
    same := fun a ha => by
      simp only at ha ⊢
      rw [Memory.get?_putBytes, if_neg (by omega)]
    holds := fun _ => hf }

theorem goesOn_literalRun (s : State) (lits : List Byte) : GoesOn s (s.literalRun lits) := by
  rw [State.literalRun_eq]; exact ⟨rfl, rfl, rfl, rfl, rfl⟩

theorem extends_matchFields (s : State) (off mlen : Nat) : Extends s (s.matchFields off mlen) :=
  { Extends.refl s with }

/-- The match copy extends the output and goes on, or raises one of its two errors (R144). -/
theorem matchCopy_cases (s : State) (q off mlen : Nat) :
    Extends s (s.matchCopy q off mlen) ∧
      ((GoesOn s (s.matchCopy q off mlen) ∧ (s.matchCopy q off mlen).z.ip = s.z.ip) ∨
        Ended (s.matchCopy q off mlen)) := by
  unfold State.matchCopy
  split
  · exact ⟨extends_raiseStream _ _ _, .inr (ended_raiseStream _ _ (by simp))⟩
  · split
    · next hf =>
      have hc := s.copyMatch_changes off mlen
      refine ⟨?_, .inl ⟨?_, ?_⟩⟩
      · rw [State.copyMatch_eq]
        exact { Extends.refl s with
          op_le := Nat.le_add_right _ _
          wf := hc.wf
          listed := hc.listed
          same := fun a ha => hc.same a (by simp only at ha; omega)
          holds := fun _ => hf }
      · rw [State.copyMatch_eq]; exact ⟨rfl, rfl, rfl, rfl, rfl⟩
      · rw [State.copyMatch_eq]
    · exact ⟨extends_raiseStream _ _ _, .inr (ended_raiseStream _ _ (by simp))⟩

/-- `LZ4.SEQ` extends the output and goes on past its own bytes (R75), or ends the command with an
error. -/
theorem lz4Seq_cases (lits : List Byte) (off : BitVec 16) (mlen : Nat) (s : State) :
    Extends s (lz4Seq lits off mlen s) ∧
      ((GoesOn s (lz4Seq lits off mlen s) ∧
          (lz4Seq lits off mlen s).z.ip = s.z.ip + (Sequence.seq lits off mlen).size) ∨
        Ended (lz4Seq lits off mlen s)) := by
  unfold lz4Seq
  split
  · next hf =>
    have h1 := extends_literalRun s lits hf
    have g1 := goesOn_literalRun s lits
    obtain ⟨h3, h4⟩ := matchCopy_cases ((s.literalRun lits).matchFields off.toNat mlen)
      (s.literalRun lits).z.ip off.toNat mlen
    refine ⟨(h1.trans (extends_matchFields _ _ _)).trans h3, h4.imp_left fun ⟨g, hi⟩ => ⟨?_, ?_⟩⟩
    · exact ⟨g.running.trans g1.running, g.status.trans g1.status, g.err.trans g1.err,
        g.errInfo.trans g1.errInfo, g.produced.trans g1.produced⟩
    · rw [hi]
      simp only [State.matchFields, State.literalRun_eq, State.literalStart, Sequence.size]
      omega
  · exact ⟨extends_raiseStream _ _ _, .inr (ended_raiseStream _ _ (by simp))⟩

/-- `LZ4.END` extends the output and ends the command. -/
theorem lz4End_cases (lits : List Byte) (m : BitVec 4) (s : State) :
    Extends s (lz4End lits m s) ∧ Ended (lz4End lits m s) := by
  unfold lz4End
  split
  · next hf =>
    have h1 := extends_literalRun s lits hf
    unfold State.finishStream
    simp only
    split
    · exact ⟨h1.trans { Extends.refl _ with }, rfl, rfl, .inl ⟨rfl, rfl, rfl⟩⟩
    · exact ⟨h1.trans { Extends.refl _ with }, rfl, rfl, .inr ⟨rfl, by simp⟩⟩
  · exact ⟨extends_raiseStream _ _ _, ended_raiseStream _ _ (by simp)⟩

/-- A truncated sequence extends the output by its literal run, if that was complete, and ends the
command. -/
theorem truncatedSequence_cases (pos : Nat) (run : Option (List Byte)) (s : State) :
    Extends s (truncatedSequence pos run s) ∧ Ended (truncatedSequence pos run s) := by
  unfold truncatedSequence
  split
  · exact ⟨extends_raiseStream _ _ _, ended_raiseStream _ _ (by simp)⟩
  · split
    · next hf =>
      exact ⟨(extends_literalRun s _ hf).trans (extends_raiseStream _ _ _), ended_raiseStream _ _ (by simp)⟩
    · exact ⟨extends_raiseStream _ _ _, ended_raiseStream _ _ (by simp)⟩

/-- One sequence (R147): the output grows, and the command goes on at a later `ip` inside the stream, or
has ended. -/
theorem sequenceStep_cases (s : State) :
    Extends s (sequenceStep s) ∧
      ((GoesOn s (sequenceStep s) ∧ s.z.ip + 3 ≤ (sequenceStep s).z.ip ∧ (sequenceStep s).z.ip ≤ s.opLen) ∨
        Ended (sequenceStep s)) := by
  unfold sequenceStep
  split
  · next lits off mlen h =>
    have hs := decodeSequence_size h
    obtain ⟨he, hg | hd⟩ := lz4Seq_cases lits off mlen s
    · refine ⟨he, .inl ⟨hg.1, ?_, ?_⟩⟩
      · rw [hg.2]; simp only [Sequence.size]; omega
      · rw [hg.2]
        simp only [State.streamRest, State.length_readBytes] at hs
        simp only [Sequence.size] at hs ⊢
        omega
    · exact ⟨he, .inr hd⟩
  · next lits m h =>
    obtain ⟨he, hd⟩ := lz4End_cases lits m s
    exact ⟨he, .inr hd⟩
  · next r h =>
    obtain ⟨pos, run, rfl⟩ := decodeSequence_reject h
    obtain ⟨he, hd⟩ := truncatedSequence_cases pos run s
    exact ⟨he, .inr hd⟩

/-- The stream loop extends the output (R147). -/
theorem extends_runStream (fuel : Nat) (s : State) : Extends s (runStream fuel s) := by
  induction fuel generalizing s with
  | zero => exact Extends.refl s
  | succ fuel ih =>
    unfold runStream
    split
    · exact (sequenceStep_cases s).1.trans (ih _)
    · exact Extends.refl s

/-! ### What the operations write -/

/-- The bytes after a literal run (R142). -/
theorem State.literalRun_readByte (s : State) (lits : List Byte) (sp : Space) (a : Nat) :
    (s.literalRun lits).readByte sp a =
      if sp = .obuf ∧ s.z.op ≤ a ∧ a < s.z.op + lits.length then lits.getD (a - s.z.op) 0#8
      else s.readByte sp a := by
  rw [← State.readByte_writeBytes]; cases sp <;> rfl

/-- A match that raises no error (R144). -/
theorem State.matchCopy_ok (s : State) (q : Nat) {off mlen : Nat} (h1 : 1 ≤ off) (h2 : off ≤ s.z.op)
    (h3 : s.params.obufHolds (s.z.op + mlen) = true) :
    s.matchCopy q off mlen =
      { s with obuf := (s.copyMatch off mlen).obuf, z := { s.z with op := s.z.op + mlen } } := by
  unfold State.matchCopy
  rw [if_neg (by omega), if_pos h3]
  have := s.copyMatch_eq off mlen
  simp only
  generalize (s.copyMatch off mlen).obuf = o at *
  rw [this]

/-- The loop of a DECOMPRESS ends the command: every iteration that does not end it advances `ip` (R147). -/
theorem ended_runStream {fuel : Nat} {s : State} (hr : s.z.running = true) (hip : s.z.ip ≤ s.opLen)
    (hf : s.opLen + 1 ≤ s.z.ip + fuel) : Ended (runStream fuel s) := by
  induction fuel generalizing s with
  | zero => omega
  | succ fuel ih =>
    unfold runStream
    rw [if_pos hr]
    obtain ⟨he, ⟨hg, h3, hl⟩ | hend⟩ := sequenceStep_cases s
    · have e : (sequenceStep s).opLen = s.opLen := by unfold State.opLen; rw [he.latch]
      exact ih (hg.running.trans hr) (by omega) (by omega)
    · cases fuel with
      | zero => exact hend
      | succ f => unfold runStream; rw [if_neg (by simp [hend.running])]; exact hend

end Sys2Proof.Machine
end

