-- ==== Sys2Proof/Laws/Ready.lean ====
section
/-!
SUPPORT. What R225's conditions give a claim: `State.Ready` before the issue, `State.IssuedReady` after it,
`State.BusyReady` until the command ends.
-/
namespace Sys2Proof

/-- A variant found in a legal profile is legal (R8). -/
theorem Params.variant_wf {p : Params} (hp : p.wf = true) {code : Word} {v : Variant}
    (h : p.profile.variants.lookup code = some v) : v.wf = true := by
  simp only [Params.wf, Profile.wf, Bool.and_eq_true, List.all_eq_true] at hp
  obtain ⟨xs, ys, hxy, -⟩ := List.lookup_eq_some_iff.1 h
  exact hp.1.1.2 (code, v) (by rw [hxy]; simp)

namespace Machine

variable {s : State}

/-- An issue on a unit that is ready gives a command issued under R225's conditions. -/
theorem State.Ready.issued (h : s.Ready) (w : Word) : (s.issue w).IssuedReady := ⟨s, h, rfl⟩

theorem State.IssuedReady.params_wf (h : s.IssuedReady) : s.params.wf = true := by
  obtain ⟨r, hr, hs⟩ := h
  rw [hs]
  exact hr.profile

theorem State.IssuedReady.written (h : s.IssuedReady) : s.written s.latch.len.toNat := by
  obtain ⟨r, hr, hs⟩ := h
  rw [hs]
  exact hr.bytes

theorem State.IssuedReady.busy (h : s.IssuedReady) : s.status = .busy ∧ s.z.running = false := by
  obtain ⟨r, -, hs⟩ := h
  rw [hs]
  exact ⟨rfl, rfl⟩

/-- R225's conditions hold from the issue on. -/
theorem State.IssuedReady.busyReady (h : s.IssuedReady) : s.BusyReady := ⟨h.params_wf, h.written, h.busy.1⟩

/-- The begin of a stream keeps R225's conditions. -/
theorem State.BusyReady.openStream (h : s.BusyReady) (v : Variant) : (s.openStream v).BusyReady :=
  ⟨h.profile, h.bytes, h.busy⟩

/-- What unit Z does keeps R225's conditions while the command goes on. -/
theorem Extends.busyReady {u : State} (h : Extends s u) (hr : s.BusyReady) (hu : u.status = .busy) : u.BusyReady := by
  refine ⟨h.params ▸ hr.profile, ?_, hu⟩
  rw [h.latch]
  unfold State.written
  rw [h.ibuf]
  exact hr.bytes

/-- A write leaves the written bytes written (R225, condition 2: by the host or by an earlier DECRYPT). -/
theorem State.written_writeByte {n : Nat} (h : s.written n) (sp : Space) (a : Nat) (v : Byte) :
    (s.writeByte sp a v).written n := by
  intro x hx
  cases sp with
  | ibuf =>
    show ((s.ibuf.put a v).get? x).isSome = true
    rw [Memory.get?_put]
    split
    · rfl
    · exact h x hx
  | obuf => exact h x hx
  | scratch => exact h x hx

end Machine

end Sys2Proof
end

