-- ==== Sys2Proof/Tests/Slice0.lean ====
section
/-!
SUPPORT. The model's own tests: words written out from the spec's encodings, ill-formed terms, the vectors of
spec/95_test_vectors.md (named by their ids there), and for every obligation with hypotheses a state and operands that
meet them. Every expected value comes from the spec, none from the model.
-/
namespace Sys2Proof.Tests

open Sys2Proof Sys2Proof.Machine

/-! ### The test profiles (95_test_vectors.md section 1) -/

def boxA0 : List Byte := [
  0x63, 0x7c, 0x77, 0x7b, 0xf2, 0x6b, 0x6f, 0xc5, 0x30, 0x01, 0x67, 0x2b, 0xfe, 0xd7, 0xab, 0x76,
  0xca, 0x82, 0xc9, 0x7d, 0xfa, 0x59, 0x47, 0xf0, 0xad, 0xd4, 0xa2, 0xaf, 0x9c, 0xa4, 0x72, 0xc0,
  0xb7, 0xfd, 0x93, 0x26, 0x36, 0x3f, 0xf7, 0xcc, 0x34, 0xa5, 0xe5, 0xf1, 0x71, 0xd8, 0x31, 0x15,
  0x04, 0xc7, 0x23, 0xc3, 0x18, 0x96, 0x05, 0x9a, 0x07, 0x12, 0x80, 0xe2, 0xeb, 0x27, 0xb2, 0x75]

def boxA1 : List Byte := [
  0x09, 0x83, 0x2c, 0x1a, 0x1b, 0x6e, 0x5a, 0xa0, 0x52, 0x3b, 0xd6, 0xb3, 0x29, 0xe3, 0x2f, 0x84,
  0x53, 0xd1, 0x00, 0xed, 0x20, 0xfc, 0xb1, 0x5b, 0x6a, 0xcb, 0xbe, 0x39, 0x4a, 0x4c, 0x58, 0xcf,
  0xd0, 0xef, 0xaa, 0xfb, 0x43, 0x4d, 0x33, 0x85, 0x45, 0xf9, 0x02, 0x7f, 0x50, 0x3c, 0x9f, 0xa8,
  0x51, 0xa3, 0x40, 0x8f, 0x92, 0x9d, 0x38, 0xf5, 0xbc, 0xb6, 0xda, 0x21, 0x10, 0xff, 0xf3, 0xd2]

def boxA2 : List Byte := [
  0xcd, 0x0c, 0x13, 0xec, 0x5f, 0x97, 0x44, 0x17, 0xc4, 0xa7, 0x7e, 0x3d, 0x64, 0x5d, 0x19, 0x73,
  0x60, 0x81, 0x4f, 0xdc, 0x22, 0x2a, 0x90, 0x88, 0x46, 0xee, 0xb8, 0x14, 0xde, 0x5e, 0x0b, 0xdb,
  0xe0, 0x32, 0x3a, 0x0a, 0x49, 0x06, 0x24, 0x5c, 0xc2, 0xd3, 0xac, 0x62, 0x91, 0x95, 0xe4, 0x79,
  0xe7, 0xc8, 0x37, 0x6d, 0x8d, 0xd5, 0x4e, 0xa9, 0x6c, 0x56, 0xf4, 0xea, 0x65, 0x7a, 0xae, 0x08]

def boxA3 : List Byte := [
  0xba, 0x78, 0x25, 0x2e, 0x1c, 0xa6, 0xb4, 0xc6, 0xe8, 0xdd, 0x74, 0x1f, 0x4b, 0xbd, 0x8b, 0x8a,
  0x70, 0x3e, 0xb5, 0x66, 0x48, 0x03, 0xf6, 0x0e, 0x61, 0x35, 0x57, 0xb9, 0x86, 0xc1, 0x1d, 0x9e,
  0xe1, 0xf8, 0x98, 0x11, 0x69, 0xd9, 0x8e, 0x94, 0x9b, 0x1e, 0x87, 0xe9, 0xce, 0x55, 0x28, 0xdf,
  0x8c, 0xa1, 0x89, 0x0d, 0xbf, 0xe6, 0x42, 0x68, 0x41, 0x99, 0x2d, 0x0f, 0xb0, 0x54, 0xbb, 0x16]

def variantsZ : List (Word × Variant) :=
  [(0x00000000#32, stockVariant), (0x00000001#32, { perm := #v[4, 5, 6, 7, 0, 1, 2, 3], order := .be }),
   (0x00000002#32, { perm := #v[5, 0, 7, 2, 4, 1, 6, 3], order := .le })]

/-- TP-A: the standard table, no feedback mask. -/
def tpA : Profile where
  key := Vector.ofFn fun i => BitVec.ofNat 8 i.val
  iv := Vector.ofFn fun i => BitVec.ofNat 8 (17 * i.val)
  sbox := Vector.ofFn fun i => (boxA0 ++ boxA1 ++ boxA2 ++ boxA3).getD i.val 0
  fbmask := Vector.replicate 16 0
  variants := variantsZ

/-- TP-B: `SBOX[x] = (167*x + 59) mod 256` and a feedback mask. -/
def tpB : Profile where
  key := #v[0x0f, 0x1e, 0x2d, 0x3c, 0x4b, 0x5a, 0x69, 0x78, 0x87, 0x96, 0xa5, 0xb4, 0xc3, 0xd2, 0xe1, 0xf0]
  iv := Vector.ofFn fun i => BitVec.ofNat 8 (160 + i.val)
  sbox := Vector.ofFn fun i => BitVec.ofNat 8 (167 * i.val + 59)
  fbmask := #v[0xb9, 0x79, 0x37, 0x9e, 0xb9, 0x79, 0x37, 0x9e, 0xb9, 0x79, 0x37, 0x9e, 0xb9, 0x79, 0x37, 0x9e]
  variants := variantsZ

/-- A unit after reset with a 64-byte IBUF and a 32-byte OBUF. -/
def unitB : State := State.afterReset { profile := tpB, ibufCap := 64, obufCap := some 32 } 0 0 0

/-- The same with `bytes` in IBUF, and the registers `LEN`, `EXPECTED` and `VARIANT`. -/
def loaded (bytes : List Byte) (expected variant : Word) : State :=
  { unitB.writeBytes .ibuf 0 bytes with
    len := BitVec.ofNat 32 bytes.length, expected := expected, variant := variant }

/-- The same with a DECOMPRESS begun: the next step is the sequence at index 0. -/
def begun (bytes : List Byte) (expected variant : Word) (v : Variant) : State :=
  ((loaded bytes expected variant).issue 0x00000002#32).openStream v

/-- Whether an outcome is a next state of which `p` holds. -/
def answers (o : Host.Outcome State Fault Refusal) (p : State → Bool) : Bool :=
  match o with
  | .next t => p t
  | .fault _ => false
  | .refused _ => false

/-- `STATUS`, `ERR`, `ERRINFO`, `PRODUCED`. -/
def report (s : State) : List Word := [s.readReg 1, s.readReg 2, s.readReg 3, s.readReg 7]

/-! ### Well-formedness: what is refused -/

theorem test_wf_refuses_short_match : (Instr.lz4Seq [] 1 3).wellFormed = false := by decide
theorem test_wf_accepts_match_of_four : (Instr.lz4Seq [] 1 4).wellFormed = true := by decide
theorem test_wf_refuses_overlong_match : (Instr.lz4Seq [] 1 (2 ^ 41)).wellFormed = false := by decide
theorem test_wf_refuses_overlong_run (lits : List Byte) (h : lits.length = 4294967296) :
    (Instr.lz4End lits 0).wellFormed = false := by
  simp only [Instr.wellFormed, Sequence.wellFormed, Sequence.size, h, decide_eq_false_iff_not, maxStream]
  omega
theorem test_wf_accepts_commands : Instr.decrypt.wellFormed = true ∧ Instr.decompress.wellFormed = true := by decide
theorem test_variant_refuses_repeated_bit :
    ({ perm := #v[0, 0, 2, 3, 4, 5, 6, 7], order := .le } : Variant).wf = false := by decide
theorem test_profile_refuses_repeated_code :
    ({ tpB with variants := [(5, stockVariant), (5, stockVariant)] } : Profile).wf = false := by decide
theorem test_params_refuse_no_ibuf : ({ profile := tpB, ibufCap := 0, obufCap := none } : Params).wf = false := by
  decide
theorem test_params_refuse_no_obuf : ({ profile := tpB, ibufCap := 1, obufCap := some 0 } : Params).wf = false := by
  decide
theorem test_params_accept_tpB : unitB.params.wf = true := by decide

/-! ### Decoding: words written out from 30_encoding.md -/

/-- R71: `DECRYPT` and `DECOMPRESS`; R72: reserved bits set, other opcodes. -/
theorem test_decode_commands :
    decodeCommand 0b00000000000000000000000000000001#32 = .ok .decrypt ∧
    decodeCommand 0b00000000000000000000000000000010#32 = .ok .decompress ∧
    decodeCommand 0b00000000000000000000000000000000#32 = .reject (.illegalCommand 0) ∧
    decodeCommand 0b00000000000000000000000100000001#32 = .reject (.illegalCommand 0x101) ∧
    decodeCommand 0b10000000000000000000000000000010#32 = .reject (.illegalCommand 0x80000002) := by decide

/-- R73 to R77, `LZ4.SEQ`: L = 3, M = 5, three literals, offset 3 low byte first, then an empty END. -/
theorem test_decode_seq :
    decode stockVariant (.stream [0b00110101, 0x61, 0x62, 0x63, 0x03, 0x00, 0x00]) = .ok (.lz4Seq [0x61, 0x62, 0x63] 3 9) ∧
    decode { perm := #v[5, 0, 7, 2, 4, 1, 6, 3], order := .le } (.stream [0b10110010, 0x61, 0x62, 0x63, 0x03, 0x00, 0x12]) =
      .ok (.lz4Seq [0x61, 0x62, 0x63] 3 9) := by decide

/-- R76 (vectors Z12, Z16): the extension byte 00 at 15; a match of 15 + 255 + 0 + 4. -/
theorem test_decode_extensions :
    readLenExt 15 [0x00, 0x07] = some (15, 1, [0x07]) ∧ readLenExt 14 [0x00] = some (14, 0, [0x00]) ∧
    decode stockVariant (.stream [0x1f, 0x5a, 0x01, 0x00, 0xff, 0x00, 0x00]) = .ok (.lz4Seq [0x5a] 1 274) := by decide

/-- R73, R78, `LZ4.END` (vector Z21): L = 3, M = 15 ignored, three literals to the end of the stream. -/
theorem test_decode_end :
    decode stockVariant (.stream [0b00111111, 0x61, 0x62, 0x63]) = .ok (.lz4End [0x61, 0x62, 0x63] 15) := by decide

/-- R79 (vectors E1, E3 to E7, E9): where a truncated stream is rejected. -/
theorem test_decode_truncated :
    decode stockVariant (.stream []) = .reject (.truncated 0 none) ∧
    decode stockVariant (.stream [0x10]) = .reject (.truncated 1 none) ∧
    decode stockVariant (.stream [0x20, 0x41]) = .reject (.truncated 1 none) ∧
    decode stockVariant (.stream [0xf0]) = .reject (.truncated 1 none) ∧
    decode stockVariant (.stream [0xf0, 0xff]) = .reject (.truncated 2 none) ∧
    decode stockVariant (.stream [0x10, 0x41, 0x01]) = .reject (.truncated 2 (some [0x41])) ∧
    decode stockVariant (.stream [0x1f, 0x41, 0x01, 0x00]) = .reject (.truncated 4 (some [0x41])) := by decide

/-- R82 (program 3): the assembly of one sequence under variant 1. -/
theorem test_encode_seq :
    encodeSequence { perm := #v[4, 5, 6, 7, 0, 1, 2, 3], order := .be } (.seq [0x21] 1 4) = [0x01, 0x21, 0x00, 0x01] := by
  decide

/-- The opcode table's words: a command, no instruction, a token whose bytes follow. -/
theorem test_table_words :
    decodeTableWord 32 1 = some .decrypt ∧ decodeTableWord 32 2 = some .decompress ∧ decodeTableWord 32 3 = none ∧
    decodeTableWord 8 0x20 = some (.lz4Seq [0, 0] 0 4) := by decide

/-! ### Primitives and the cipher (sections 3 and 4.1 to 4.3) -/

/-- P3, P5, P6. -/
theorem test_primitives :
    rol8 0xB4 5 = 0x96 ∧ xtime 0xAE = 0x47 ∧ xtime 0x80 = 0x1B ∧ gmul3 0x57 = 0xF9 := by decide

/-- P10. -/
theorem test_permute_bits :
    [0x00#8, 0x10#8, 0x5A#8, 0xB2#8, 0x7B#8, 0xFF#8].map (permuteBits #v[5, 0, 7, 2, 4, 1, 6, 3]) =
      [0x00, 0x10, 0xF0, 0x35, 0xF3, 0xFF] := by decide

/-- B4. -/
theorem test_shift_rows :
    shiftRows (Vector.ofFn fun i => BitVec.ofNat 8 i.val) =
      #v[0x00, 0x05, 0x0a, 0x0f, 0x04, 0x09, 0x0e, 0x03, 0x08, 0x0d, 0x02, 0x07, 0x0c, 0x01, 0x06, 0x0b] := by decide

/-- K1, the four column answers of the mix step. -/
theorem test_mix_columns :
    mixColumns #v[0xdb, 0x13, 0x53, 0x45, 0xf2, 0x0a, 0x22, 0x5c, 0x01, 0x01, 0x01, 0x01, 0xc6, 0xc6, 0xc6, 0xc6] =
      #v[0x8e, 0x4d, 0xa1, 0xbc, 0x9f, 0xdc, 0x58, 0x9d, 0x01, 0x01, 0x01, 0x01, 0xc6, 0xc6, 0xc6, 0xc6] := by decide

/-- B3, the first round of TP-B. -/
theorem test_round_steps :
    subBytes tpB.sbox #v[0xaf, 0xbf, 0x8f, 0x9f, 0xef, 0xff, 0xcf, 0xdf, 0x2f, 0x3f, 0x0f, 0x1f, 0x6f, 0x7f, 0x4f, 0x5f] =
      #v[0x64, 0xd4, 0x84, 0xf4, 0x24, 0x94, 0x44, 0xb4, 0xe4, 0x54, 0x04, 0x74, 0xa4, 0x14, 0xc4, 0x34] ∧
    addRoundKey #v[0x5f, 0x6f, 0xa4, 0x54, 0x84, 0x2f, 0xe4, 0x0f, 0xdf, 0xef, 0x24, 0xd4, 0x04, 0xaf, 0x64, 0x8f]
      #v[0x37, 0x1c, 0xe6, 0x4c, 0x7c, 0x46, 0x8f, 0x34, 0xfb, 0xd0, 0x2a, 0x80, 0x38, 0x02, 0xcb, 0x70] =
      #v[0x68, 0x73, 0x42, 0x18, 0xf8, 0x69, 0x6b, 0x3b, 0x24, 0x3f, 0x0e, 0x54, 0x3c, 0xad, 0xaf, 0xff] := by
  decide +kernel

/-- B2, the last round key of TP-B. -/
theorem test_key_schedule :
    roundKey tpB.key tpB.sbox 10 =
      #v[0xd6, 0x3d, 0xc8, 0xd7, 0x54, 0x84, 0x12, 0x6c, 0x82, 0xa2, 0x1c, 0x07, 0x2b, 0x73, 0xdf, 0x4c] := by
  decide +kernel

/-- K1: the published answer of the standard cipher, under TP-A. -/
theorem test_known_answer :
    encryptBlock tpA tpA.iv =
      #v[0x69, 0xc4, 0xe0, 0xd8, 0x6a, 0x7b, 0x04, 0x30, 0xd8, 0xcd, 0xb7, 0x80, 0x70, 0xb4, 0xc5, 0x5a] := by
  decide +kernel

/-- Section 4.3: the feedback of TP-B's first keystream block. -/
theorem test_nlfb :
    nlfb tpB #v[0x8c, 0xa7, 0xd9, 0xef, 0xfe, 0xe5, 0xc7, 0x9a, 0xd2, 0x9e, 0x74, 0x69, 0x71, 0xc9, 0x8b, 0xca] =
      #v[0x85, 0xc3, 0x31, 0xfe, 0x6c, 0x5b, 0xda, 0x38, 0x99, 0xcd, 0xbd, 0x07, 0xbc, 0x77, 0x22, 0x0b] := by
  decide +kernel

/-- M6, M8, M9, M11, M13, M14: the touched counts. -/
theorem test_touched_counts :
    [256, 257, 272, 1024, 2064, 4112, 300].map touchedCount = [256, 256, 255, 256, 129, 256, 252] := by decide

/-! ### One step each -/

/-- M2: `DECRYPT` of one byte under TP-B. -/
theorem test_decrypt_one_byte :
    answers (step ((loaded [0x00] 0 0).writeReg 0 1)) (fun t =>
      t.readBytes .ibuf 0 1 == [0x8c] && report t == [2, 0, 0, 1]) = true := by decide +kernel

/-- C4, with this unit's `IBUF_CAP`: one byte too long. -/
theorem test_decrypt_length_range :
    answers (step ({ unitB with len := 65 }.writeReg 0 1)) (fun t => report t == [3, 8, 65, 0]) = true := by
  decide +kernel

/-- Z7: `DECOMPRESS` under variant 1. -/
theorem test_decompress_abc :
    answers (step ((loaded [0x53, 0x61, 0x62, 0x63, 0x00, 0x03, 0x03, 0x78, 0x79, 0x7a] 15 1).writeReg 0 2)) (fun t =>
      t.readBytes .obuf 0 15 ==
        [0x61, 0x62, 0x63, 0x61, 0x62, 0x63, 0x61, 0x62, 0x63, 0x61, 0x62, 0x63, 0x78, 0x79, 0x7a] &&
      report t == [2, 0, 0, 15]) = true := by decide +kernel

/-- E13: an unknown code. -/
theorem test_decompress_unknown_variant :
    answers (step ((loaded [0x00] 0 7).writeReg 0 2)) (fun t => report t == [3, 4, 7, 0]) = true := by decide +kernel

/-- Z22 (first sequence): `LZ4.SEQ` with an offset below the match length repeats its own output. -/
theorem test_seq_overlap :
    answers (step (begun [0x10, 0x41, 0x01, 0x00, 0x00] 5 0 stockVariant)) (fun t =>
      t.readBytes .obuf 0 5 == [0x41, 0x41, 0x41, 0x41, 0x41] && t.z.ip == 4 && t.z.op == 5 &&
      report t == [1, 0, 0, 0]) = true := by decide +kernel

/-- E11: an offset beyond the output; the literal run stands. -/
theorem test_seq_bad_offset :
    answers (step (begun [0x10, 0x41, 0x02, 0x00, 0x00] 5 0 stockVariant)) (fun t =>
      t.readBytes .obuf 0 1 == [0x41] && report t == [3, 5, 2, 1]) = true := by decide +kernel

/-- Z21: `LZ4.END` completes the command. -/
theorem test_end_completes :
    answers (step (begun [0x3f, 0x61, 0x62, 0x63] 3 0 stockVariant)) (fun t =>
      t.readBytes .obuf 0 3 == [0x61, 0x62, 0x63] && report t == [2, 0, 0, 3]) = true := by decide +kernel

/-- As Z3: more bytes than `EXPECTED`. -/
theorem test_end_size_mismatch :
    answers (step (begun [0x3f, 0x61, 0x62, 0x63] 2 0 stockVariant)) (fun t => report t == [3, 3, 3, 3]) = true := by
  decide +kernel

/-- E7: one offset byte only. -/
theorem test_truncated_offset :
    answers (step (begun [0x10, 0x41, 0x01] 5 0 stockVariant)) (fun t =>
      t.readBytes .obuf 0 1 == [0x41] && report t == [3, 1, 2, 1]) = true := by decide +kernel

/-- C3: a reserved bit set. -/
theorem test_illegal_command :
    answers (step (unitB.writeReg 0 0x101)) (fun t => report t == [3, 7, 0x101, 0]) = true := by decide +kernel

/-! ### The hypotheses of the obligations are met

Each theorem is named after its obligation: `hyp_<Name>` gives a state and operands that meet its hypotheses, one for
each clause, at a boundary of the clause's range. Ranges are those of `unitB`: IBUF has 64 bytes, OBUF 32. -/

/-- The zero table as an S-box. -/
def zeroProfile : Profile := { tpB with sbox := Vector.replicate 256 0#8 }

/-- A unit in the ERROR state: an illegal command has ended. -/
def failed : State := (unitB.issue 0x00000003#32).raise .illegalCommand 3

/-- A stream of two sequences with one match (vector Z22), and the sequences. -/
def streamA : List Byte := [0x10, 0x41, 0x01, 0x00, 0x00]
def seqsA : List Sequence := [.seq [0x41] 1 4, .last [] 0]
def outA : List Byte := [0x41, 0x41, 0x41, 0x41, 0x41]

/-- The decoder's view of the unit inside a DECOMPRESS with output position `op`. -/
def atOp (op : Nat) : State := { begun streamA 5 0 stockVariant with z := { (begun streamA 5 0 stockVariant).z with op := op } }

/-- A state with the command `w` issued meets the invariant. -/
theorem inv_issued : ((loaded streamA 5 0).issue 0x00000002#32).Inv where
  params := by decide
  ibufWf := by decide
  obufWf := by decide
  scratchWf := by decide
  ibufIn := by decide
  obufIn := by decide
  scratchIn := by decide
  errIff := by decide
  errRaised := by decide
  infoZero := by decide
  latched := by decide
  running := by decide

/-- So does one inside the DECOMPRESS. -/
theorem inv_begun : (begun streamA 5 0 stockVariant).Inv where
  params := by decide
  ibufWf := by decide
  obufWf := by decide
  scratchWf := by decide
  ibufIn := by decide
  obufIn := by decide
  scratchIn := by decide
  errIff := by decide
  errRaised := by decide
  infoZero := by decide
  latched := by decide
  running := by decide

/-- The shortest stream, one `00` byte, as it stands in a region whose first keystream byte is `k`. -/
def region (k : Byte) : State := loaded [0x00 ^^^ k] 0 0

theorem region_byte (k : Byte) (hk : k = keystreamByte tpB 0) :
    (region k).readByte .ibuf 0 = 0x00 ^^^ keystreamByte (region k).params.profile 0 := by
  rw [show (region k).params.profile = tpB from rfl, ← hk]
  rfl

theorem hyp_ReservedRegistersReadZero : 8 ≤ 8 ∧ unitB.readReg 8 = 0 := by decide

theorem hyp_OperandRegistersHoldWrites : unitB.status ≠ .busy ∧ (unitB.writeReg 4 7).readReg 4 = 7 := by decide

theorem hyp_IssueLatchesOperands : unitB.status ≠ .busy ∧ failed.status ≠ .busy := by decide

theorem hyp_BusyWritesIgnored :
    (unitB.issue 1).status = .busy ∧ (unitB.issue 1).inSpace .ibuf 0 = true ∧ (unitB.issue 1).inSpace .ibuf 63 = true ∧
    (unitB.issue 1).inSpace .ibuf 64 = false := by decide

theorem hyp_RegisterReadsWhileBusy :
    ((loaded streamA 5 0).issue 0x00000002#32).Inv ∧ ((loaded streamA 5 0).issue 0x00000002#32).status = .busy ∧
    unitB.status ≠ .busy ∧
    answers (sysStep .block (begun streamA 5 0 stockVariant)) (fun t => t.status == .busy) = true ∧
    answers (sysStep .beginDecompress ((loaded streamA 5 0).issue 0x00000002#32)) (fun t => t.status == .busy) = true :=
  ⟨inv_issued, by decide, by decide, by decide, by decide⟩

theorem hyp_DataPortMoves :
    unitB.status ≠ .busy ∧ (unitB.issue 1).status = .busy ∧ unitB.inSpace .ibuf 63 = true ∧
    unitB.inSpace .ibuf 64 = false ∧ unitB.inSpace .obuf 31 = true ∧ unitB.inSpace .obuf 32 = false ∧
    hostMove (.readIbuf 63) unitB = .next (unitB, .byte (unitB.readByte .ibuf 63)) := ⟨by decide, by decide, by decide,
      by decide, by decide, by decide, rfl⟩

theorem hyp_WrittenBytesReadBack :
    (3 < 4 ∨ 4 + [0x11#8, 0x22#8].length ≤ 3) ∧ 4 + [0x11#8, 0x22#8].length ≤ 6 ∧ Space.obuf ≠ Space.ibuf := by decide

theorem hyp_Rol8RotatesBits : (0 ≤ 7 ∧ 7 < 8) ∧ 7 ≤ 7 := by decide

theorem hyp_XtimeDoublesInField : (0x7F#8).toNat < 128 ∧ 128 ≤ (0x80#8).toNat := by decide

theorem hyp_XorTwiceIsIdentity : [0x01#8].length = [0xFF#8].length ∧ ([] : List Byte).length = ([] : List Byte).length := by
  decide

theorem hyp_PermuteBitsIsBijection :
    (∀ cv ∈ variantsZ, cv.2.wf = true) ∧
    ∀ j : Fin 8, (#v[1, 5, 3, 7, 4, 0, 6, 2] : Perm)[(#v[5, 0, 7, 2, 4, 1, 6, 3] : Perm)[j]] = j := by decide

theorem hyp_KeyScheduleRecurrence : (4 ≤ 4 ∧ 4 % 4 = 0) ∧ (43 < 44 ∧ 43 % 4 ≠ 0) ∧ 10 ≤ 10 ∧ 9 < 10 := by decide

theorem hyp_EncryptBlockTenRounds (p : Profile) (x : Block) :
    ∃ st : Nat → Block, st 0 = addRoundKey x (roundKey p.key p.sbox 0) ∧
      ∀ r, 1 ≤ r → r ≤ 9 →
        st r = addRoundKey (mixColumns (shiftRows (subBytes p.sbox (st (r - 1))))) (roundKey p.key p.sbox r) := by
  refine ⟨fun r => Nat.rec (addRoundKey x (roundKey p.key p.sbox 0)) (fun k b =>
    addRoundKey (mixColumns (shiftRows (subBytes p.sbox b))) (roundKey p.key p.sbox (k + 1))) r, rfl, fun r h1 _ => ?_⟩
  obtain ⟨k, rfl⟩ : ∃ k, r = k + 1 := ⟨r - 1, by omega⟩
  rfl

theorem hyp_ZeroSboxGivesLastRoundKey : ∀ b, tableAt zeroProfile.sbox b = 0#8 := by
  intro b; simp [tableAt, zeroProfile]

theorem hyp_StrideTable :
    [257, 272, 288, 304, 320, 336, 352, 368, 384, 400, 416, 448, 464, 512, 528, 576, 592, 672, 688, 816, 832, 1024, 1040,
      1360, 1376, 2048, 2064, 4096, 4112].map numBlocks =
    [16, 17, 18, 19, 20, 21, 22, 23, 24, 25, 26, 28, 29, 32, 33, 36, 37, 42, 43, 51, 52, 64, 65, 85, 86, 128, 129, 256,
      257] := by decide

theorem hyp_LargeModeTouchesSamples :
    256 < 257 ∧ 15 < strideCount 257 ∧ 15 < strideStep 257 ∧
    (∀ j < strideCount 2064, ∀ k < strideStep 2064, 1 ≠ 16 * j + k) := by decide

theorem hyp_ProducedCountsTouchedBytes :
    let s := ({ unitB with len := 64 } : State).issue 1
    let t := ({ State.afterReset { profile := tpB, ibufCap := 257, obufCap := none } 0 0 0 with len := 257 } : State).issue 1
    (s.latch.len.toNat ≤ s.params.ibufCap ∧ s.latch.len.toNat ≤ 256) ∧
    t.latch.len.toNat ≤ t.params.ibufCap ∧ 256 < t.latch.len.toNat := by decide

/-- A unit of profile TP-B with bytes in IBUF is ready for a command when each of the bytes is written; so is another
unit, or the same after another reset. -/
theorem ready_of_written (bytes : List Byte) (expected variant : Word) (unit epoch : Nat)
    (h : ∀ a < (loaded bytes expected variant).len.toNat, ((loaded bytes expected variant).ibuf.get? a).isSome = true)
    (hp : (loaded bytes expected variant).params = unitB.params) (hs : (loaded bytes expected variant).status = .idle) :
    ({ loaded bytes expected variant with unit := unit, epoch := epoch } : State).Ready where
  profile := by
    show (loaded bytes expected variant).params.wf = true
    rw [hp]
    decide
  bytes := h
  idle := by
    show (loaded bytes expected variant).status ≠ .busy
    rw [hs]
    decide

/-- The unit of `inv_issued` before its issue is ready for a command. -/
theorem ready_loaded (unit epoch : Nat) : ({ loaded streamA 5 0 with unit := unit, epoch := epoch } : State).Ready :=
  ready_of_written streamA 5 0 unit epoch (by decide) rfl rfl

theorem hyp_DecryptCompletes :
    let s := (loaded streamA 5 0).issue 1
    let t := (loaded [] 0 0).issue 1
    (s.IssuedReady ∧ s.latch.len.toNat ≤ s.params.ibufCap ∧ touches s.latch.len.toNat 4 = true ∧
      touches s.latch.len.toNat 5 = false) ∧
    t.IssuedReady ∧ t.latch.len.toNat ≤ t.params.ibufCap :=
  ⟨⟨(ready_loaded 0 0).issued 1, by decide⟩, (ready_of_written [] 0 0 0 0 (by decide) rfl rfl).issued 1, by decide⟩

theorem hyp_CommandStatementsFromReady :
    let s := loaded streamA 5 0
    let s' := { s with unit := 1, epoch := 3 }
    s.Ready ∧ s'.Ready ∧ s.len.toNat ≤ s.params.ibufCap ∧
    s.params.profile.variants.lookup s.variant = some stockVariant ∧
    s.readBytes .ibuf 0 s.len.toNat = encodeStream stockVariant seqsA ∧ (∀ q ∈ seqsA, q.wellFormed = true) ∧
    expand [] seqsA = some outA ∧ s.params.obufHolds outA.length = true ∧ s.params = s'.params ∧ s.len = s'.len ∧
    s.expected = s'.expected ∧ s.variant = s'.variant ∧ ∀ a, a < s.len.toNat → s.ibuf.get? a = s'.ibuf.get? a :=
  ⟨ready_loaded 0 0, ready_loaded 1 3, by decide, by decide, by decide, by decide, by decide, by decide, rfl, rfl, rfl, rfl,
    fun _ _ => rfl⟩

theorem hyp_DecryptTwiceRestores : (loaded streamA 5 0).Ready ∧ (loaded streamA 5 0).len = 5 :=
  ⟨ready_loaded 0 0, rfl⟩

theorem hyp_DecryptDeterministic :
    let s := (loaded [0x00] 0 0).issue 1
    let s' := (loaded [0x00] 5 7).issue 1
    s.IssuedReady ∧ s'.IssuedReady ∧
    s.params.profile = s'.params.profile ∧ s.latch.len = s'.latch.len ∧ s.latch.len.toNat ≤ s.params.ibufCap ∧
    s.latch.len.toNat ≤ s'.params.ibufCap ∧ (∀ a, a < s.latch.len.toNat → s.readByte .ibuf a = s'.readByte .ibuf a) ∧
    ∃ t t', exec .decrypt s = .next t ∧ exec .decrypt s' = .next t' :=
  ⟨(ready_of_written [0x00] 0 0 0 0 (by decide) rfl rfl).issued 1,
    (ready_of_written [0x00] 5 7 0 0 (by decide) rfl rfl).issued 1, rfl, by decide, by decide, by decide, by decide, _, _, rfl, rfl⟩

theorem hyp_IllegalCommandRaises :
    (unitB.issue 3).status = .busy ∧ (unitB.issue 3).z.running = false ∧ (unitB.issue 3).latch.cmd ≠ 1#32 ∧
    (unitB.issue 3).latch.cmd ≠ 2#32 := by decide

theorem hyp_LengthRangeRaises :
    ∃ i : Instr, (i = .decrypt ∨ i = .decompress) ∧
      (({ unitB with len := 65 }).issue 1).params.ibufCap < (({ unitB with len := 65 }).issue 1).latch.len.toNat :=
  ⟨.decrypt, .inl rfl, by decide⟩

theorem hyp_StepRunsDecodedInstruction :
    unitB.status ≠ .busy ∧
    ((unitB.issue 1).status = .busy ∧ (unitB.issue 1).z.running = false ∧
      decode (unitB.issue 1).z.sel (.command (unitB.issue 1).latch.cmd) = .ok .decrypt) ∧
    decode (unitB.issue 3).z.sel (.command (unitB.issue 3).latch.cmd) = .reject (.illegalCommand 3) ∧
    ((atOp 0).status = .busy ∧ (atOp 0).z.running = true ∧
      decode (atOp 0).z.sel (.stream ((atOp 0).readBytes .ibuf (atOp 0).z.ip ((atOp 0).latch.len.toNat - (atOp 0).z.ip))) =
        .ok (.lz4Seq [0x41] 1 4)) ∧
    (begun [] 0 0 stockVariant).fetchInstr = .reject (.truncated 0 none) := by decide

theorem hyp_DecodeEncodeAgree :
    stockVariant.wf = true ∧
    ∀ i ∈ [Instr.decrypt, .decompress, .lz4Seq [] 0 4, .lz4Seq [0x41] 0xFFFF 19, .lz4End [] 15, .lz4End [0x41] 0],
      i.wellFormed = true := by decide

theorem hyp_SequenceDecodesBeforeRest : stockVariant.wf = true ∧ 4 ≤ 4 := by decide

theorem hyp_EncodingIsUnique :
    stockVariant.wf = true ∧ decodeSequence stockVariant streamA = .ok (.seq [0x41] 1 4) ∧
    decodeSequence stockVariant [0x3f, 0x61, 0x62, 0x63] = .ok (.last [0x61, 0x62, 0x63] 15) := by decide

theorem hyp_EveryTokenLegal : ∀ cv ∈ variantsZ, cv.2.wf = true := by decide

theorem hyp_SequenceFields : 14 < 15 ∧ (254#8).toNat < 255 := by decide

theorem hyp_TruncationPositions :
    (tokenSplit stockVariant 0xf0).1.toNat = 15 ∧
    ((tokenSplit stockVariant 0x20).1.toNat = min 2 15 ∧ [0x41#8].length < 2) ∧
    ((tokenSplit stockVariant 0xf0).1.toNat = min 15 15 ∧ (List.replicate 14 0x41#8).length < 15) ∧
    ((tokenSplit stockVariant 0x1f).1.toNat = min [0x41#8].length 15 ∧ (tokenSplit stockVariant 0x1f).2.toNat = 15) := by
  decide

theorem hyp_MatchCopyRepeats : 1 ≤ 1 ∧ 1 ≤ (atOp 1).z.op := by decide

theorem hyp_SequenceCompletes :
    (atOp 27).params.obufHolds ((atOp 27).z.op + [0x41#8].length + 4) = true ∧ 1 ≤ (28#16).toNat ∧
    (28#16).toNat ≤ (atOp 27).z.op + [0x41#8].length := by decide

theorem hyp_SequenceErrors :
    (atOp 32).params.obufHolds ((atOp 32).z.op + [0x41#8].length) = false ∧
    ((atOp 28).params.obufHolds ((atOp 28).z.op + [0x41#8].length) = true ∧
      (0#16).toNat = 0 ∧ (atOp 28).z.op + [0x41#8].length < (30#16).toNat ∧
      (atOp 28).params.obufHolds ((atOp 28).z.op + [0x41#8].length + 4) = false) := by decide

theorem hyp_LastSequenceCompletes :
    (atOp 31).params.obufHolds ((atOp 31).z.op + [0x41#8].length) = true ∧
    (atOp 4).z.op + [0x41#8].length = (atOp 4).latch.expected.toNat ∧
    (atOp 31).z.op + [0x41#8].length ≠ (atOp 31).latch.expected.toNat := by decide

/-- A DECOMPRESS begun over written bytes runs under R225's conditions. -/
theorem busyReady_begun (bytes : List Byte) (v : Variant)
    (h : ∀ a < (loaded bytes 0 0).len.toNat, ((loaded bytes 0 0).ibuf.get? a).isSome = true)
    (hp : (loaded bytes 0 0).params = unitB.params) (hs : (loaded bytes 0 0).status = .idle) :
    (begun bytes 0 0 v).BusyReady :=
  have hr := ready_of_written bytes 0 0 0 0 h hp hs
  (State.Ready.issued (s := loaded bytes 0 0) ⟨hr.profile, hr.bytes, hr.idle⟩ 2).busyReady.openStream v

theorem hyp_TruncatedSequenceRaises :
    let s := begun [0x10] 0 0 stockVariant
    let t := begun [0x10, 0x41, 0x01] 0 0 stockVariant
    let u := { t with z := { t.z with op := 32 } }
    (s.BusyReady ∧ s.z.running = true ∧ decodeSequence s.z.sel s.streamRest = .reject (.truncated 1 none)) ∧
    (t.BusyReady ∧ t.z.running = true ∧
      decodeSequence t.z.sel t.streamRest = .reject (.truncated 2 (some [0x41])) ∧
      t.params.obufHolds (t.z.op + [0x41#8].length) = true) ∧
    (u.BusyReady ∧ u.z.running = true ∧
      decodeSequence u.z.sel u.streamRest = .reject (.truncated 2 (some [0x41])) ∧
      u.params.obufHolds (u.z.op + [0x41#8].length) = false) :=
  have ht := busyReady_begun [0x10, 0x41, 0x01] stockVariant (by decide) rfl rfl
  ⟨⟨busyReady_begun [0x10] stockVariant (by decide) rfl rfl, by decide⟩, ⟨ht, by decide⟩,
    ⟨ht.profile, ht.bytes, ht.busy⟩, by decide⟩

theorem hyp_DecompressCompletes :
    let s := (loaded streamA 5 0).issue 2
    let t := (loaded streamA 6 0).issue 2
    (s.IssuedReady ∧ s.latch.len.toNat ≤ s.params.ibufCap ∧
      s.params.profile.variants.lookup s.latch.variant = some stockVariant ∧
      s.readBytes .ibuf 0 s.latch.len.toNat = encodeStream stockVariant seqsA ∧
      (∀ q ∈ seqsA, q.wellFormed = true) ∧ expand [] seqsA = some outA ∧ s.params.obufHolds outA.length = true ∧
      outA.length = s.latch.expected.toNat) ∧
    (t.IssuedReady ∧ t.latch.len.toNat ≤ t.params.ibufCap ∧
      t.params.profile.variants.lookup t.latch.variant = some stockVariant ∧
      t.readBytes .ibuf 0 t.latch.len.toNat = encodeStream stockVariant seqsA ∧ t.params.obufHolds outA.length = true ∧
      outA.length ≠ t.latch.expected.toNat) :=
  ⟨⟨(ready_loaded 0 0).issued 2, by decide, by decide, by decide, by decide, by decide, by decide, by decide⟩,
    (ready_of_written streamA 6 0 0 0 (by decide) rfl rfl).issued 2, by decide, by decide, by decide, by decide, by decide⟩

theorem hyp_UnsupportedVariantRaises :
    ((loaded [0x00] 0 7).issue 2).latch.len.toNat ≤ ((loaded [0x00] 0 7).issue 2).params.ibufCap ∧
    ((loaded [0x00] 0 7).issue 2).params.profile.variants.lookup ((loaded [0x00] 0 7).issue 2).latch.variant = none := by
  decide

theorem hyp_CommandsComplete : (unitB.issue 3).status = .busy ∧ (unitB.issue 3).z.running = false := by decide

theorem hyp_DecompressFrame :
    ∃ t u v, exec .decompress (unitB.issue 2) = .next t ∧ exec (.lz4Seq [0x41] 1 4) (atOp 0) = .next u ∧
      exec (.lz4End [] 0) (atOp 0) = .next v := ⟨_, _, _, rfl, rfl, rfl⟩

/-- TP-B's unit with two codes of the stock variant. -/
def twoCodes (expected variant : Word) : State :=
  let s := loaded streamA expected variant
  { s with params := { s.params with profile := { tpB with variants := [(0, stockVariant), (9, stockVariant)] } } }.issue 2

theorem ready_twoCodes (expected variant : Word) : (twoCodes expected variant).IssuedReady :=
  State.Ready.issued (s := { loaded streamA expected variant with
      params := { (loaded streamA expected variant).params with
        profile := { tpB with variants := [(0, stockVariant), (9, stockVariant)] } } })
    ⟨show ({ unitB.params with profile := { tpB with variants := [(0, stockVariant), (9, stockVariant)] } } : Params).wf = true
        by decide,
      (ready_of_written streamA expected variant 0 0
        (show ∀ a < (loaded streamA 5 0).len.toNat, ((loaded streamA 5 0).ibuf.get? a).isSome = true by decide) rfl rfl).bytes,
      show unitB.status ≠ .busy by decide⟩ 2

theorem hyp_OutputIndependentOfExpected :
    let s := twoCodes 5 0
    let s' := twoCodes 6 9
    s.IssuedReady ∧ s'.IssuedReady ∧
    s.latch.len = s'.latch.len ∧ s.latch.variant ≠ s'.latch.variant ∧ s.opVariant? = s'.opVariant? ∧
    s.opVariant? ≠ none ∧ s.params.obufCap = s'.params.obufCap ∧ s.latch.len.toNat ≤ s.params.ibufCap ∧
    s.latch.len.toNat ≤ s'.params.ibufCap ∧
    (∀ a, a < s.latch.len.toNat → s.readByte .ibuf a = s'.readByte .ibuf a) ∧
    (∃ t t', exec .decompress s = .next t ∧ exec .decompress s' = .next t') ∧
    (twoCodes 5 7).opVariant? = none ∧ (twoCodes 5 8).opVariant? = none ∧
    answers (exec .decompress ((loaded [0x10] 0 0).issue 2)) (fun t => t.err != .none && t.err != .sizeMismatch) = true :=
  ⟨ready_twoCodes 5 0, ready_twoCodes 6 9, by decide, by decide, by decide, by decide, by decide, by decide, by decide,
    by decide, ⟨_, _, rfl, rfl⟩, by decide, by decide, by decide⟩

theorem hyp_SequenceStepsReachCommandEnd :
    ((loaded streamA 5 0).issue 2).BusyReady ∧ ((loaded streamA 5 0).issue 2).z.running = false ∧
    ((loaded streamA 5 0).issue 2).latch.cmd = 2#32 :=
  ⟨((ready_loaded 0 0).issued 2).busyReady, by decide⟩

theorem hyp_RegionFlowDecodes :
    ∃ (s : State) (out : List Byte), s.Ready ∧ s.len.toNat ≤ s.params.ibufCap ∧
      s.params.profile.variants.lookup s.variant = some stockVariant ∧
      (encodeStream stockVariant [.last [] 0]).length = s.len.toNat ∧
      (∀ q ∈ [Sequence.last [] 0], q.wellFormed = true) ∧
      (∀ a, a < s.len.toNat → s.readByte .ibuf a =
        if touches s.len.toNat a then
          (encodeStream stockVariant [.last [] 0]).getD a 0 ^^^ keystreamByte s.params.profile (keystreamIndex s.len.toNat a)
        else (encodeStream stockVariant [.last [] 0]).getD a 0) ∧
      expand [] [.last [] 0] = some out ∧ s.params.obufHolds out.length = true ∧ out.length = s.expected.toNat := by
  generalize hk : keystreamByte tpB 0 = k
  have hlen : (region k).len.toNat = 1 := rfl
  have he : encodeStream stockVariant [.last [] 0] = [0x00] := by decide
  refine ⟨region k, [], ready_of_written [0x00 ^^^ k] 0 0 0 0 (fun a ha => ?_) rfl rfl,
    by rw [hlen]; show 1 ≤ 64; omega, rfl, by rw [hlen, he]; rfl, by decide, fun a ha => ?_, rfl, rfl, rfl⟩
  · have h0 : a = 0 := by
      have : a < 1 := ha
      omega
    subst h0
    rfl
  rw [hlen, he] at *
  have h0 : a = 0 := by omega
  subst h0
  rw [if_pos (by decide), show keystreamIndex 1 0 = 0 from rfl]
  exact region_byte k hk.symm

theorem hyp_EventsKeepInvariant :
    (begun streamA 5 0 stockVariant).Inv ∧ ∃ t, sysStep .block (begun streamA 5 0 stockVariant) = .next t :=
  ⟨inv_begun, _, rfl⟩

theorem hyp_StatusTransitions :
    (∃ t, sysStep .reset failed = .next t) ∧ (∃ t, sysStep (.host (.writeReg 0 1)) unitB = .next t) ∧
    answers (sysStep .block (unitB.issue 3)) (fun t => t.status == .error) = true ∧
    answers (sysStep (.host (.writeReg 0 1)) unitB) (fun t => t.status == .busy) = true :=
  ⟨⟨_, rfl⟩, ⟨_, rfl⟩, by decide, by decide⟩

theorem hyp_ProfileNeverWritten :
    (∃ t, sysStep .block (unitB.issue 3) = .next t) ∧ (∀ p, Event.block ≠ .setProfile p) ∧
    (unitB.issue 3).status = .busy ∧ answers (sysStep (.setProfile tpA) unitB) (fun _ => true) = true :=
  ⟨⟨_, rfl⟩, fun _ => by simp, by decide, by decide +kernel⟩

theorem hyp_ErrorsOfEachInstruction :
    (∃ t, exec .decrypt (unitB.issue 1) = .next t) ∧ (∃ t, exec .decompress (unitB.issue 2) = .next t) ∧
    answers (exec (.lz4Seq [0x41] 2 4) (atOp 0)) (fun t => t.status != (atOp 0).status) = true ∧
    ∃ t, exec (.lz4End [] 0) (atOp 0) = .next t := ⟨⟨_, rfl⟩, ⟨_, rfl⟩, by decide, ⟨_, rfl⟩⟩

theorem hyp_ErrorsLeaveIbuf :
    (unitB.issue 3).status = .busy ∧ answers (step (unitB.issue 3)) (fun t => t.status == .error) = true := by decide

theorem hyp_ErrorLastsUntilIssue :
    let s := ((loaded streamA 5 0).issue 3).raise .illegalCommand 3
    (failed.status = .error ∧ answers (sysStep (.host (.writeReg 0 1)) failed) (fun t => t.status != .error) = true ∧
      (3#32) ≠ 1#32 ∧ (3#32) ≠ 2#32) ∧
    s.status = .error ∧ s.Ready :=
  have h := ready_loaded 0 0
  ⟨by decide, rfl, h.profile, h.bytes, by decide⟩

theorem hyp_WaitReachesCommandEnd :
    (unitB.status ≠ .busy ∧ (3#32) ≠ 1#32 ∧ (3#32) ≠ 2#32) ∧ (loaded streamA 5 0).status ≠ .busy ∧
      (loaded streamA 5 0).Ready := ⟨by decide, by decide, ready_loaded 0 0⟩

theorem hyp_HiddenStateUnobservable :
    let hide := fun s : State => ({ s with latch := (atOp 9).latch, c := (atOp 9).c, z := (atOp 9).z } : State)
    (unitB.status ≠ .busy ∧ (3#32) ≠ 1#32 ∧ (3#32) ≠ 2#32 ∧
      ∃ t t', runCommand 3 unitB = .next t ∧ runCommand 3 (hide unitB) = .next t') ∧
    (loaded streamA 5 0).status ≠ .busy ∧ (loaded streamA 5 0).Ready ∧
      ∃ t t', runCommand 2 (loaded streamA 5 0) = .next t ∧ runCommand 2 (hide (loaded streamA 5 0)) = .next t' :=
  ⟨⟨by decide, by decide, by decide, _, _, rfl, rfl⟩, by decide, ready_loaded 0 0, _, _, rfl, rfl⟩

theorem hyp_UnitsIndependent :
    ∃ us', unitsStep 1 .reset [unitB, { failed with unit := 1 }] = some us' ∧ 0 ≠ 1 := ⟨_, rfl, by decide⟩

end Sys2Proof.Tests
end

section
/-!
What one event can do to a unit, said once: a step of the block (spec/44_host_commands.md R172), a move of the host
(R175 to R177), an event (R13). Every claim about all events is a case analysis over these.
-/
namespace Sys2Proof.Machine

variable {s t : State}

/-! ### A step of the block -/

/-- A command word is one of R71's two, or it is illegal (R72). -/
theorem decodeCommand_cases (w : Word) :
    (w = 0x00000001#32 ∧ decodeCommand w = .ok .decrypt) ∨
    (w = 0x00000002#32 ∧ decodeCommand w = .ok .decompress) ∨
    (w ≠ 0x00000001#32 ∧ w ≠ 0x00000002#32 ∧ decodeCommand w = .reject (.illegalCommand w)) := by
  by_cases h1 : w = 0x00000001#32
  · subst h1; exact .inl ⟨rfl, rfl⟩
  by_cases h2 : w = 0x00000002#32
  · subst h2; exact .inr (.inl ⟨rfl, rfl⟩)
  refine .inr (.inr ⟨h1, h2, ?_⟩)
  have n1 : w.toNat ≠ 1 := fun h => h1 (BitVec.eq_of_toNat_eq h)
  have n2 : w.toNat ≠ 2 := fun h => h2 (BitVec.eq_of_toNat_eq h)
  unfold decodeCommand
  split
  · rfl
  · rw [if_neg (by omega), if_neg (by omega)]

@[simp] theorem stepDecoded_ok (i : Instr) (s : State) : stepDecoded (.ok i) s = exec i s := rfl

@[simp] theorem stepDecoded_reject (r : Reject) (s : State) : stepDecoded (.reject r) s = .next (rejected r s) := rfl

/-- Outside a command the block does nothing (R13). -/
theorem step_of_not_busy (h : s.status ≠ .busy) : step s = .next s := if_neg h

/-- An issued command that has not begun: the step runs the word in the latch (R71, R172). -/
theorem step_of_command (hb : s.status = .busy) (hr : s.z.running = false) :
    step s = stepDecoded s.fetchCommand s := by
  simp [step, hb, hr]

/-- Inside a DECOMPRESS: the step runs the sequence at `ip` (R145, R147). -/
theorem step_of_running (hb : s.status = .busy) (hr : s.z.running = true) :
    step s = stepDecoded s.fetchInstr s := by
  simp [step, hb, hr]

/-- The sequence at `ip` as an instruction is one iteration of the stream loop (R147). -/
theorem stepDecoded_fetchInstr (s : State) : stepDecoded s.fetchInstr s = .next (sequenceStep s) := by
  unfold State.fetchInstr sequenceStep State.fetchSequence
  cases h : decodeSequence s.z.sel s.streamRest with
  | ok q => cases q <;> simp only [decode, h] <;> rfl
  | reject r => simp only [decode, h, stepDecoded_reject]

/-- What a step of the block can do. -/
inductive BlockStep (s : State) : State → Prop
  | outside (hb : s.status ≠ .busy) : BlockStep s s
  | sequence (hb : s.status = .busy) (hr : s.z.running = true) : BlockStep s (sequenceStep s)
  | decrypt (hb : s.status = .busy) (hr : s.z.running = false) (hw : s.latch.cmd = 0x00000001#32) :
    BlockStep s (decryptCommand s)
  | decompress (hb : s.status = .busy) (hr : s.z.running = false) (hw : s.latch.cmd = 0x00000002#32) :
    BlockStep s (decompressCommand s)
  | illegal (hb : s.status = .busy) (hr : s.z.running = false) (h1 : s.latch.cmd ≠ 0x00000001#32)
    (h2 : s.latch.cmd ≠ 0x00000002#32) : BlockStep s (s.raise .illegalCommand s.latch.cmd.toNat)

/-- Every step of the block answers one of the states `BlockStep` lists. -/
theorem step_blockStep (s : State) : ∃ t, step s = .next t ∧ BlockStep s t := by
  by_cases hb : s.status = .busy
  · cases hr : s.z.running with
    | true => exact ⟨_, (step_of_running hb hr).trans (stepDecoded_fetchInstr s), .sequence hb hr⟩
    | false =>
      have hs := step_of_command hb hr
      obtain ⟨hw, hd⟩ | ⟨hw, hd⟩ | ⟨h1, h2, hd⟩ := decodeCommand_cases s.latch.cmd
      · exact ⟨_, hs.trans (congrArg (stepDecoded · s) hd), .decrypt hb hr hw⟩
      · exact ⟨_, hs.trans (congrArg (stepDecoded · s) hd), .decompress hb hr hw⟩
      · exact ⟨_, hs.trans (congrArg (stepDecoded · s) hd), .illegal hb hr h1 h2⟩
  · exact ⟨s, step_of_not_busy hb, .outside hb⟩

theorem BlockStep.of_step (h : step s = .next t) : BlockStep s t := by
  obtain ⟨u, hu, hs⟩ := step_blockStep s
  cases hu.symm.trans h
  exact hs

/-! ### A move of the host -/

/-- What a move of the host can do to a unit. -/
inductive HostEffect (s : State) : HostMove → State → Prop
  | unchanged (m : HostMove) : HostEffect s m s
  | issue (w : Word) (hb : s.status ≠ .busy) : HostEffect s (.writeReg 0 w) (s.issue w)
  | setLen (v : Word) (hb : s.status ≠ .busy) : HostEffect s (.writeReg 4 v) { s with len := v }
  | setExpected (v : Word) (hb : s.status ≠ .busy) : HostEffect s (.writeReg 5 v) { s with expected := v }
  | setVariant (v : Word) (hb : s.status ≠ .busy) : HostEffect s (.writeReg 6 v) { s with variant := v }
  | draw (m : HostMove) (hb : s.status = .busy) : HostEffect s m { s with draws := s.draws + 1 }
  | store (a : Nat) (v : Byte) (hb : s.status ≠ .busy) (ha : s.inSpace .ibuf a = true) :
    HostEffect s (.writeIbuf a v) (s.writeByte .ibuf a v)

theorem HostEffect.of_writeReg (n : Nat) (v : Word) (s : State) : HostEffect s (.writeReg n v) (s.writeReg n v) := by
  unfold State.writeReg
  split
  · exact .unchanged _
  · next hb =>
    split
    · exact .issue v hb
    · exact .setLen v hb
    · exact .setExpected v hb
    · exact .setVariant v hb
    · exact .unchanged _

theorem HostEffect.of_readPort (m : HostMove) {sp : Space} {a : Nat} {x : Answer} (h : s.readPort sp a = (t, x)) :
    HostEffect s m t := by
  unfold State.readPort at h
  split at h
  · next hb => cases h; exact .draw m hb
  · cases h; exact .unchanged m

theorem HostEffect.of_writePort (a : Nat) (v : Byte) (ha : s.inSpace .ibuf a = true) :
    HostEffect s (.writeIbuf a v) (s.writePort a v) := by
  unfold State.writePort
  split
  · exact .unchanged _
  · next hb => exact .store a v hb ha

theorem HostEffect.of_hostMove {m : HostMove} {x : Answer} (h : hostMove m s = .next (t, x)) : HostEffect s m t := by
  cases m with
  | writeReg n v => cases h; exact .of_writeReg n v s
  | readReg n => cases h; exact .unchanged _
  | writeIbuf a v =>
    simp only [hostMove] at h
    split at h
    · next ha => cases h; exact .of_writePort a v ha
    · cases h
  | readIbuf a =>
    simp only [hostMove] at h
    split at h
    · exact .of_readPort _ (Host.Outcome.next.inj h)
    · cases h
  | readObuf a =>
    simp only [hostMove] at h
    split at h
    · exact .of_readPort _ (Host.Outcome.next.inj h)
    · cases h

/-! ### An event -/

/-- What an event can do to a unit. -/
inductive EventEffect (s : State) : Event → State → Prop
  | reset : EventEffect s .reset s.hostReset
  | host {m : HostMove} {t : State} (h : HostEffect s m t) : EventEffect s (.host m) t
  | block {t : State} (h : BlockStep s t) : EventEffect s .block t
  | noBegin : EventEffect s .beginDecompress s
  | openDecompress (hb : s.status = .busy) (hr : s.z.running = false) (hw : s.latch.cmd = 0x00000002#32) :
    EventEffect s .beginDecompress (decompressOpen s)
  | setProfile (p : Profile) (hb : s.status ≠ .busy) (hp : p.wf = true) :
    EventEffect s (.setProfile p) { s with params := { s.params with profile := p } }

theorem cmd_of_fetchCommand_decompress (h : s.fetchCommand = .ok .decompress) : s.latch.cmd = 0x00000002#32 := by
  have hc : decodeCommand s.latch.cmd = .ok .decompress := h
  obtain ⟨-, hd⟩ | ⟨hw, -⟩ | ⟨-, -, hd⟩ := decodeCommand_cases s.latch.cmd
  · simp [hd] at hc
  · exact hw
  · simp [hd] at hc

theorem EventEffect.of_beginDecompress (s : State) : EventEffect s .beginDecompress (beginDecompress s) := by
  unfold beginDecompress
  split
  · next h =>
    obtain ⟨hb, hr, hf⟩ := h
    exact .openDecompress hb hr (cmd_of_fetchCommand_decompress hf)
  · exact .noBegin

theorem EventEffect.of_sysStep {e : Event} (h : sysStep e s = .next t) : EventEffect s e t := by
  cases e with
  | reset => cases h; exact .reset
  | host m =>
    simp only [sysStep] at h
    split at h
    · next u x hm => cases h; exact .host (.of_hostMove hm)
    · cases h
    · cases h
  | block => exact .block (.of_step h)
  | beginDecompress => cases h; exact .of_beginDecompress s
  | setProfile p =>
    simp only [sysStep] at h
    split at h
    · cases h
    · next hb =>
      split at h
      · next hp => cases h; exact .setProfile p hb hp
      · cases h

end Sys2Proof.Machine
end

section
/-!
What the two commands write (spec/42_cipher_modes.md R121 to R124, spec/43_lz4_decompress.md R148): the frame of a
DECRYPT's body, and how a DECOMPRESS starts and ends.
-/
namespace Sys2Proof.Machine

variable {s t u : State}

/-! ### Unit C -/

theorem strideStep_pos (n : Nat) : 1 ≤ strideStep n := Nat.le_max_left _ _

/-- A sample is no longer than a block in large-buffer mode (R122). -/
theorem strideStep_le {n : Nat} (hn : 256 < n) : strideStep n ≤ 16 := by
  have h : 256 / numBlocks n ≤ 256 / 16 := Nat.div_le_div_left (by unfold numBlocks; omega) (by decide)
  exact Nat.max_le.2 ⟨by decide, h⟩

/-- The samples together fit SCRATCH (R122, R123). -/
theorem strideStep_mul_strideCount_le (n : Nat) : strideStep n * strideCount n ≤ 256 := by
  unfold strideStep strideCount
  by_cases h : numBlocks n ≤ 256
  · rw [Nat.min_eq_left h]
    rcases Nat.le_total (256 / numBlocks n) 1 with h1 | h1
    · rw [Nat.max_eq_left h1]; omega
    · rw [Nat.max_eq_right h1]; exact Nat.div_mul_le_self _ _
  · rw [Nat.div_eq_of_lt (by omega), Nat.min_eq_right (by omega)]; decide

/-- A DECRYPT of `n` bytes touches no byte from `n` on (R124). -/
theorem lt_of_touches {n a : Nat} (h : touches n a = true) : a < n := by
  unfold touches at h
  split at h
  · exact of_decide_eq_true h
  · have hj := of_decide_eq_true (Bool.and_eq_true_iff.1 h).1
    have hn : a / 16 < n / 16 := Nat.lt_of_lt_of_le hj (Nat.min_le_left _ _)
    omega

/-- What the body of a DECRYPT of `n` bytes can do: `u` is `s` but for touched bytes of IBUF, the first 256 bytes of
SCRATCH and unit C's registers. -/
structure DecryptFrame (n : Nat) (s u : State) : Prop where
  eq : u = { s with ibuf := u.ibuf, c := u.c }
  ibufWf : Memory.wf s.ibuf → Memory.wf u.ibuf
  scratchWf : Memory.wf s.c.scratch → Memory.wf u.c.scratch
  ibufListed : ∀ x ∈ u.ibuf, touches n x.1 = true ∨ x ∈ s.ibuf
  scratchListed : ∀ x ∈ u.c.scratch, x.1 < 256 ∨ x ∈ s.c.scratch
  ibufSame : ∀ a, touches n a = false → u.ibuf.get? a = s.ibuf.get? a

namespace DecryptFrame

variable {n : Nat} {R : Nat → Prop}

theorem trans (h : DecryptFrame n s t) (k : DecryptFrame n t u) : DecryptFrame n s u where
  eq := by rw [k.eq, h.eq]
  ibufWf := fun w => k.ibufWf (h.ibufWf w)
  scratchWf := fun w => k.scratchWf (h.scratchWf w)
  ibufListed := fun x hx => (k.ibufListed x hx).elim .inl (h.ibufListed x)
  scratchListed := fun x hx => (k.scratchListed x hx).elim .inl (h.scratchListed x)
  ibufSame := fun a ha => (k.ibufSame a ha).trans (h.ibufSame a ha)

/-- A change of IBUF at touched bytes. -/
theorem of_ibuf (h : Changes .ibuf R s u) (hR : ∀ a, R a → touches n a = true) : DecryptFrame n s u where
  eq := by rw [h.eq]; rfl
  ibufWf := h.wf
  scratchWf := by rw [← State.mem_scratch, ← State.mem_scratch, h.mem_ne (by decide)]; exact id
  ibufListed := fun x hx => (h.listed x hx).imp_left (hR x.1)
  scratchListed := fun x hx => .inr (by rwa [← State.mem_scratch, h.mem_ne (by decide)] at hx)
  ibufSame := fun a ha => h.same a fun hr => by simp [hR a hr] at ha

/-- A change of SCRATCH below 256. -/
theorem of_scratch (h : Changes .scratch R s u) (hR : ∀ a, R a → a < 256) : DecryptFrame n s u where
  eq := by rw [h.eq]; rfl
  ibufWf := by rw [← State.mem_ibuf, ← State.mem_ibuf, h.mem_ne (by decide)]; exact id
  scratchWf := h.wf
  ibufListed := fun x hx => .inr (by rwa [← State.mem_ibuf, h.mem_ne (by decide)] at hx)
  scratchListed := fun x hx => (h.listed x hx).imp_left (hR x.1)
  ibufSame := fun a _ => by rw [← State.mem_ibuf, ← State.mem_ibuf, h.mem_ne (by decide)]

end DecryptFrame

/-- Large-buffer mode gathers samples to SCRATCH, decrypts them there and scatters them back (R123). -/
theorem decryptLarge_frame {n : Nat} (hn : 256 < n) (s : State) : DecryptFrame n s (decryptLarge n s) := by
  have hfit := strideStep_mul_strideCount_le n
  unfold decryptLarge
  refine ((DecryptFrame.of_scratch (gather_loop _ _ s (strideStep_pos n)).1 fun a ha => ?_).trans
    (.of_scratch (decryptSmall_changes .scratch _ _) fun a ha => Nat.lt_of_lt_of_le ha hfit)).trans
    (.of_ibuf (scatter_loop _ _ _ (strideStep_pos n) (strideStep_le hn)).1 fun a ha => ?_)
  · rw [Nat.mul_comm] at ha; exact Nat.lt_of_lt_of_le ha hfit
  · simpa [touches, Nat.not_le.2 hn] using ha

/-- The body of a DECRYPT keeps to its frame, in both modes (R124). -/
theorem decryptBuffer_frame (n : Nat) (s : State) : DecryptFrame n s (decryptBuffer n s) := by
  unfold decryptBuffer
  split
  · next hn => exact .of_ibuf (decryptSmall_changes .ibuf n s) fun a ha => by simpa [touches, hn] using ha
  · next hn => exact decryptLarge_frame (by omega) s

/-! ### Unit Z -/

/-- A DECOMPRESS that has been issued fails one of its two checks, or begins its stream (R148, R172). -/
theorem decompressOpen_cases (s : State) :
    (s.params.ibufCap < s.opLen ∧ decompressOpen s = s.raise .lengthRange s.opLen) ∨
    (s.opLen ≤ s.params.ibufCap ∧ s.opVariant? = none ∧
      decompressOpen s = (s.setProduced 0).raise .unsupportedCompressionType s.latch.variant.toNat) ∨
    ∃ v, s.opLen ≤ s.params.ibufCap ∧ s.opVariant? = some v ∧ decompressOpen s = s.openStream v := by
  unfold decompressOpen State.lenInRange
  by_cases hl : s.opLen ≤ s.params.ibufCap
  · cases hv : s.opVariant? with
    | none => simp [hl]
    | some v => simp [hl]
  · exact .inl ⟨Nat.lt_of_not_le hl, if_neg (by simpa using hl)⟩

theorem runStream_of_not_running {fuel : Nat} (h : s.z.running = false) : runStream fuel s = s := by
  cases fuel <;> simp [runStream, h]

/-- A DECOMPRESS ends in one of its two checks, or extends the output of its stream until that has ended (R147,
R148). -/
theorem decompressCommand_cases (s : State) :
    (s.params.ibufCap < s.opLen ∧ decompressCommand s = s.raise .lengthRange s.opLen) ∨
    (s.opLen ≤ s.params.ibufCap ∧ s.opVariant? = none ∧
      decompressCommand s = (s.setProduced 0).raise .unsupportedCompressionType s.latch.variant.toNat) ∨
    ∃ v, s.opLen ≤ s.params.ibufCap ∧ s.opVariant? = some v ∧
      Extends (s.openStream v) (decompressCommand s) ∧ Ended (decompressCommand s) := by
  unfold decompressCommand
  obtain ⟨hl, ho⟩ | ⟨hl, hv, ho⟩ | ⟨v, hl, hv, ho⟩ := decompressOpen_cases s
  · exact .inl ⟨hl, by rw [ho, runStream_of_not_running rfl]⟩
  · exact .inr (.inl ⟨hl, hv, by rw [ho, runStream_of_not_running rfl]⟩)
  · rw [ho]
    exact .inr (.inr ⟨v, hl, hv, extends_runStream _ _, ended_runStream rfl (Nat.zero_le _) (Nat.le_add_left _ _)⟩)

/-! ### The parameters and the unit -/

/-- `t` has the parameters (R7, R39) and the unit index (R212) of `s`. -/
structure SameDevice (s t : State) : Prop where
  params : t.params = s.params
  unit : t.unit = s.unit

theorem Extends.sameDevice (h : Extends s u) : SameDevice s u := ⟨h.params, h.unit⟩

theorem DecryptFrame.sameDevice {n : Nat} (h : DecryptFrame n s u) : SameDevice s u := by
  rw [h.eq]; exact ⟨rfl, rfl⟩

theorem decryptCommand_sameDevice (s : State) : SameDevice s (decryptCommand s) := by
  unfold decryptCommand
  split
  · have h := (decryptBuffer_frame s.opLen s).sameDevice
    exact ⟨h.params, h.unit⟩
  · exact ⟨rfl, rfl⟩

theorem decompressOpen_sameDevice (s : State) : SameDevice s (decompressOpen s) := by
  obtain ⟨-, h⟩ | ⟨-, -, h⟩ | ⟨v, -, -, h⟩ := decompressOpen_cases s <;> rw [h] <;> exact ⟨rfl, rfl⟩

theorem decompressCommand_sameDevice (s : State) : SameDevice s (decompressCommand s) := by
  obtain ⟨-, h⟩ | ⟨-, -, h⟩ | ⟨v, -, -, h, -⟩ := decompressCommand_cases s
  · rw [h]; exact ⟨rfl, rfl⟩
  · rw [h]; exact ⟨rfl, rfl⟩
  · exact ⟨h.params, h.unit⟩

theorem BlockStep.sameDevice (h : BlockStep s t) : SameDevice s t := by
  cases h with
  | outside => exact ⟨rfl, rfl⟩
  | sequence => exact (sequenceStep_cases s).1.sameDevice
  | decrypt => exact decryptCommand_sameDevice s
  | decompress => exact decompressCommand_sameDevice s
  | illegal => exact ⟨rfl, rfl⟩

theorem HostEffect.sameDevice {m : HostMove} (h : HostEffect s m t) : SameDevice s t := by
  cases h <;> exact ⟨rfl, rfl⟩

/-- Every event keeps the parameters and the unit index, but for another profile put in place between commands
(R232). -/
theorem EventEffect.sameDevice_or_setProfile {e : Event} (h : EventEffect s e t) :
    SameDevice s t ∨ ∃ p, e = .setProfile p ∧ s.status ≠ .busy ∧
      t = { s with params := { s.params with profile := p } } := by
  cases h with
  | reset => exact .inl ⟨rfl, rfl⟩
  | host h => exact .inl h.sameDevice
  | block h => exact .inl h.sameDevice
  | noBegin => exact .inl ⟨rfl, rfl⟩
  | openDecompress => exact .inl (decompressOpen_sameDevice s)
  | setProfile p hb => exact .inr ⟨p, rfl, hb, rfl⟩

theorem EventEffect.unit {e : Event} (h : EventEffect s e t) : t.unit = s.unit := by
  obtain hs | ⟨p, -, -, rfl⟩ := h.sameDevice_or_setProfile
  · exact hs.unit
  · rfl

end Sys2Proof.Machine
end

section
/-!
The invariant of the machine (`State.Inv`) in its two parts, what keeps each, and the statements about every event.
-/
namespace Sys2Proof.Machine

variable {s t u : State}

/-- The part of the invariant about the parameters and the memories (R8, R50). -/
structure State.StorageOk (s : State) : Prop where
  params : s.params.wf = true
  ibufWf : Memory.wf s.ibuf
  obufWf : Memory.wf s.obuf
  scratchWf : Memory.wf s.c.scratch
  ibufIn : ∀ x ∈ s.ibuf, s.inSpace .ibuf x.1 = true
  obufIn : ∀ x ∈ s.obuf, s.inSpace .obuf x.1 = true
  scratchIn : ∀ x ∈ s.c.scratch, s.inSpace .scratch x.1 = true

/-- The part of the invariant about the command in progress and its report (R24, R29, R30, R38, R172, R190). -/
structure State.ControlOk (s : State) : Prop where
  errIff : s.err = .none ↔ s.status ≠ .error
  errRaised : s.err ≠ .notRecognized
  infoZero : s.status ≠ .error → s.errInfo = 0
  latched : s.status = .busy →
    s.latch.len = s.len ∧ s.latch.expected = s.expected ∧ s.latch.variant = s.variant
  running : s.z.running = true →
    s.status = .busy ∧ s.latch.cmd = 0x00000002#32 ∧ s.opLen ≤ s.params.ibufCap ∧
      s.opVariant? = some s.z.sel ∧ s.z.ip ≤ s.opLen ∧ s.params.obufHolds s.z.op = true

theorem State.Inv.storageOk (h : s.Inv) : s.StorageOk := { h with }

theorem State.Inv.controlOk (h : s.Inv) : s.ControlOk := { h with }

theorem State.StorageOk.inv (h : s.StorageOk) (k : s.ControlOk) : s.Inv := { h, k with }

/-! ### What keeps the memories -/

/-- What a DECRYPT of `n` bytes that IBUF holds writes stands at addresses that exist. -/
theorem State.StorageOk.decrypt {n : Nat} (h : s.StorageOk) (hu : DecryptFrame n s u) (hn : n ≤ s.params.ibufCap) :
    u.StorageOk := by
  have hp : u.params = s.params := hu.sameDevice.params
  have ho : u.obuf = s.obuf := by rw [hu.eq]
  exact {
    params := hp ▸ h.params
    ibufWf := hu.ibufWf h.ibufWf
    obufWf := ho ▸ h.obufWf
    scratchWf := hu.scratchWf h.scratchWf
    ibufIn := fun x hx => by
      rw [State.inSpace, hp]
      rcases hu.ibufListed x hx with hx | hx
      · exact decide_eq_true (Nat.lt_of_lt_of_le (lt_of_touches hx) hn)
      · exact h.ibufIn x hx
    obufIn := fun x hx => by
      rw [State.inSpace, hp]
      exact h.obufIn x (ho ▸ hx)
    scratchIn := fun x hx => (hu.scratchListed x hx).elim decide_eq_true (h.scratchIn x) }

/-- Output that fits OBUF stands at addresses that exist (R142, R144). -/
theorem State.StorageOk.extend (h : s.StorageOk) (hu : Extends s u) (ho : s.params.obufHolds s.z.op = true) :
    u.StorageOk where
  params := hu.params ▸ h.params
  ibufWf := hu.ibuf ▸ h.ibufWf
  obufWf := hu.wf h.obufWf
  scratchWf := hu.c ▸ h.scratchWf
  ibufIn := fun x hx => by
    rw [State.inSpace, hu.params]
    exact h.ibufIn x (hu.ibuf ▸ hx)
  obufIn := fun x hx => by
    rw [State.inSpace, hu.params]
    rcases hu.listed x hx with ⟨-, hx⟩ | hx
    · exact Params.obufHolds_mono hx (hu.holds ho)
    · exact h.obufIn x hx
  scratchIn := fun x hx => h.scratchIn x (hu.c ▸ hx)

theorem State.StorageOk.store (h : s.StorageOk) {a : Nat} (v : Byte) (ha : s.inSpace .ibuf a = true) :
    (s.writeByte .ibuf a v).StorageOk :=
  { h with
    ibufWf := Memory.wf_put h.ibufWf a v
    ibufIn := fun x hx => by
      rcases Memory.mem_put hx with rfl | hx
      · exact ha
      · exact h.ibufIn x hx }

/-- A legal profile beside the old capacities (R8, R232). -/
theorem State.StorageOk.setProfile (h : s.StorageOk) {p : Profile} (hp : p.wf = true) :
    ({ s with params := { s.params with profile := p } } : State).StorageOk :=
  { h with
    params := by
      have hw := h.params
      simp only [Params.wf, Bool.and_eq_true] at hw ⊢
      exact ⟨⟨hp, hw.1.2⟩, hw.2⟩ }

/-! ### What keeps the report and the command -/

/-- A command that ended without error (R28 to R30). -/
theorem State.controlOk_of_done (hs : u.status = .done) (he : u.err = .none) (hi : u.errInfo = 0)
    (hr : u.z.running = false) : u.ControlOk where
  errIff := by simp [hs, he]
  errRaised := by simp [he]
  infoZero := fun _ => hi
  latched := by simp [hs]
  running := by simp [hr]

/-- A command that ended with one of the errors this block raises (R190). -/
theorem State.controlOk_of_error (hs : u.status = .error) (he : u.err ≠ .none) (hn : u.err ≠ .notRecognized)
    (hr : u.z.running = false) : u.ControlOk where
  errIff := by simp [hs, he]
  errRaised := hn
  infoZero := fun h => absurd hs h
  latched := by simp [hs]
  running := by simp [hr]

theorem Ended.controlOk (h : Ended u) : u.ControlOk := by
  obtain ⟨hs, he, hi⟩ | ⟨hs, he⟩ := h.outcome
  · exact State.controlOk_of_done hs he hi h.running
  · refine State.controlOk_of_error hs ?_ ?_ h.running <;> rcases he with he | he | he | he <;> simp [he]

/-- An issue latches the operand registers (R38, R171). -/
theorem State.controlOk_issue (s : State) (w : Word) : (s.issue w).ControlOk where
  errIff := by simp
  errRaised := by simp
  infoZero := fun _ => rfl
  latched := fun _ => ⟨rfl, rfl, rfl⟩
  running := by simp

/-- A stream begun after the checks of its command (R148, R172). -/
theorem State.ControlOk.openStream (h : s.ControlOk) {v : Variant} (hb : s.status = .busy)
    (hw : s.latch.cmd = 0x00000002#32) (hl : s.opLen ≤ s.params.ibufCap) (hv : s.opVariant? = some v) :
    (s.openStream v).ControlOk :=
  { h with running := fun _ => ⟨hb, hw, hl, hv, Nat.zero_le _, Params.obufHolds_zero s.params⟩ }

/-- A sequence after which the stream goes on, inside it (R147). -/
theorem State.ControlOk.goesOn (h : s.ControlOk) (hu : Extends s u) (hg : GoesOn s u) (hip : u.z.ip ≤ s.opLen) :
    u.ControlOk where
  errIff := by rw [hg.err, hg.status]; exact h.errIff
  errRaised := hg.err ▸ h.errRaised
  infoZero := by rw [hg.status, hg.errInfo]; exact h.infoZero
  latched := by rw [hg.status, hu.latch, hu.len, hu.expected, hu.variant]; exact h.latched
  running := fun hr => by
    obtain ⟨hb, hw, hl, hv, -, ho⟩ := h.running (hg.running ▸ hr)
    have hlen : u.opLen = s.opLen := by rw [State.opLen, hu.latch]; rfl
    have hvar : u.opVariant? = s.opVariant? := by rw [State.opVariant?, hu.latch, hu.params]; rfl
    rw [hg.status, hu.latch, hlen, hvar, hu.params, hu.sel]
    exact ⟨hb, hw, hl, hv, hip, hu.holds ho⟩

/-- Outside a command no stream runs. -/
theorem State.ControlOk.not_running (h : s.ControlOk) (hb : s.status ≠ .busy) : s.z.running = false := by
  rw [← Bool.not_eq_true]
  exact fun hr => hb (h.running hr).1

/-! ### What keeps the invariant -/

/-- The open parameters are legal (R8). -/
theorem config_params_wf : Config.params.wf = true := (@Config.openParams ⟨Config.someLegalParams⟩).property

/-- A reset meets the invariant, whatever legal parameters stand (R29, R40, R50, R220). -/
theorem State.inv_afterReset {p : Params} (hp : p.wf = true) (unit epoch draws : Nat) :
    (State.afterReset p unit epoch draws).Inv where
  params := hp
  ibufWf := Memory.wf_nil
  obufWf := Memory.wf_nil
  scratchWf := Memory.wf_nil
  ibufIn := fun _ hx => absurd hx List.not_mem_nil
  obufIn := fun _ hx => absurd hx List.not_mem_nil
  scratchIn := fun _ hx => absurd hx List.not_mem_nil
  errIff := by simp [State.afterReset]
  errRaised := by simp [State.afterReset]
  infoZero := fun _ => rfl
  latched := by simp [State.afterReset]
  running := by simp [State.afterReset]

/-- An error ends the command and touches no memory (R195). -/
theorem State.StorageOk.inv_raise (h : s.StorageOk) {e : ErrCode} (info : Nat) (he : e ≠ .none)
    (hn : e ≠ .notRecognized) : (s.raise e info).Inv :=
  State.StorageOk.inv { h with } (State.controlOk_of_error rfl he hn rfl)

theorem State.Inv.sequenceStep (h : s.Inv) (hr : s.z.running = true) : (sequenceStep s).Inv := by
  obtain ⟨-, -, -, -, -, ho⟩ := h.running hr
  obtain ⟨hu, ⟨hg, -, hip⟩ | hend⟩ := sequenceStep_cases s
  · exact (h.storageOk.extend hu ho).inv (h.controlOk.goesOn hu hg hip)
  · exact (h.storageOk.extend hu ho).inv hend.controlOk

theorem State.StorageOk.inv_decryptCommand (h : s.StorageOk) : (decryptCommand s).Inv := by
  unfold decryptCommand
  split
  · next hl =>
    have hs := h.decrypt (decryptBuffer_frame s.opLen s) (of_decide_eq_true hl)
    exact State.StorageOk.inv { hs with } (State.controlOk_of_done rfl rfl rfl rfl)
  · exact h.inv_raise _ (by decide) (by decide)

theorem State.StorageOk.inv_decompressCommand (h : s.StorageOk) : (decompressCommand s).Inv := by
  obtain ⟨-, hd⟩ | ⟨-, -, hd⟩ | ⟨v, -, -, hu, hend⟩ := decompressCommand_cases s
  · rw [hd]; exact h.inv_raise _ (by decide) (by decide)
  · have hs : (s.setProduced 0).StorageOk := { h with }
    rw [hd]; exact hs.inv_raise _ (by decide) (by decide)
  · have hs : (s.openStream v).StorageOk := { h with }
    exact (hs.extend hu (Params.obufHolds_zero s.params)).inv hend.controlOk

theorem State.Inv.decompressOpen (h : s.Inv) (hb : s.status = .busy) (hw : s.latch.cmd = 0x00000002#32) :
    (decompressOpen s).Inv := by
  obtain ⟨-, hd⟩ | ⟨-, -, hd⟩ | ⟨v, hl, hv, hd⟩ := decompressOpen_cases s
  · rw [hd]; exact h.storageOk.inv_raise _ (by decide) (by decide)
  · have hs : (s.setProduced 0).StorageOk := { h.storageOk with }
    rw [hd]; exact hs.inv_raise _ (by decide) (by decide)
  · rw [hd]; exact State.StorageOk.inv { h.storageOk with } (h.controlOk.openStream hb hw hl hv)

theorem BlockStep.inv (hs : BlockStep s t) (h : s.Inv) : t.Inv := by
  cases hs with
  | outside => exact h
  | sequence _ hr => exact h.sequenceStep hr
  | decrypt => exact h.storageOk.inv_decryptCommand
  | decompress => exact h.storageOk.inv_decompressCommand
  | illegal => exact h.storageOk.inv_raise _ (by decide) (by decide)

theorem HostEffect.inv {m : HostMove} (hm : HostEffect s m t) (h : s.Inv) : t.Inv := by
  cases hm with
  | unchanged => exact h
  | issue w => exact State.StorageOk.inv { h.storageOk with } (s.controlOk_issue w)
  | setLen _ hb | setExpected _ hb | setVariant _ hb => exact { h with latched := fun hb' => absurd hb' hb }
  | draw => exact { h with }
  | store a v _ ha => exact (h.storageOk.store v ha).inv { h.controlOk with }

theorem EventEffect.inv {e : Event} (he : EventEffect s e t) (h : s.Inv) : t.Inv := by
  cases he with
  | reset => exact State.inv_afterReset h.params _ _ _
  | host hm => exact hm.inv h
  | block hs => exact hs.inv h
  | noBegin => exact h
  | openDecompress hb _ hw => exact h.decompressOpen hb hw
  | setProfile p hb hp =>
    have hr := h.controlOk.not_running hb
    exact (h.storageOk.setProfile hp).inv { h.controlOk with running := fun hr' => by simp [hr] at hr' }

/-! ### Several units -/

/-- An event at unit `k` replaces that unit by its own result (R212). -/
theorem unitsStep_some {k : Nat} {e : Event} {us us' : List State} (h : unitsStep k e us = some us') :
    ∃ s t, us[k]? = some s ∧ sysStep e s = .next t ∧ us' = us.set k t := by
  unfold unitsStep at h
  split at h
  · cases h
  · next s hs =>
    split at h
    · next t ht => cases h; exact ⟨s, t, hs, ht, rfl⟩
    · cases h
    · cases h

/-! ### The statements -/

/-- Settles O52, by the two parts of the invariant, for each effect an event can have. -/
theorem eventsKeepInvariant : Obligations.EventsKeepInvariant := fun _ _ _ h he => (EventEffect.of_sysStep he).inv h

/-- Settles O54: of all effects only the platform's change concerns the parameters, and it leaves the capacities. -/
theorem profileNeverWritten : Obligations.ProfileNeverWritten := by
  intro e s t h
  obtain hs | ⟨p, rfl, hb, rfl⟩ := (EventEffect.of_sysStep h).sameDevice_or_setProfile
  · exact ⟨fun _ => hs.params, fun _ => hs.params, by rw [hs.params], by rw [hs.params]⟩
  · exact ⟨fun hne => absurd rfl (hne p), fun hb' => absurd hb' hb, rfl, rfl⟩

/-- Settles O31, from what a step fetches in each of its three situations. -/
theorem stepRunsDecodedInstruction : Obligations.StepRunsDecodedInstruction := by
  refine fun s => ⟨step_of_not_busy, fun hb hr => ?_, fun hb hr => ?_⟩
  · rw [step_of_command hb hr]
    exact ⟨fun i hi => congrArg (stepDecoded · s) hi, fun r hd => congrArg (stepDecoded · s) hd⟩
  · rw [step_of_running hb hr]
    exact ⟨fun i hi => congrArg (stepDecoded · s) hi, fun r hd => congrArg (stepDecoded · s) hd⟩

/-- Settles O51: the open parameters are legal. -/
theorem resetMeetsInvariant : Obligations.ResetMeetsInvariant := State.inv_afterReset config_params_wf 0 0 0

/-- Settles O60: the event's result replaces its unit, and has that unit's index. -/
theorem unitsIndependent : Obligations.UnitsIndependent := by
  intro k e us us' h
  obtain ⟨s, t, hs, ht, rfl⟩ := unitsStep_some h
  obtain ⟨hk, hget⟩ := List.getElem?_eq_some_iff.1 hs
  refine ⟨List.length_set, fun j hj => List.getElem?_set_ne hj.symm, ?_, s, t, hs, ht, List.getElem?_set_self hk⟩
  rw [List.map_set, (EventEffect.of_sysStep ht).unit, ← hget, ← List.getElem_map State.unit (h := by simpa using hk),
    List.set_getElem_self]

end Sys2Proof.Machine
end

section
/-!
The register file as the host reads and writes it by number (spec/10_state.md R26 to R32).
-/
namespace Sys2Proof.Machine

variable (s : State)

/-! ### Reads -/

theorem State.readReg_reserved {n : Nat} (h : 8 ≤ n) : s.readReg n = 0 := by
  obtain ⟨k, rfl⟩ := Nat.exists_eq_add_of_le' h
  rfl

theorem State.readReg_setLen (v : Word) :
    ∀ k, ({ s with len := v } : State).readReg k = if k = 4 then v else s.readReg k
  | 0 | 1 | 2 | 3 | 4 | 5 | 6 | 7 | _ + 8 => rfl

theorem State.readReg_setExpected (v : Word) :
    ∀ k, ({ s with expected := v } : State).readReg k = if k = 5 then v else s.readReg k
  | 0 | 1 | 2 | 3 | 4 | 5 | 6 | 7 | _ + 8 => rfl

theorem State.readReg_setVariant (v : Word) :
    ∀ k, ({ s with variant := v } : State).readReg k = if k = 6 then v else s.readReg k
  | 0 | 1 | 2 | 3 | 4 | 5 | 6 | 7 | _ + 8 => rfl

/-! ### Writes -/

theorem State.writeReg_reserved {n : Nat} (h : 8 ≤ n) (v : Word) : s.writeReg n v = s := by
  obtain ⟨k, rfl⟩ := Nat.exists_eq_add_of_le' h
  exact ite_self s

variable {s}

theorem State.writeReg_cmd (hb : s.status ≠ .busy) (w : Word) : s.writeReg 0 w = s.issue w := if_neg hb

theorem State.writeReg_len (hb : s.status ≠ .busy) (v : Word) : s.writeReg 4 v = { s with len := v } := if_neg hb

theorem State.writeReg_expected (hb : s.status ≠ .busy) (v : Word) : s.writeReg 5 v = { s with expected := v } :=
  if_neg hb

theorem State.writeReg_variant (hb : s.status ≠ .busy) (v : Word) : s.writeReg 6 v = { s with variant := v } :=
  if_neg hb

/-! ### The statements -/

/-- Settles O2, from the read and the write of a reserved number. -/
theorem reservedRegistersReadZero : Obligations.ReservedRegistersReadZero := by
  intro s n v h
  simp only [hostMove, s.readReg_reserved h, s.writeReg_reserved h, and_self]

/-- Settles O3, by the read of every register after each of the three writes. -/
theorem operandRegistersHoldWrites : Obligations.OperandRegistersHoldWrites := by
  refine fun s v => ⟨rfl, fun n hn => ?_, fun hb n hn => ?_⟩
  · rcases hn with rfl | rfl | rfl | rfl <;> exact ite_self s
  · rcases hn with rfl | rfl | rfl
    · rw [State.writeReg_len hb]
      exact ⟨rfl, fun k hk => by rw [State.readReg_setLen, if_neg hk], fun sp a => by cases sp <;> rfl⟩
    · rw [State.writeReg_expected hb]
      exact ⟨rfl, fun k hk => by rw [State.readReg_setExpected, if_neg hk], fun sp a => by cases sp <;> rfl⟩
    · rw [State.writeReg_variant hb]
      exact ⟨rfl, fun k hk => by rw [State.readReg_setVariant, if_neg hk], fun sp a => by cases sp <;> rfl⟩

/-- Settles O4, by the code of each state and of each error. -/
theorem statusAndErrorCodes : Obligations.StatusAndErrorCodes := by
  refine fun s => ⟨?_, ?_⟩
  · show s.statusWord.toNat = _
    unfold State.statusWord
    cases s.status <;> rfl
  · show s.errWord.toNat = _
    unfold State.errWord
    cases s.err <;> rfl

end Sys2Proof.Machine
end

section
/-!
What a DECRYPT leaves (spec/42_cipher_modes.md R121 to R124): how many bytes it touches, every byte of IBUF after it,
and the rest of the state.
-/
namespace Sys2Proof.Machine

variable {s : State}

/-! ### The number of touched bytes -/

theorem touches_small {n : Nat} (hn : n ≤ 256) (a : Nat) : touches n a = true ↔ a < n := by simp [touches, hn]

theorem touches_large {n : Nat} (hn : 256 < n) (a : Nat) :
    touches n a = true ↔ a / 16 < strideCount n ∧ a % 16 < strideStep n := by
  simp [touches, Nat.not_le.2 hn]

theorem count_congr {p q : Nat → Prop} [DecidablePred p] [DecidablePred q] {n : Nat} (h : ∀ i < n, (p i ↔ q i)) :
    Nat.count p n = Nat.count q n :=
  le_antisymm (Nat.count_mono_left fun i hi => (h i hi).1) (Nat.count_mono_left fun i hi => (h i hi).2)

/-- Each sampled block has one sample of touched bytes (R123). -/
theorem count_touches_block {n j : Nat} (hn : 256 < n) (hj : j < strideCount n) :
    Nat.count (fun i => touches n (16 * j + i) = true) 16 = strideStep n := by
  have hlt : ∀ m ≤ 16, Nat.count (· < m) 16 = m := by decide
  rw [count_congr (q := (· < strideStep n)), hlt _ (strideStep_le hn)]
  intro i hi
  rw [touches_large hn, Nat.mul_add_mod, Nat.mod_eq_of_lt hi, Nat.mul_add_div (by decide), Nat.div_eq_of_lt hi]
  exact and_iff_right hj

theorem count_touches_blocks {n k : Nat} (hn : 256 < n) (hk : k ≤ strideCount n) :
    Nat.count (touches n · = true) (16 * k) = k * strideStep n := by
  induction k with
  | zero => simp
  | succ k ih => rw [Nat.mul_succ, Nat.count_add, ih (by omega), count_touches_block hn hk, Nat.succ_mul]

/-- No byte past the last sampled block is touched (R123). -/
theorem count_touches_rest {n : Nat} (hn : 256 < n) (m : Nat) :
    Nat.count (fun i => touches n (16 * strideCount n + i) = true) m = 0 := by
  refine Nat.count_iff_forall_not.2 fun i _ h => ?_
  have := ((touches_large hn _).1 h).1
  omega

/-- A DECRYPT touches `touchedCount` bytes of IBUF (R31, R124). -/
theorem count_touches (n : Nat) : Nat.count (touches n · = true) n = touchedCount n := by
  unfold touchedCount
  split
  · next hn => exact Nat.count_iff_forall.2 fun a ha => (touches_small hn a).2 ha
  · next hn =>
    have hn : 256 < n := by omega
    have hle : 16 * strideCount n ≤ n := by
      have : strideCount n ≤ n / 16 := Nat.min_le_left _ _
      omega
    calc Nat.count (touches n · = true) n
        = Nat.count (touches n · = true) (16 * strideCount n + (n - 16 * strideCount n)) := by rw [Nat.add_sub_of_le hle]
      _ = strideCount n * strideStep n + 0 := by
        rw [Nat.count_add, count_touches_blocks hn (Nat.le_refl _), count_touches_rest hn]
      _ = strideStep n * strideCount n := Nat.mul_comm _ _

theorem length_filter_touches (n : Nat) : ((List.range n).filter (touches n)).length = touchedCount n := by
  rw [← List.countP_eq_length_filter, ← count_touches]
  simp [Nat.count]

theorem touchedCount_le (n : Nat) : touchedCount n ≤ 256 := by
  unfold touchedCount
  split
  · assumption
  · exact strideStep_mul_strideCount_le n

theorem toNat_ofNat_touchedCount (n : Nat) : (BitVec.ofNat 32 (touchedCount n)).toNat = touchedCount n :=
  Nat.mod_eq_of_lt (Nat.lt_of_le_of_lt (touchedCount_le n) (by decide))

/-! ### The state after a DECRYPT -/

/-- An untouched byte of IBUF keeps its value (R123). -/
theorem DecryptFrame.readByte_ibuf {n : Nat} {u : State} (h : DecryptFrame n s u) {a : Nat} (ha : touches n a = false) :
    u.readByte .ibuf a = s.readByte .ibuf a := by
  have hu : u.unit = s.unit := h.sameDevice.unit
  have he : u.epoch = s.epoch := by rw [h.eq]
  simp only [State.readByte, State.mem_ibuf, h.ibufSame a ha, hu, he]

/-- A DECRYPT whose length is in range completes (R124, R173). -/
theorem decryptCommand_of_inRange (h : s.opLen ≤ s.params.ibufCap) :
    decryptCommand s = ((decryptBuffer s.opLen s).setProduced (touchedCount s.opLen)).complete :=
  if_pos (decide_eq_true h)

/-- A DECRYPT whose length is out of range fails its check (R172). -/
theorem decryptCommand_of_outOfRange (h : s.params.ibufCap < s.opLen) :
    decryptCommand s = s.raise .lengthRange s.opLen :=
  if_neg (by simpa [State.lenInRange] using h)

/-- What a completed DECRYPT changes (R124). -/
theorem decryptCommand_eq (h : s.opLen ≤ s.params.ibufCap) :
    decryptCommand s = { s with
      status := .done, err := .none, errInfo := 0, produced := BitVec.ofNat 32 (touchedCount s.opLen)
      ibuf := (decryptCommand s).ibuf, c := (decryptCommand s).c, z := { s.z with running := false } } := by
  rw [decryptCommand_of_inRange h, (decryptBuffer_frame s.opLen s).eq]
  rfl

/-- Settles O23: the samples of the touched blocks are counted, and the frame of the command's body does the rest. -/
theorem producedCountsTouchedBytes : Obligations.ProducedCountsTouchedBytes := by
  refine ⟨fun n => ⟨length_filter_touches n, touchedCount_le n⟩, fun s hl => ?_⟩
  have hpr : (decryptCommand s).produced = BitVec.ofNat 32 (touchedCount s.latch.len.toNat) := by
    rw [decryptCommand_eq hl]
    rfl
  have hp : (decryptCommand s).produced.toNat = touchedCount s.latch.len.toNat := by
    rw [hpr, toNat_ofNat_touchedCount]
  refine ⟨decryptCommand s, rfl, hp.trans (length_filter_touches _).symm, fun hn => ?_, fun hn => ?_, fun a ha => ?_, ?_⟩
  · exact hp.trans (if_pos hn)
  · exact ⟨hp.trans (if_neg (Nat.not_le.2 hn)), hp ▸ touchedCount_le _⟩
  · rw [decryptCommand_of_inRange hl, State.complete_readByte, State.setProduced_readByte]
    exact (decryptBuffer_frame _ s).readByte_ibuf ha
  · rw [hpr]
    exact decryptCommand_eq hl

end Sys2Proof.Machine
end

section
/-!
How a command ends once it is issued (spec/44_host_commands.md R171 to R174, R178): its one step leaves BUSY, so the
wait for it is that step.
-/
namespace Sys2Proof.Machine

variable {s t : State}

/-- An issued command takes its step from the word written (R70 to R72). -/
theorem step_issue (s : State) (w : Word) : step (s.issue w) = stepDecoded (decodeCommand w) (s.issue w) :=
  step_of_command rfl rfl

theorem decryptCommand_not_busy (s : State) : (decryptCommand s).status ≠ .busy := by
  unfold decryptCommand
  split <;> simp

theorem Ended.not_busy (h : Ended t) : t.status ≠ .busy := by
  obtain ⟨hs, -⟩ | ⟨hs, -⟩ := h.outcome <;> simp [hs]

theorem decompressCommand_not_busy (s : State) : (decompressCommand s).status ≠ .busy := by
  obtain ⟨-, h⟩ | ⟨-, -, h⟩ | ⟨v, -, -, -, h⟩ := decompressCommand_cases s
  · simp [h]
  · simp [h]
  · exact h.not_busy

/-- The step of an issued command ends it (R147, R174). -/
theorem BlockStep.not_busy (h : BlockStep s t) (hr : s.z.running = false) : t.status ≠ .busy := by
  cases h with
  | outside hb => exact hb
  | sequence _ hr' => simp [hr] at hr'
  | decrypt => exact decryptCommand_not_busy s
  | decompress => exact decompressCommand_not_busy s
  | illegal => simp

theorem waitDone_of_not_busy (fuel : Nat) (h : s.status ≠ .busy) : waitDone fuel s = .next s := by
  cases fuel <;> simp [waitDone, h]

theorem waitDone_of_step {fuel : Nat} (hb : s.status = .busy) (h : step s = .next t) :
    waitDone (fuel + 1) s = waitDone fuel t := by
  rw [waitDone, if_pos hb, h]

/-- A command issued and waited for is one step of the block (R178). -/
theorem runCommand_eq_step (hb : s.status ≠ .busy) (w : Word) : runCommand w s = step (s.issue w) := by
  obtain ⟨t, ht, hs⟩ := step_blockStep (s.issue w)
  unfold runCommand
  rw [State.writeReg_cmd hb, waitDone_of_step rfl ht, waitDone_of_not_busy _ (hs.not_busy rfl), ht]

end Sys2Proof.Machine
end

section
/-!
The bytes of IBUF after a DECRYPT in terms of the keystream (spec/42_cipher_modes.md R121, R123): they depend on IBUF,
the length and the profile alone.
-/
namespace Sys2Proof.Machine

variable {s : State}

/-- Small-buffer mode XORs the keystream string onto the first `n` bytes of its space (R121). -/
theorem decryptSmall_readByte (sp : Space) (n : Nat) (s : State) (a : Nat) :
    (decryptSmall sp n s).readByte sp a =
      if a < n then s.readByte sp a ^^^ keystreamByte s.params.profile a else s.readByte sp a := by
  have h := (cipherBlocks sp n ((n + 15) / 16)
    (s.setWork s.params.profile.iv s.c.ks s.c.blockIdx s.c.sampleIdx) rfl).2.2 a
  rw [Nat.min_eq_left (by omega), State.setWork_readByte] at h
  exact h

/-- Large-buffer mode XORs the keystream string onto the sampled bytes in their order (R123). -/
theorem decryptLarge_readByte {n : Nat} (hn : 256 < n) (s : State) {a : Nat} (ha : touches n a = true) :
    (decryptLarge n s).readByte .ibuf a =
      s.readByte .ibuf a ^^^ keystreamByte s.params.profile (a / 16 * strideStep n + a % 16) := by
  obtain ⟨hj, hk⟩ := (touches_large hn a).1 ha
  have hpos := strideStep_pos n
  have hx : a / 16 * strideStep n + a % 16 < strideCount n * strideStep n := by
    have := Nat.mul_le_mul_right (strideStep n) (Nat.succ_le_of_lt hj)
    rw [Nat.succ_mul] at this
    omega
  have hdiv : (a / 16 * strideStep n + a % 16) / strideStep n = a / 16 := by
    rw [Nat.mul_comm, Nat.mul_add_div hpos, Nat.div_eq_of_lt hk, Nat.add_zero]
  have hmod : (a / 16 * strideStep n + a % 16) % strideStep n = a % 16 := by
    rw [Nat.mul_comm, Nat.mul_add_mod, Nat.mod_eq_of_lt hk]
  obtain ⟨hc, hg⟩ := gather_loop (strideStep n) (strideCount n) s hpos
  unfold decryptLarge
  rw [(scatter_loop _ _ _ hpos (strideStep_le hn)).2 a hj hk, decryptSmall_readByte,
    if_pos (by rwa [Nat.mul_comm (strideStep n)]), hg _ hx, hc.params, hdiv, hmod, Nat.div_add_mod]

/-- The body of a DECRYPT XORs its keystream byte onto every touched byte (R121, R123, R124). -/
theorem decryptBuffer_readByte (n : Nat) (s : State) (a : Nat) :
    (decryptBuffer n s).readByte .ibuf a =
      if touches n a then s.readByte .ibuf a ^^^ keystreamByte s.params.profile (keystreamIndex n a)
      else s.readByte .ibuf a := by
  split
  · next ha =>
    unfold decryptBuffer keystreamIndex
    split
    · next hn => rw [decryptSmall_readByte, if_pos ((touches_small hn a).1 ha)]
    · next hn => exact decryptLarge_readByte (Nat.lt_of_not_le hn) s ha
  · next ha => exact (decryptBuffer_frame n s).readByte_ibuf (Bool.not_eq_true _ ▸ ha)

theorem decryptCommand_readByte (h : s.opLen ≤ s.params.ibufCap) (a : Nat) :
    (decryptCommand s).readByte .ibuf a =
      if touches s.opLen a then s.readByte .ibuf a ^^^ keystreamByte s.params.profile (keystreamIndex s.opLen a)
      else s.readByte .ibuf a := by
  rw [decryptCommand_of_inRange h, State.complete_readByte, State.setProduced_readByte, decryptBuffer_readByte]

end Sys2Proof.Machine
end

section
/-!
The hidden state (spec/10_state.md R38): what the host can see of a unit, and what a DECOMPRESS makes of it, does not
depend on unit C's storage or on the fields of unit Z that the sequence before left.
-/
namespace Sys2Proof.Machine

variable {s t : State}

/-! ### What the host sees -/

/-- The host sees neither the latch nor the working storage of the two units (R38). -/
theorem sameVisible_hidden (s : State) (l : Latch) (c : UnitC) (z : UnitZ) :
    SameVisible s { s with latch := l, c := c, z := z } := ⟨fun _ => rfl, fun _ => rfl, fun _ => rfl⟩

/-! ### What a DECOMPRESS does not read -/

/-- What a DECOMPRESS carries along but does not read: unit C's storage, and the fields of unit Z that every sequence
sets anew (R24). -/
structure Dead where
  c : UnitC
  lit : Nat
  mat : Nat
  off : Nat
  mlen : Nat

/-- The state with other dead parts. -/
def State.withDead (s : State) (d : Dead) : State :=
  { s with c := d.c, z := { s.z with lit := d.lit, mat := d.mat, off := d.off, mlen := d.mlen } }

/-- `t` is `s` but for the dead parts. -/
def AlikeInStream (s t : State) : Prop := ∃ d, t = s.withDead d

theorem AlikeInStream.sameVisible (h : AlikeInStream s t) : SameVisible s t := by
  obtain ⟨d, rfl⟩ := h
  exact sameVisible_hidden s _ _ _

/-- A loop whose body commutes with `g` commutes with `g`. -/
theorem forUpTo_comm {σ : Type} {g : σ → σ} {body : Nat → σ → σ} (h : ∀ i u, body i (g u) = g (body i u)) (n : Nat)
    (s : σ) : forUpTo n body (g s) = g (forUpTo n body s) := by
  induction n with
  | zero => rfl
  | succ n ih => rw [forUpTo_succ, ih, h, forUpTo_succ]

section withDead
variable (s : State) (d : Dead)

theorem withDead_fetchSequence : (s.withDead d).fetchSequence = s.fetchSequence :=
  congrArg (decodeSequence s.z.sel) (State.readBytes_congr fun _ _ _ => rfl)

theorem withDead_literalRun (lits : List Byte) :
    (s.withDead d).literalRun lits = (s.literalRun lits).withDead { d with lit := lits.length } := by
  rw [State.literalRun_eq, State.literalRun_eq]
  rfl

theorem withDead_copyMatch (off mlen : Nat) : (s.withDead d).copyMatch off mlen = (s.copyMatch off mlen).withDead d :=
  forUpTo_comm (g := fun u : State => u.withDead d)
    (body := fun k u => u.writeByte .obuf (s.z.op + k) (u.readByte .obuf (s.z.op + k - off))) (fun _ _ => rfl) mlen s

end withDead

/-! Each part of a sequence takes states that are alike to states that are alike: it decides alike and writes alike. -/

namespace AlikeInStream

theorem ip (h : AlikeInStream s t) : t.z.ip = s.z.ip := by
  obtain ⟨d, rfl⟩ := h
  rfl

theorem running (h : AlikeInStream s t) : t.z.running = s.z.running := by
  obtain ⟨d, rfl⟩ := h
  rfl

theorem fetchSequence (h : AlikeInStream s t) : t.fetchSequence = s.fetchSequence := by
  obtain ⟨d, rfl⟩ := h
  exact withDead_fetchSequence s d

theorem branch {p : Prop} [Decidable p] {s₁ s₂ t₁ t₂ : State} (h₁ : AlikeInStream s₁ t₁) (h₂ : AlikeInStream s₂ t₂) :
    AlikeInStream (if p then s₁ else s₂) (if p then t₁ else t₂) := by
  split
  · exact h₁
  · exact h₂

theorem raiseStream (h : AlikeInStream s t) (e : ErrCode) (info : Nat) :
    AlikeInStream (s.raiseStream e info) (t.raiseStream e info) := by
  obtain ⟨d, rfl⟩ := h
  exact ⟨d, rfl⟩

theorem finishStream (h : AlikeInStream s t) : AlikeInStream s.finishStream t.finishStream := by
  obtain ⟨d, rfl⟩ := h
  exact branch ⟨d, rfl⟩ ⟨d, rfl⟩

theorem matchFields (h : AlikeInStream s t) (off mlen : Nat) :
    AlikeInStream (s.matchFields off mlen) (t.matchFields off mlen) := by
  obtain ⟨d, rfl⟩ := h
  exact ⟨{ d with mat := min (mlen - 4) 15, off := off, mlen := mlen }, rfl⟩

theorem matchCopy (h : AlikeInStream s t) (q off mlen : Nat) :
    AlikeInStream (s.matchCopy q off mlen) (t.matchCopy q off mlen) := by
  obtain ⟨d, rfl⟩ := h
  unfold State.matchCopy
  rw [withDead_copyMatch]
  exact branch ⟨d, rfl⟩ (branch ⟨d, rfl⟩ ⟨d, rfl⟩)

/-- A literal run that fits is executed and `f` goes on; one that does not raises `OutputOverrun` (R142). -/
theorem guardedRun (h : AlikeInStream s t) (lits : List Byte) {f : State → State}
    (hf : ∀ {u v}, AlikeInStream u v → AlikeInStream (f u) (f v)) :
    AlikeInStream
      (if s.literalFits lits then f (s.literalRun lits) else s.raiseStream .outputOverrun (s.literalStart lits))
      (if t.literalFits lits then f (t.literalRun lits) else t.raiseStream .outputOverrun (t.literalStart lits)) := by
  obtain ⟨d, rfl⟩ := h
  exact branch (hf ⟨_, withDead_literalRun s d lits⟩) ⟨d, rfl⟩

theorem lz4Seq (h : AlikeInStream s t) (lits : List Byte) (off : BitVec 16) (mlen : Nat) :
    AlikeInStream (lz4Seq lits off mlen s) (lz4Seq lits off mlen t) := by
  refine h.guardedRun lits (f := fun u => (u.matchFields off.toNat mlen).matchCopy u.z.ip off.toNat mlen)
    fun {u v} huv => ?_
  rw [huv.ip]
  exact (huv.matchFields off.toNat mlen).matchCopy u.z.ip off.toNat mlen

theorem lz4End (h : AlikeInStream s t) (lits : List Byte) (m : BitVec 4) :
    AlikeInStream (lz4End lits m s) (lz4End lits m t) := h.guardedRun lits finishStream

theorem truncatedSequence (h : AlikeInStream s t) (pos : Nat) (run : Option (List Byte)) :
    AlikeInStream (truncatedSequence pos run s) (truncatedSequence pos run t) := by
  unfold Machine.truncatedSequence
  rw [h.ip]
  cases run with
  | none => exact h.raiseStream _ _
  | some lits => exact h.guardedRun lits fun huv => huv.raiseStream _ _

theorem sequenceStep (h : AlikeInStream s t) : AlikeInStream (sequenceStep s) (sequenceStep t) := by
  unfold Machine.sequenceStep
  rw [h.fetchSequence]
  split
  · exact h.lz4Seq _ _ _
  · exact h.lz4End _ _
  · next r hr =>
    obtain ⟨pos, run, rfl⟩ := decodeSequence_reject hr
    exact h.truncatedSequence pos run

/-- The stream loop takes states that are alike to states that are alike (R147). -/
theorem runStream (h : AlikeInStream s t) (fuel : Nat) :
    AlikeInStream (runStream fuel s) (runStream fuel t) := by
  induction fuel generalizing s t with
  | zero => exact h
  | succ fuel ih =>
    unfold Machine.runStream
    rw [h.running]
    split
    · exact ih h.sequenceStep
    · exact h

end AlikeInStream

/-! ### The commands -/

theorem decompressCommand_of_outOfRange (h : s.params.ibufCap < s.opLen) :
    decompressCommand s = s.raise .lengthRange s.opLen := by
  obtain ⟨-, hd⟩ | ⟨hl, -⟩ | ⟨v, hl, -⟩ := decompressCommand_cases s
  · exact hd
  · omega
  · omega

/-- A code the profile does not have ends the command before its stream is read (R193). -/
theorem decompressCommand_of_unsupported (hl : s.opLen ≤ s.params.ibufCap) (hv : s.opVariant? = none) :
    decompressCommand s = (s.setProduced 0).raise .unsupportedCompressionType s.latch.variant.toNat := by
  obtain ⟨hl', -⟩ | ⟨-, -, hd⟩ | ⟨v, -, hv', -⟩ := decompressCommand_cases s
  · omega
  · exact hd
  · simp [hv] at hv'

/-- A DECOMPRESS whose checks pass runs its stream (R147, R148). -/
theorem decompressCommand_of_supported {v : Variant} (hl : s.opLen ≤ s.params.ibufCap) (hv : s.opVariant? = some v) :
    decompressCommand s = runStream (s.opLen + 1) (s.openStream v) := by
  simp [decompressCommand, decompressOpen, State.lenInRange, hl, hv]

/-- No DECOMPRESS lets the host see the working storage it found (R38). -/
theorem decompressCommand_sameVisible (s : State) (c : UnitC) (z : UnitZ) :
    SameVisible (decompressCommand s) (decompressCommand { s with c := c, z := z }) := by
  rcases Nat.lt_or_ge s.params.ibufCap s.opLen with hl | hl
  · rw [decompressCommand_of_outOfRange hl, decompressCommand_of_outOfRange (s := { s with c := c, z := z }) hl]
    exact sameVisible_hidden _ _ _ _
  cases hv : s.opVariant? with
  | none =>
    rw [decompressCommand_of_unsupported hl hv, decompressCommand_of_unsupported (s := { s with c := c, z := z }) hl hv]
    exact sameVisible_hidden _ _ _ _
  | some v =>
    rw [decompressCommand_of_supported hl hv, decompressCommand_of_supported (s := { s with c := c, z := z }) hl hv]
    have hopen : AlikeInStream (s.openStream v) (({ s with c := c, z := z } : State).openStream v) :=
      ⟨⟨c, z.lit, z.mat, z.off, z.mlen⟩, rfl⟩
    exact (hopen.runStream _).sameVisible

/-- No DECRYPT lets the host see the working storage it found (R38): its keystream starts from `IV` (R121). -/
theorem decryptCommand_sameVisible (s : State) (c : UnitC) (z : UnitZ) :
    SameVisible (decryptCommand s) (decryptCommand { s with c := c, z := z }) := by
  rcases Nat.lt_or_ge s.params.ibufCap s.opLen with hl | hl
  · rw [decryptCommand_of_outOfRange hl, decryptCommand_of_outOfRange (s := { s with c := c, z := z }) hl]
    exact sameVisible_hidden _ _ _ _
  · refine ⟨fun n => ?_, fun a => ?_, fun a => ?_⟩
    · rw [decryptCommand_eq hl, decryptCommand_eq (s := { s with c := c, z := z }) hl]
      rfl
    · rw [decryptCommand_readByte hl, decryptCommand_readByte (s := { s with c := c, z := z }) hl]
      rfl
    · rw [decryptCommand_eq hl, decryptCommand_eq (s := { s with c := c, z := z }) hl]
      rfl

/-- Settles O59: the issue writes the latch anew, and neither command reads the working storage it finds. -/
theorem hiddenStateUnobservable : Obligations.HiddenStateUnobservable := by
  intro s l c z w t t' hb _ ht ht'
  rw [runCommand_eq_step hb, step_issue] at ht
  rw [runCommand_eq_step (s := { s with latch := l, c := c, z := z }) hb, step_issue] at ht'
  obtain ⟨-, hd⟩ | ⟨-, hd⟩ | ⟨-, -, hd⟩ := decodeCommand_cases w <;> rw [hd] at ht ht' <;> cases ht <;> cases ht'
  · exact decryptCommand_sameVisible (s.issue w) c { z with running := false }
  · exact decompressCommand_sameVisible (s.issue w) c { z with running := false }
  · exact sameVisible_hidden ((s.issue w).raise .illegalCommand w.toNat) _ c { z with running := false }

end Sys2Proof.Machine
end

section
/-!
The memory as the host and the commands reach it (spec/20_memory.md R50, R51, R53): runs of bytes read back, the data
port, and what no move of the host can write.
-/
namespace Sys2Proof.Machine

variable {s t : State}

/-! ### Runs of bytes -/

/-- A read of bytes is a given list if each byte is (R51). -/
theorem State.readBytes_eq {sp : Space} {a : Nat} {vs : List Byte}
    (h : ∀ i < vs.length, s.readByte sp (a + i) = vs.getD i 0#8) : s.readBytes sp a vs.length = vs := by
  refine List.ext_getElem (s.length_readBytes sp a vs.length) fun i _ hi => ?_
  rw [State.getElem_readBytes, h i hi, List.getElem_eq_getD 0#8]

theorem State.getD_readBytes {sp : Space} {a n i : Nat} (hi : i < n) :
    (s.readBytes sp a n).getD i 0#8 = s.readByte sp (a + i) := by
  rw [← List.getElem_eq_getD (h := by simpa using hi), State.getElem_readBytes]

/-! ### The data port -/

/-- No move of the host writes OBUF or SCRATCH (R53). -/
theorem HostEffect.readByte_ne_ibuf {m : HostMove} (h : HostEffect s m t) {sp : Space} (hsp : sp ≠ .ibuf) (a : Nat) :
    t.readByte sp a = s.readByte sp a := by
  cases h with
  | store x v => rw [State.readByte_writeByte, if_neg fun h => hsp h.1]
  | issue w => exact s.issue_readByte w sp a
  | unchanged | setLen | setExpected | setVariant | draw => exact State.readByte_congr a (by cases sp <;> rfl) rfl rfl

theorem State.readPort_of_busy (hb : s.status = .busy) (sp : Space) (a : Nat) :
    s.readPort sp a = ({ s with draws := s.draws + 1 }, .byte (Config.busyRead s.unit s.draws)) := if_pos hb

theorem State.readPort_of_not_busy (hb : s.status ≠ .busy) (sp : Space) (a : Nat) :
    s.readPort sp a = (s, .byte (s.readByte sp a)) := if_neg hb

theorem State.writePort_of_busy (hb : s.status = .busy) (a : Nat) (v : Byte) : s.writePort a v = s := if_pos hb

theorem State.writePort_of_not_busy (hb : s.status ≠ .busy) (a : Nat) (v : Byte) :
    s.writePort a v = s.writeByte .ibuf a v := if_neg hb

theorem hostMove_readIbuf {a : Nat} (ha : s.inSpace .ibuf a = true) :
    hostMove (.readIbuf a) s = .next (s.readPort .ibuf a) := if_pos ha

theorem hostMove_readObuf {a : Nat} (ha : s.inSpace .obuf a = true) :
    hostMove (.readObuf a) s = .next (s.readPort .obuf a) := if_pos ha

theorem hostMove_writeIbuf {a : Nat} (ha : s.inSpace .ibuf a = true) (v : Byte) :
    hostMove (.writeIbuf a v) s = .next (s.writePort a v, .nothing) := if_pos ha

/-! ### The statements -/

/-- Settles O9, from the read of one byte after a write of bytes. -/
theorem writtenBytesReadBack : Obligations.WrittenBytesReadBack := by
  refine fun s sp a vs => ⟨State.readBytes_eq fun i hi => ?_, fun x hx => ?_, fun sp' x hsp => ?_⟩
  · rw [State.readByte_writeBytes, if_pos ⟨rfl, by omega, by omega⟩, Nat.add_sub_cancel_left]
  · rw [State.readByte_writeBytes, if_neg fun h => by omega]
  · rw [State.readByte_writeBytes, if_neg fun h => hsp h.1]

/-- Settles O8, from the port outside a command, the port during one, and the effect of every move. -/
theorem dataPortMoves : Obligations.DataPortMoves := by
  refine fun s => ⟨fun hb => ⟨fun a ha => ?_, fun a ha => ?_, fun a v ha => ?_⟩,
    fun hb => ⟨fun a ha => ?_, fun a ha => ?_, fun a v ha => ?_⟩, fun m t ans hm a => ?_⟩
  · rw [hostMove_readIbuf ha, State.readPort_of_not_busy hb]
  · rw [hostMove_readObuf ha, State.readPort_of_not_busy hb]
  · rw [hostMove_writeIbuf ha, State.writePort_of_not_busy hb]
    exact ⟨_, rfl, s.readByte_writeByte_same .ibuf a v,
      fun x hx => by rw [State.readByte_writeByte, if_neg fun h => hx h.2], rfl⟩
  · rw [hostMove_readIbuf ha, State.readPort_of_busy hb]
  · rw [hostMove_readObuf ha, State.readPort_of_busy hb]
  · rw [hostMove_writeIbuf ha, State.writePort_of_busy hb]
  · have he := HostEffect.of_hostMove hm
    exact ⟨he.readByte_ne_ibuf (by decide) a, he.readByte_ne_ibuf (by decide) a⟩

end Sys2Proof.Machine
end

section
/-!
What the instructions of unit Z leave alone (spec/43_lz4_decompress.md R148), and a DECOMPRESS taken one sequence a step
(spec/10_state.md R24, R58).
-/
namespace Sys2Proof.Machine

variable {s t : State}

/-! ### The frame -/

/-- What unit Z leaves alone: every space but OBUF below `op`, the registers the host writes, unit C and the
parameters (R60, R148). -/
structure KeepsInputs (s t : State) : Prop where
  ibuf : t.ibuf = s.ibuf
  len : t.len = s.len
  expected : t.expected = s.expected
  variant : t.variant = s.variant
  latch : t.latch = s.latch
  c : t.c = s.c
  params : t.params = s.params
  above : ∀ a, t.z.op ≤ a → t.readByte .obuf a = s.readByte .obuf a

theorem Extends.keepsInputs (h : Extends s t) : KeepsInputs s t :=
  { h with above := fun _ ha => h.readByte (.inr ha) }

theorem KeepsInputs.raise (s : State) (e : ErrCode) (info : Nat) : KeepsInputs s (s.raise e info) :=
  ⟨rfl, rfl, rfl, rfl, rfl, rfl, rfl, fun a _ => s.raise_readByte e info .obuf a⟩

theorem KeepsInputs.decompressCommand (s : State) : KeepsInputs s (decompressCommand s) := by
  obtain ⟨-, h⟩ | ⟨-, -, h⟩ | ⟨v, -, -, h, -⟩ := decompressCommand_cases s
  · rw [h]; exact .raise s _ _
  · rw [h]; exact { KeepsInputs.raise (s.setProduced 0) _ _ with }
  · exact { h.keepsInputs with }

/-- Settles O47: a sequence extends the output, and a DECOMPRESS is a failed check or a run of sequences. -/
theorem decompressFrame : Obligations.DecompressFrame := by
  intro s t i hi h
  have hk : KeepsInputs s t := by
    cases i with
    | decrypt => exact absurd rfl hi
    | decompress => cases h; exact .decompressCommand s
    | lz4Seq lits off mlen => cases h; exact (lz4Seq_cases lits off mlen s).1.keepsInputs
    | lz4End lits m => cases h; exact (lz4End_cases lits m s).1.keepsInputs
  exact ⟨hk.ibuf, hk.len, hk.expected, hk.variant, hk.latch, hk.c, hk.params, hk.above⟩

/-! ### One sequence a step -/

theorem Extends.opLen (h : Extends s t) : t.opLen = s.opLen := congrArg (·.len.toNat) h.latch

theorem step_of_sequence (hb : s.status = .busy) (hr : s.z.running = true) : step s = .next (sequenceStep s) :=
  (step_of_running hb hr).trans (stepDecoded_fetchInstr s)

theorem runStream_succ {fuel : Nat} (hr : s.z.running = true) :
    runStream (fuel + 1) s = runStream fuel (sequenceStep s) := if_pos hr

/-- A wait that lasts until the stream has ended takes the iterations of its loop (R147). -/
theorem waitDone_eq_runStream {fuel k : Nat} (hb : s.status = .busy) (hr : s.z.running = true) (hip : s.z.ip ≤ s.opLen)
    (hf : s.opLen + 1 ≤ s.z.ip + fuel) (hk : fuel ≤ k) : waitDone k s = .next (runStream fuel s) := by
  induction fuel generalizing s k with
  | zero => omega
  | succ fuel ih =>
    obtain ⟨k, rfl⟩ := Nat.exists_eq_add_of_le' (Nat.le_trans (Nat.succ_le_succ (Nat.zero_le fuel)) hk)
    rw [waitDone_of_step hb (step_of_sequence hb hr), runStream_succ hr]
    obtain ⟨he, ⟨hg, hadv, hip'⟩ | hend⟩ := sequenceStep_cases s
    · exact ih (hg.status.trans hb) (hg.running.trans hr) (he.opLen ▸ hip') (by rw [he.opLen]; omega) (by omega)
    · rw [waitDone_of_not_busy _ hend.not_busy, runStream_of_not_running hend.running]

/-- A DECOMPRESS that waits to begin is begun (R24, R148). -/
theorem beginDecompress_of_command (hb : s.status = .busy) (hr : s.z.running = false)
    (hw : s.latch.cmd = 0x00000002#32) : beginDecompress s = decompressOpen s :=
  if_pos ⟨hb, hr, congrArg decodeCommand hw⟩

/-- Settles O49: a check that fails leaves nothing to wait for; a begun stream is waited for as its loop runs. -/
theorem sequenceStepsReachCommandEnd : Obligations.SequenceStepsReachCommandEnd := by
  refine fun s h hr hw => ⟨decompressCommand s, rfl, fun k hk => ?_⟩
  rw [beginDecompress_of_command h.busy hr hw, decompressCommand]
  obtain ⟨-, ho⟩ | ⟨-, -, ho⟩ | ⟨v, -, -, ho⟩ := decompressOpen_cases s <;> rw [ho]
  · rw [waitDone_of_not_busy _ (by simp), runStream_of_not_running rfl]
  · rw [waitDone_of_not_busy _ (by simp), runStream_of_not_running rfl]
  · exact waitDone_eq_runStream h.busy rfl (Nat.zero_le _) (Nat.le_add_left _ _) hk

end Sys2Proof.Machine
end

section
/-!
What stands in OBUF while unit Z works (spec/43_lz4_decompress.md R140 to R148): the output produced so far, as a list of
bytes, and what each part of a sequence makes of it.
-/
namespace Sys2Proof.Machine

variable {s t : State}

/-! ### The bytes of a match -/

/-- The match copy repeats the bytes before it (R144): byte `k` is byte `k mod off` of the last `off`. -/
theorem State.copyMatch_readByte {off : Nat} (h1 : 1 ≤ off) (h2 : off ≤ s.z.op) {mlen k : Nat} (hk : k < mlen) :
    (s.copyMatch off mlen).readByte .obuf (s.z.op + k) = s.readByte .obuf (s.z.op + k % off - off) := by
  induction mlen generalizing k with
  | zero => omega
  | succ m ih =>
    have hstep : s.copyMatch off (m + 1) =
      (s.copyMatch off m).writeByte .obuf (s.z.op + m) ((s.copyMatch off m).readByte .obuf (s.z.op + m - off)) := rfl
    rw [hstep, State.readByte_writeByte]
    by_cases hkm : k = m
    · subst hkm
      rw [if_pos ⟨rfl, rfl⟩]
      by_cases hoff : k < off
      · rw [Nat.mod_eq_of_lt hoff]
        exact (s.copyMatch_changes off k).readByte_same (by omega)
      · rw [show s.z.op + k - off = s.z.op + (k - off) by omega, ih (by omega), Nat.mod_eq_sub_mod (Nat.le_of_not_lt hoff)]
    · rw [if_neg fun h => hkm (Nat.add_left_cancel h.2), ih (by omega)]

@[simp] theorem length_matchBytes (out : List Byte) (off mlen : Nat) : (matchBytes out off mlen).length = mlen := by
  simp [matchBytes]

theorem getD_matchBytes (out : List Byte) (off : Nat) {mlen k : Nat} (hk : k < mlen) :
    (matchBytes out off mlen).getD k 0#8 = out.getD (out.length - off + k % off) 0#8 := by
  simp [matchBytes, List.getD_eq_getElem?_getD, hk]

/-! ### The output -/

/-- The bytes a DECOMPRESS has produced so far: `OBUF[0..op)` (R148). -/
def State.output (s : State) : List Byte := s.readBytes .obuf 0 s.z.op

@[simp] theorem State.length_output (s : State) : s.output.length = s.z.op := s.length_readBytes .obuf 0 s.z.op

theorem State.getD_output {i : Nat} (hi : i < s.z.op) : s.output.getD i 0#8 = s.readByte .obuf i := by
  rw [State.output, State.getD_readBytes hi, Nat.zero_add]

/-- The output has grown by `vs` if `vs` stands at the old `op` and nothing below it has changed. -/
theorem Extends.output_append (h : Extends s t) {vs : List Byte} (hop : t.z.op = s.z.op + vs.length)
    (hvs : ∀ i < vs.length, t.readByte .obuf (s.z.op + i) = vs.getD i 0#8) : t.output = s.output ++ vs := by
  have hlen : t.z.op = (s.output ++ vs).length := by rw [List.length_append, State.length_output, hop]
  rw [State.output, hlen]
  refine State.readBytes_eq fun i hi => ?_
  rw [Nat.zero_add]
  by_cases hlt : i < s.z.op
  · rw [List.getD_append _ _ _ _ (by rwa [State.length_output]), State.getD_output hlt, h.readByte (.inl hlt)]
  · have hi' := hvs (i - s.z.op) (by omega)
    rw [Nat.add_sub_of_le (Nat.le_of_not_lt hlt)] at hi'
    rw [List.getD_append_right _ _ _ _ (by rw [State.length_output]; omega), State.length_output, hi']

/-- A literal run appends its bytes (R142). -/
theorem State.output_literalRun {lits : List Byte} (hf : s.literalFits lits = true) :
    (s.literalRun lits).output = s.output ++ lits := by
  refine (extends_literalRun s lits hf).output_append rfl fun i hi => ?_
  rw [State.literalRun_readByte, if_pos ⟨rfl, by omega, by omega⟩, Nat.add_sub_cancel_left]

/-- A match that raises no error goes on (R144). -/
theorem State.goesOn_matchCopy (q : Nat) {off mlen : Nat} (h1 : 1 ≤ off) (h2 : off ≤ s.z.op)
    (h3 : s.params.obufHolds (s.z.op + mlen) = true) : GoesOn s (s.matchCopy q off mlen) := by
  rw [State.matchCopy_ok s q h1 h2 h3]
  exact ⟨rfl, rfl, rfl, rfl, rfl⟩

/-- A match that raises no error appends its bytes (R144). -/
theorem State.output_matchCopy (q : Nat) {off mlen : Nat} (h1 : 1 ≤ off) (h2 : off ≤ s.z.op)
    (h3 : s.params.obufHolds (s.z.op + mlen) = true) :
    (s.matchCopy q off mlen).output = s.output ++ matchBytes s.output off mlen := by
  have heq := State.matchCopy_ok s q h1 h2 h3
  refine (matchCopy_cases s q off mlen).1.output_append (by rw [heq, length_matchBytes]) fun k hk => ?_
  rw [length_matchBytes] at hk
  have hmod : k % off < off := Nat.mod_lt k h1
  have hc := s.copyMatch_changes off mlen
  calc (s.matchCopy q off mlen).readByte .obuf (s.z.op + k)
      = (s.copyMatch off mlen).readByte .obuf (s.z.op + k) := by
        rw [heq]
        exact State.readByte_congr _ rfl hc.unit.symm hc.epoch.symm
    _ = s.readByte .obuf (s.z.op + k % off - off) := State.copyMatch_readByte h1 h2 hk
    _ = s.output.getD (s.z.op - off + k % off) 0#8 := by rw [State.getD_output (by omega)]; congr 1; omega
    _ = (matchBytes s.output off mlen).getD k 0#8 := by rw [getD_matchBytes _ _ hk, State.length_output]

theorem State.output_matchFields (s : State) (off mlen : Nat) : (s.matchFields off mlen).output = s.output :=
  State.readBytes_congr fun _ _ _ => rfl

theorem State.output_raiseStream (s : State) (e : ErrCode) (info : Nat) : (s.raiseStream e info).output = s.output :=
  State.readBytes_congr fun a _ _ => s.raiseStream_readByte e info .obuf a

/-! ### One sequence that raises no error -/

/-- A sequence whose bytes fit OBUF and whose offset lies in the output goes on past its own bytes, with its literal
bytes and its match appended to the output (R142, R144, R145). -/
theorem lz4Seq_appends {lits : List Byte} {off : BitVec 16} {mlen : Nat}
    (h1 : 1 ≤ off.toNat) (h2 : off.toNat ≤ s.z.op + lits.length)
    (h3 : s.params.obufHolds (s.z.op + lits.length + mlen) = true) :
    GoesOn s (lz4Seq lits off mlen s) ∧
      (lz4Seq lits off mlen s).z.ip = s.z.ip + (Sequence.seq lits off mlen).size ∧
      (lz4Seq lits off mlen s).output = s.output ++ lits ++ matchBytes (s.output ++ lits) off.toNat mlen := by
  have hf : s.literalFits lits = true := Params.obufHolds_mono (Nat.le_add_right _ mlen) h3
  have h3' : ((s.literalRun lits).matchFields off.toNat mlen).params.obufHolds (s.z.op + lits.length + mlen) = true := by
    rwa [(extends_matchFields _ _ _).params, (extends_literalRun s lits hf).params]
  have heq : lz4Seq lits off mlen s = ((s.literalRun lits).matchFields off.toNat mlen).matchCopy
    (s.literalRun lits).z.ip off.toNat mlen := if_pos hf
  have hg := goesOn_literalRun s lits
  have hm := State.goesOn_matchCopy (s := (s.literalRun lits).matchFields off.toNat mlen) (s.literalRun lits).z.ip h1 h2 h3'
  have hgo : GoesOn s (lz4Seq lits off mlen s) := by
    rw [heq]
    exact ⟨hm.running.trans hg.running, hm.status.trans hg.status, hm.err.trans hg.err, hm.errInfo.trans hg.errInfo,
      hm.produced.trans hg.produced⟩
  refine ⟨hgo, ?_, ?_⟩
  · rw [heq, State.matchCopy_ok _ _ h1 h2 h3']
    show s.z.ip + 1 + extCount lits.length + lits.length + 2 + extCount (mlen - 4) = _
    simp only [Sequence.size]
    omega
  · rw [heq, State.output_matchCopy _ h1 h2 h3', State.output_matchFields, State.output_literalRun hf]

/-- A last sequence that fits OBUF ends the stream with its literal bytes appended to the output (R146). -/
theorem lz4End_of_fits {lits : List Byte} (m : BitVec 4) (hf : s.literalFits lits = true) :
    lz4End lits m s = (s.literalRun lits).finishStream := if_pos hf

/-- The end of a stream: the report depends on the size check alone (R148, R192). -/
theorem State.finishStream_eq (s : State) :
    s.finishStream = { s with
      status := if s.z.op = s.opExpected then .done else .error
      err := if s.z.op = s.opExpected then .none else .sizeMismatch
      errInfo := if s.z.op = s.opExpected then 0 else BitVec.ofNat 32 s.z.op
      produced := BitVec.ofNat 32 s.z.op
      z := { s.z with running := false } } := by
  unfold State.finishStream
  simp only
  split <;> rfl

theorem extends_finishStream (s : State) : Extends s s.finishStream := by
  rw [State.finishStream_eq]
  exact { Extends.refl s with }

theorem State.finishStream_readByte (s : State) (sp : Space) (a : Nat) :
    s.finishStream.readByte sp a = s.readByte sp a := by
  rw [State.finishStream_eq]
  cases sp <;> rfl

theorem State.finishStream_running (s : State) : s.finishStream.z.running = false := by rw [State.finishStream_eq]

theorem State.finishStream_op (s : State) : s.finishStream.z.op = s.z.op := by rw [State.finishStream_eq]

theorem State.output_finishStream (s : State) : s.finishStream.output = s.output := by
  rw [State.output, State.finishStream_op]
  exact State.readBytes_congr fun a _ _ => s.finishStream_readByte .obuf a

end Sys2Proof.Machine
end
section
/-!
A DECOMPRESS of a stream as R82 assembles it: the decoder reads each sequence back (spec/30_encoding.md R75, R82), and
the loop ends with the output the sequences stand for (spec/43_lz4_decompress.md R147, R148).
-/
namespace Sys2Proof

open Machine

/-! ### The decoder on an encoded sequence -/

/-- The literal nibble of an encoded token, with the extension after it, is the length of the literal run (R76, R82). -/
theorem readLenExt_encodeToken {v : Variant} (hv : v.wf = true) (n : Nat) {m : Nat} (hm : m < 16) (rest : List Byte) :
    readLenExt (tokenSplit v (encodeToken v (min n 15) m)).1.toNat (encodeExt n ++ rest) = some (n, extCount n, rest) := by
  rw [tokenSplit_encodeToken hv hm, BitVec.toNat_ofNat, Nat.mod_eq_of_lt (by omega), readLenExt_encodeExt]

/-- An encoded sequence with a match decodes whatever follows it (R75). -/
theorem decodeSequence_encode_seq {v : Variant} (hv : v.wf = true) (lits : List Byte) (off : BitVec 16) {mlen : Nat}
    (hm : 4 ≤ mlen) (rest : List Byte) :
    decodeSequence v (encodeSequence v (.seq lits off mlen) ++ rest) = .ok (.seq lits off mlen) := by
  obtain ⟨b0, b1, hb, hoff⟩ := encodeOffset_eq v.order off
  have hM : (tokenSplit v (encodeToken v (min lits.length 15) (min (mlen - 4) 15))).2.toNat = min (mlen - 4) 15 := by
    rw [tokenSplit_encodeToken hv (by omega), BitVec.toNat_ofNat, Nat.mod_eq_of_lt (by omega)]
  simp only [encodeSequence, hb, List.cons_append, List.append_assoc, List.nil_append, decodeSequence,
    readLenExt_encodeToken hv _ (by omega : min (mlen - 4) 15 < 16)]
  rw [if_neg (by simp), List.drop_left, List.take_left]
  simp only [hM, readLenExt_encodeExt, hoff, Nat.sub_add_cancel hm]

/-- An encoded last sequence decodes where the stream ends after it (R75, R78). -/
theorem decodeSequence_encode_last {v : Variant} (hv : v.wf = true) (lits : List Byte) (m : BitVec 4) :
    decodeSequence v (encodeSequence v (.last lits m)) = .ok (.last lits m) := by
  have hL := readLenExt_encodeToken hv lits.length m.isLt lits
  have hM : (tokenSplit v (encodeToken v (min lits.length 15) m.toNat)).2 = m := by
    rw [tokenSplit_encodeToken hv m.isLt, BitVec.ofNat_toNat, BitVec.setWidth_eq]
  simp only [encodeSequence, decodeSequence, hL]
  rw [if_neg (by simp), List.drop_length, List.take_length]
  simp only [hM]

theorem Sequence.four_le_of_wellFormed {lits : List Byte} {off : BitVec 16} {mlen : Nat}
    (h : (Sequence.seq lits off mlen).wellFormed = true) : 4 ≤ mlen := by
  simp only [Sequence.wellFormed, Bool.and_eq_true, decide_eq_true_eq] at h
  exact h.1

/-! ### Streams -/

theorem encodeStream_cons (v : Variant) (q : Sequence) (seqs : List Sequence) :
    encodeStream v (q :: seqs) = encodeSequence v q ++ encodeStream v seqs := rfl

theorem encodeStream_singleton (v : Variant) (q : Sequence) : encodeStream v [q] = encodeSequence v q :=
  List.append_nil _

/-- Every sequence takes at least one byte (R73). -/
theorem length_le_encodeStream (v : Variant) (seqs : List Sequence) : seqs.length ≤ (encodeStream v seqs).length := by
  induction seqs with
  | nil => exact Nat.zero_le _
  | cons q seqs ih =>
    have hq : 1 ≤ (encodeSequence v q).length := by cases q <;> exact Nat.succ_le_succ (Nat.zero_le _)
    rw [encodeStream_cons, List.length_append, List.length_cons]
    omega

namespace Machine

theorem expand_last_cons {out out' lits : List Byte} {m : BitVec 4} {rest : List Sequence}
    (h : expand out (.last lits m :: rest) = some out') : rest = [] ∧ out' = out ++ lits := by
  cases rest with
  | nil => exact ⟨rfl, (Option.some.inj h).symm⟩
  | cons => cases h

theorem expand_seq_cons {out out' lits : List Byte} {off : BitVec 16} {mlen : Nat} {rest : List Sequence}
    (h : expand out (.seq lits off mlen :: rest) = some out') :
    1 ≤ off.toNat ∧ off.toNat ≤ (out ++ lits).length ∧
      expand (out ++ lits ++ matchBytes (out ++ lits) off.toNat mlen) rest = some out' := by
  rw [expand] at h
  split at h
  · next hoff => exact ⟨hoff.1, hoff.2, h⟩
  · cases h

/-- The output only grows (R148). -/
theorem length_le_of_expand {out out' : List Byte} {seqs : List Sequence} (h : expand out seqs = some out') :
    out.length ≤ out'.length := by
  induction seqs generalizing out with
  | nil => cases h
  | cons q rest ih =>
    cases q with
    | seq lits off mlen =>
      have := ih (expand_seq_cons h).2.2
      simp only [List.length_append] at this
      omega
    | last lits m => rw [(expand_last_cons h).2, List.length_append]; omega

/-! ### The loop -/

variable {s t : State}

/-- What is left of the stream is the stream in IBUF from `ip` on (R73, R147). -/
theorem State.streamRest_eq_drop (s : State) : s.streamRest = (s.readBytes .ibuf 0 s.opLen).drop s.z.ip := by
  refine List.ext_getElem (by simp [State.streamRest]) fun i _ _ => ?_
  rw [List.getElem_drop, State.getElem_readBytes, Nat.zero_add]
  exact State.getElem_readBytes _ _ _ _ _ _

/-- After unit Z has advanced `ip` by `n`, the stream's rest is `n` bytes shorter. -/
theorem Extends.streamRest (h : Extends s t) {n : Nat} (hip : t.z.ip = s.z.ip + n) :
    t.streamRest = s.streamRest.drop n := by
  rw [State.streamRest_eq_drop, State.streamRest_eq_drop, List.drop_drop, hip, h.opLen]
  exact congrArg _ (State.readBytes_congr fun a _ _ => h.readByte_ibuf a)

theorem sequenceStep_of_seq {lits : List Byte} {off : BitVec 16} {mlen : Nat}
    (h : decodeSequence s.z.sel s.streamRest = .ok (.seq lits off mlen)) : sequenceStep s = lz4Seq lits off mlen s := by
  simp only [sequenceStep, State.fetchSequence, h]

theorem sequenceStep_of_last {lits : List Byte} {m : BitVec 4}
    (h : decodeSequence s.z.sel s.streamRest = .ok (.last lits m)) : sequenceStep s = lz4End lits m s := by
  simp only [sequenceStep, State.fetchSequence, h]

theorem GoesOn.trans {u : State} (h : GoesOn s t) (k : GoesOn t u) : GoesOn s u :=
  ⟨k.running.trans h.running, k.status.trans h.status, k.err.trans h.err, k.errInfo.trans h.errInfo,
    k.produced.trans h.produced⟩

/-- The loop over an assembled stream reaches the end of the stream with the output its sequences stand for: `u` is the
unit just before the size check (R147, R148). -/
theorem runStream_encodeStream {seqs : List Sequence} {out : List Byte} {fuel : Nat} (hv : s.z.sel.wf = true)
    (hr : s.z.running = true) (hs : s.streamRest = encodeStream s.z.sel seqs) (hwf : ∀ q ∈ seqs, q.wellFormed = true)
    (hex : expand s.output seqs = some out) (hfit : s.params.obufHolds out.length = true) (hf : seqs.length ≤ fuel) :
    ∃ u, Extends s u ∧ GoesOn s u ∧ u.output = out ∧ runStream fuel s = u.finishStream := by
  induction seqs generalizing s fuel with
  | nil => cases hex
  | cons q rest ih =>
    obtain ⟨fuel, rfl⟩ := Nat.exists_eq_add_of_le' (Nat.le_trans (Nat.succ_le_succ (Nat.zero_le rest.length)) hf)
    rw [runStream_succ hr]
    cases q with
    | last lits m =>
      obtain ⟨rfl, rfl⟩ := expand_last_cons hex
      have hfits : s.literalFits lits = true := by rwa [List.length_append, State.length_output] at hfit
      rw [encodeStream_singleton] at hs
      have hd := decodeSequence_encode_last hv lits m
      rw [← hs] at hd
      rw [sequenceStep_of_last hd, lz4End_of_fits m hfits, runStream_of_not_running (State.finishStream_running _)]
      exact ⟨_, extends_literalRun s lits hfits, goesOn_literalRun s lits, State.output_literalRun hfits, rfl⟩
    | seq lits off mlen =>
      obtain ⟨h1, h2, hex'⟩ := expand_seq_cons hex
      have hlen := length_le_of_expand hex'
      simp only [List.length_append, length_matchBytes, State.length_output] at h2 hlen
      have hd := decodeSequence_encode_seq hv lits off (Sequence.four_le_of_wellFormed (hwf _ List.mem_cons_self))
        (encodeStream s.z.sel rest)
      rw [← encodeStream_cons, ← hs] at hd
      rw [sequenceStep_of_seq hd]
      have he := (lz4Seq_cases lits off mlen s).1
      obtain ⟨hg, hip, hout⟩ := lz4Seq_appends h1 h2 (Params.obufHolds_mono hlen hfit)
      have hrest : (lz4Seq lits off mlen s).streamRest = encodeStream s.z.sel rest := by
        rw [he.streamRest hip, hs, encodeStream_cons, ← length_encodeSequence_seq s.z.sel, List.drop_left]
      obtain ⟨u, hu, hgu, hou, hru⟩ := ih (s := lz4Seq lits off mlen s) (fuel := fuel) (he.sel ▸ hv)
        (hg.running.trans hr) (he.sel ▸ hrest) (fun q hq => hwf q (List.mem_cons_of_mem _ hq)) (hout ▸ hex')
        (he.params ▸ hfit) (Nat.le_of_succ_le_succ hf)
      exact ⟨u, he.trans hu, hg.trans hgu, hou, hru⟩

/-- A DECOMPRESS of an assembled stream reaches its size check with the output the sequences stand for (R82, R148). -/
theorem decompressCommand_encodeStream {v : Variant} {seqs : List Sequence} {out : List Byte}
    (hl : s.opLen ≤ s.params.ibufCap) (hv : s.opVariant? = some v) (hvwf : v.wf = true)
    (hs : s.readBytes .ibuf 0 s.opLen = encodeStream v seqs) (hwf : ∀ q ∈ seqs, q.wellFormed = true)
    (hex : expand [] seqs = some out) (hfit : s.params.obufHolds out.length = true) :
    ∃ u, Extends (s.openStream v) u ∧ GoesOn (s.openStream v) u ∧ u.output = out ∧
      decompressCommand s = u.finishStream := by
  have hrest : (s.openStream v).streamRest = encodeStream v seqs :=
    (State.readBytes_congr fun a _ _ => s.openStream_readByte v .ibuf a).trans hs
  have hfuel : seqs.length ≤ s.opLen + 1 := by
    have := length_le_encodeStream v seqs
    rw [← hs, State.length_readBytes] at this
    omega
  rw [decompressCommand_of_supported hl hv]
  exact runStream_encodeStream hvwf rfl hrest hwf hex hfit hfuel

end Machine

end Sys2Proof
end
section
/-!
Two DECOMPRESSes of one stream (spec/43_lz4_decompress.md R148): what the loop makes of the output and of the report
depends on the stream, its length, the variant, `EXPECTED`, `OBUF_CAP` and the output so far alone.
-/
namespace Sys2Proof.Machine

variable {s t s' t' : State}

/-- Two units at the same point of a DECOMPRESS of the same stream: everything the rest of it depends on is alike, and
so is the report. Bytes outside the stream and the output may differ. -/
structure SameCourse (s t : State) : Prop where
  obufCap : t.params.obufCap = s.params.obufCap
  expected : t.opExpected = s.opExpected
  stream : t.readBytes .ibuf 0 t.opLen = s.readBytes .ibuf 0 s.opLen
  sel : t.z.sel = s.z.sel
  ip : t.z.ip = s.z.ip
  output : t.output = s.output
  running : t.z.running = s.z.running
  status : t.status = s.status
  err : t.err = s.err
  errInfo : t.errInfo = s.errInfo

namespace SameCourse

theorem op (h : SameCourse s t) : t.z.op = s.z.op := by rw [← t.length_output, h.output, s.length_output]

theorem obufHolds (h : SameCourse s t) (n : Nat) : t.params.obufHolds n = s.params.obufHolds n := by
  unfold Params.obufHolds
  rw [h.obufCap]

theorem literalFits (h : SameCourse s t) (lits : List Byte) : t.literalFits lits = s.literalFits lits := by
  rw [State.literalFits, h.op, h.obufHolds]
  rfl

theorem literalStart (h : SameCourse s t) (lits : List Byte) : t.literalStart lits = s.literalStart lits := by
  rw [State.literalStart, h.ip]
  rfl

theorem fetchSequence (h : SameCourse s t) : t.fetchSequence = s.fetchSequence := by
  unfold State.fetchSequence
  rw [State.streamRest_eq_drop, h.stream, h.ip, h.sel, ← State.streamRest_eq_drop]

/-- What unit Z does on both units keeps them at the same point, if it moves `ip` and the output alike and reports
alike. -/
theorem extend (h : SameCourse s t) (hs : Extends s s') (ht : Extends t t') (hip : t'.z.ip = s'.z.ip)
    (hout : t'.output = s'.output) (hrun : t'.z.running = s'.z.running) (hst : t'.status = s'.status)
    (herr : t'.err = s'.err) (hinfo : t'.errInfo = s'.errInfo) : SameCourse s' t' where
  obufCap := by rw [ht.params, hs.params, h.obufCap]
  expected := by
    have he := h.expected
    unfold State.opExpected at he ⊢
    rw [ht.latch, hs.latch, he]
  stream := by
    rw [ht.opLen, hs.opLen, State.readBytes_congr fun a _ _ => ht.readByte_ibuf a,
      State.readBytes_congr fun a _ _ => hs.readByte_ibuf a, h.stream]
  sel := by rw [ht.sel, hs.sel, h.sel]
  ip := hip
  output := hout
  running := hrun
  status := hst
  err := herr
  errInfo := hinfo

theorem goesOn (h : SameCourse s t) (hs : Extends s s') (ht : Extends t t') (gs : GoesOn s s') (gt : GoesOn t t')
    (hip : t'.z.ip = s'.z.ip) (hout : t'.output = s'.output) : SameCourse s' t' :=
  h.extend hs ht hip hout (by rw [gt.running, gs.running, h.running]) (by rw [gt.status, gs.status, h.status])
    (by rw [gt.err, gs.err, h.err]) (by rw [gt.errInfo, gs.errInfo, h.errInfo])

/-! Each part of a sequence keeps two units at the same point: it decides alike and writes alike. -/

theorem raiseStream (h : SameCourse s t) (e : ErrCode) (info : Nat) :
    SameCourse (s.raiseStream e info) (t.raiseStream e info) := by
  refine h.extend (extends_raiseStream s e info) (extends_raiseStream t e info) h.ip ?_ rfl rfl rfl rfl
  rw [State.output_raiseStream, State.output_raiseStream, h.output]

theorem literalRun (h : SameCourse s t) {lits : List Byte} (hf : s.literalFits lits = true) :
    SameCourse (s.literalRun lits) (t.literalRun lits) := by
  have hf' : t.literalFits lits = true := (h.literalFits lits).trans hf
  refine h.goesOn (extends_literalRun s lits hf) (extends_literalRun t lits hf') (goesOn_literalRun s lits)
    (goesOn_literalRun t lits) ?_ ?_
  · exact congrArg (· + lits.length) (h.literalStart lits)
  · rw [State.output_literalRun hf, State.output_literalRun hf', h.output]

theorem matchFields (h : SameCourse s t) (off mlen : Nat) :
    SameCourse (s.matchFields off mlen) (t.matchFields off mlen) := by
  refine h.goesOn (extends_matchFields s off mlen) (extends_matchFields t off mlen) ⟨rfl, rfl, rfl, rfl, rfl⟩
    ⟨rfl, rfl, rfl, rfl, rfl⟩ ?_ ?_
  · exact congrArg (· + 2 + extCount (mlen - 4)) h.ip
  · rw [State.output_matchFields, State.output_matchFields, h.output]

theorem matchCopy (h : SameCourse s t) (q off mlen : Nat) :
    SameCourse (s.matchCopy q off mlen) (t.matchCopy q off mlen) := by
  by_cases hoff : off = 0 ∨ s.z.op < off
  · rw [State.matchCopy, if_pos hoff, State.matchCopy, if_pos (h.op ▸ hoff)]
    exact h.raiseStream _ _
  have h1 : 1 ≤ off := by omega
  have h2 : off ≤ s.z.op := by omega
  by_cases hfit : s.params.obufHolds (s.z.op + mlen) = true
  · have hfit' : t.params.obufHolds (t.z.op + mlen) = true := by rwa [h.op, h.obufHolds]
    have h2' : off ≤ t.z.op := h.op ▸ h2
    refine h.goesOn (matchCopy_cases s q off mlen).1 (matchCopy_cases t q off mlen).1 (State.goesOn_matchCopy q h1 h2 hfit)
      (State.goesOn_matchCopy q h1 h2' hfit') ?_ ?_
    · rw [State.matchCopy_ok s q h1 h2 hfit, State.matchCopy_ok t q h1 h2' hfit']
      exact h.ip
    · rw [State.output_matchCopy q h1 h2 hfit, State.output_matchCopy q h1 h2' hfit', h.output]
  · rw [State.matchCopy, if_neg hoff, if_neg hfit, State.matchCopy, if_neg (h.op ▸ hoff),
      if_neg (by rwa [h.op, h.obufHolds])]
    exact h.raiseStream _ _

theorem finishStream (h : SameCourse s t) : SameCourse s.finishStream t.finishStream := by
  refine h.extend (extends_finishStream s) (extends_finishStream t) ?_ ?_ ?_ ?_ ?_ ?_
  · rw [State.finishStream_eq, State.finishStream_eq]
    exact h.ip
  · rw [State.output_finishStream, State.output_finishStream, h.output]
  · rw [State.finishStream_running, State.finishStream_running]
  all_goals
    rw [State.finishStream_eq, State.finishStream_eq]
    simp only [h.op, h.expected]

/-- A literal run that fits is executed and `f` goes on; one that does not raises `OutputOverrun` (R142). -/
theorem guardedRun (h : SameCourse s t) (lits : List Byte) {f : State → State}
    (hf : ∀ {u v}, SameCourse u v → SameCourse (f u) (f v)) :
    SameCourse
      (if s.literalFits lits then f (s.literalRun lits) else s.raiseStream .outputOverrun (s.literalStart lits))
      (if t.literalFits lits then f (t.literalRun lits) else t.raiseStream .outputOverrun (t.literalStart lits)) := by
  rw [h.literalFits, h.literalStart]
  split
  · next hfit => exact hf (h.literalRun hfit)
  · exact h.raiseStream _ _

theorem lz4Seq (h : SameCourse s t) (lits : List Byte) (off : BitVec 16) (mlen : Nat) :
    SameCourse (lz4Seq lits off mlen s) (lz4Seq lits off mlen t) := by
  refine h.guardedRun lits (f := fun u => (u.matchFields off.toNat mlen).matchCopy u.z.ip off.toNat mlen)
    fun {u v} huv => ?_
  rw [huv.ip]
  exact (huv.matchFields off.toNat mlen).matchCopy u.z.ip off.toNat mlen

theorem lz4End (h : SameCourse s t) (lits : List Byte) (m : BitVec 4) :
    SameCourse (lz4End lits m s) (lz4End lits m t) := h.guardedRun lits finishStream

theorem truncatedSequence (h : SameCourse s t) (pos : Nat) (run : Option (List Byte)) :
    SameCourse (truncatedSequence pos run s) (truncatedSequence pos run t) := by
  unfold Machine.truncatedSequence
  rw [h.ip]
  cases run with
  | none => exact h.raiseStream _ _
  | some lits => exact h.guardedRun lits fun huv => huv.raiseStream _ _

theorem sequenceStep (h : SameCourse s t) : SameCourse (sequenceStep s) (sequenceStep t) := by
  unfold Machine.sequenceStep
  rw [h.fetchSequence]
  split
  · exact h.lz4Seq _ _ _
  · exact h.lz4End _ _
  · next r hr =>
    obtain ⟨pos, run, rfl⟩ := decodeSequence_reject hr
    exact h.truncatedSequence pos run

/-- The stream loop keeps two units at the same point (R147). -/
theorem runStream (h : SameCourse s t) (fuel : Nat) : SameCourse (runStream fuel s) (runStream fuel t) := by
  induction fuel generalizing s t with
  | zero => exact h
  | succ fuel ih =>
    unfold Machine.runStream
    rw [h.running]
    split
    · exact ih h.sequenceStep
    · exact h

end SameCourse

end Sys2Proof.Machine
end
section
/-!
The two commands as a host issues them (spec/30_encoding.md R81, spec/44_host_commands.md R178, R179) under R225's
conditions: their results, that no unspecified byte reaches them, and the region flow.
-/
namespace Sys2Proof.Machine

variable {s t : State}

/-! ### Issue and wait -/

/-- The host's DECRYPT is the command at the issued state (R178). -/
theorem runStatement_decrypt (hb : s.status ≠ .busy) :
    runStatement .decrypt s = .next (decryptCommand (s.issue 0x00000001#32), []) := by
  simp only [runStatement, (runCommand_eq_step hb _).trans (step_issue s 0x00000001#32)]
  rfl

/-- The host's DECOMPRESS is the command at the issued state (R178). -/
theorem runStatement_decompress (hb : s.status ≠ .busy) :
    runStatement .decompress s = .next (decompressCommand (s.issue 0x00000002#32), []) := by
  simp only [runStatement, (runCommand_eq_step hb _).trans (step_issue s 0x00000002#32)]
  rfl

theorem runProgram_cons {st : Statement} (sts : List Statement) (h : runStatement st s = .next (t, [])) :
    runProgram (st :: sts) s = runProgram sts t := by
  rw [runProgram, h]
  simp only [List.nil_append]
  cases runProgram sts t <;> rfl

/-- The registers the host reads are alike if the fields they show are (R26). -/
theorem State.readReg_congr (hst : t.status = s.status) (herr : t.err = s.err) (hinfo : t.errInfo = s.errInfo)
    (hlen : t.len = s.len) (hexp : t.expected = s.expected) (hvar : t.variant = s.variant)
    (hprod : t.produced = s.produced) (n : Nat) : t.readReg n = s.readReg n := by
  unfold State.readReg State.statusWord State.errWord
  rw [hst, herr, hinfo, hlen, hexp, hvar, hprod]

/-! ### The result of one command -/

theorem ended_decompressCommand {v : Variant} (hl : s.opLen ≤ s.params.ibufCap) (hv : s.opVariant? = some v) :
    Ended (decompressCommand s) := by
  rw [decompressCommand_of_supported hl hv]
  exact ended_runStream rfl (Nat.zero_le _) (Nat.le_add_left _ _)

/-- The report of a DECOMPRESS at its size check (R148, R192), in the registers the host reads. -/
theorem State.finishStream_report (s : State) :
    s.finishStream.readReg 1 = (if s.z.op = s.opExpected then 2 else 3) ∧
    s.finishStream.readReg 2 = (if s.z.op = s.opExpected then 0 else 3) ∧
    s.finishStream.readReg 3 = (if s.z.op = s.opExpected then 0 else BitVec.ofNat 32 s.z.op) ∧
    s.finishStream.readReg 7 = BitVec.ofNat 32 s.z.op := by
  rw [State.finishStream_eq]
  refine ⟨?_, ?_, rfl, rfl⟩
  · show BitVec.ofNat 32 (CmdState.code (if _ then _ else _)) = _
    split <;> rfl
  · show BitVec.ofNat 32 (ErrCode.code (if _ then _ else _)) = _
    split <;> rfl

/-- What the host finds after a DECOMPRESS of an assembled stream (R82, R148): the output and nothing else in OBUF, and
everything else but the report as it was. -/
theorem decompressCommand_encodeStream_result {v : Variant} {seqs : List Sequence} {out : List Byte}
    (hl : s.opLen ≤ s.params.ibufCap) (hv : s.opVariant? = some v) (hvwf : v.wf = true)
    (hs : s.readBytes .ibuf 0 s.opLen = encodeStream v seqs) (hwf : ∀ q ∈ seqs, q.wellFormed = true)
    (hex : expand [] seqs = some out) (hfit : s.params.obufHolds out.length = true) :
    (decompressCommand s).readReg 1 = (if out.length = s.opExpected then 2 else 3) ∧
    (decompressCommand s).readReg 2 = (if out.length = s.opExpected then 0 else 3) ∧
    (decompressCommand s).readReg 3 = (if out.length = s.opExpected then 0 else BitVec.ofNat 32 out.length) ∧
    (decompressCommand s).readReg 7 = BitVec.ofNat 32 out.length ∧
    (∀ i, i < out.length → (decompressCommand s).readByte .obuf i = out.getD i 0) ∧
    (∀ a, out.length ≤ a → (decompressCommand s).readByte .obuf a = s.readByte .obuf a) ∧
    ∀ a, (decompressCommand s).readByte .ibuf a = s.readByte .ibuf a := by
  obtain ⟨u, he, -, rfl, hd⟩ := decompressCommand_encodeStream hl hv hvwf hs hwf hex hfit
  have hexp : u.opExpected = s.opExpected := congrArg (·.expected.toNat) he.latch
  obtain ⟨h1, h2, h3, h7⟩ := u.finishStream_report
  rw [hd, State.length_output, ← hexp]
  refine ⟨h1, h2, h3, h7, fun i hi => ?_, fun a ha => ?_, fun a => ?_⟩
  · rw [State.finishStream_readByte]
    exact (State.getD_output hi).symm
  · rw [State.finishStream_readByte, he.readByte (.inr ha), State.openStream_readByte]
  · rw [State.finishStream_readByte, he.readByte_ibuf, State.openStream_readByte]

theorem readReg_operands_congr (hlen : t.len = s.len) (hexp : t.expected = s.expected) (hvar : t.variant = s.variant) :
    ∀ n, n = 4 ∨ n = 5 ∨ n = 6 → t.readReg n = s.readReg n := by
  rintro n (rfl | rfl | rfl)
  · exact hlen
  · exact hexp
  · exact hvar

/-! ### Equal operands -/

/-- A written byte is specified: it does not depend on the unit or the reset (R61). -/
theorem State.readByte_ibuf_of_written {n a : Nat} (hw : s.written n) (ha : a < n)
    (h : t.ibuf.get? a = s.ibuf.get? a) : t.readByte .ibuf a = s.readByte .ibuf a := by
  obtain ⟨v, hv⟩ := Option.isSome_iff_exists.1 (hw a ha)
  simp only [State.readByte, State.mem_ibuf, h, hv]

/-- Two units with the same parameters and the same specified operands for a command: the operand registers and the
written bytes `IBUF[0..LEN)` (R225). -/
structure SameOperands (s t : State) : Prop where
  params : t.params = s.params
  len : t.len = s.len
  expected : t.expected = s.expected
  variant : t.variant = s.variant
  written : s.written s.len.toNat
  ibuf : ∀ a < s.len.toNat, t.ibuf.get? a = s.ibuf.get? a

namespace SameOperands

theorem readByte_ibuf (h : SameOperands s t) {a : Nat} (ha : a < s.len.toNat) :
    t.readByte .ibuf a = s.readByte .ibuf a := State.readByte_ibuf_of_written h.written ha (h.ibuf a ha)

/-- DECRYPT makes the same of the same operands (R126, R225). -/
theorem decrypt (h : SameOperands s t) (hl : s.len.toNat ≤ s.params.ibufCap) (w : Word) :
    (∀ n, (decryptCommand (t.issue w)).readReg n = (decryptCommand (s.issue w)).readReg n) ∧
    ∀ a < s.len.toNat, (decryptCommand (t.issue w)).readByte .ibuf a = (decryptCommand (s.issue w)).readByte .ibuf a := by
  have hs : (s.issue w).opLen ≤ (s.issue w).params.ibufCap := hl
  have ht : (t.issue w).opLen ≤ (t.issue w).params.ibufCap := by
    show t.len.toNat ≤ t.params.ibufCap
    rwa [h.len, h.params]
  have hn : (t.issue w).opLen = (s.issue w).opLen := congrArg BitVec.toNat h.len
  refine ⟨fun n => ?_, fun a ha => ?_⟩
  · rw [decryptCommand_eq hs, decryptCommand_eq ht, hn]
    refine State.readReg_congr ?_ ?_ ?_ ?_ ?_ ?_ ?_ n
    exacts [rfl, rfl, rfl, h.len, h.expected, h.variant, rfl]
  · rw [decryptCommand_readByte hs, decryptCommand_readByte ht, hn]
    simp only [State.issue_readByte, State.issue_params, h.readByte_ibuf ha, h.params]

/-- Two issued DECOMPRESSes of the same operands begin their stream at the same point. -/
theorem openStream (h : SameOperands s t) (w : Word) (v : Variant) :
    SameCourse ((s.issue w).openStream v) ((t.issue w).openStream v) where
  obufCap := congrArg Params.obufCap h.params
  expected := congrArg BitVec.toNat h.expected
  stream := by
    show State.readBytes _ .ibuf 0 t.len.toNat = State.readBytes _ .ibuf 0 s.len.toNat
    rw [h.len]
    refine State.readBytes_congr fun a _ ha => ?_
    simp only [State.openStream_readByte, State.issue_readByte]
    exact h.readByte_ibuf (by omega)
  sel := rfl
  ip := rfl
  output := rfl
  running := rfl
  status := rfl
  err := rfl
  errInfo := rfl

/-- DECOMPRESS leaves the written bytes as they are (R148). -/
theorem decompress_ibuf (h : SameOperands s t) (w : Word) {a : Nat} (ha : a < s.len.toNat) :
    (decompressCommand (t.issue w)).readByte .ibuf a = (decompressCommand (s.issue w)).readByte .ibuf a := by
  have ks := (KeepsInputs.decompressCommand (s.issue w)).ibuf
  have kt := (KeepsInputs.decompressCommand (t.issue w)).ibuf
  refine State.readByte_ibuf_of_written (n := s.len.toNat) ?_ ha ?_
  · rw [State.written, ks]
    exact h.written
  · rw [ks, kt]
    exact h.ibuf a ha

/-- DECOMPRESS makes the same of the same operands (R149, R225): it reports alike, or fails the check of its code alike,
and the bytes it has produced are alike. -/
theorem decompress (h : SameOperands s t) (hl : s.len.toNat ≤ s.params.ibufCap) (w : Word) :
    (∀ n, (decompressCommand (t.issue w)).readReg n = (decompressCommand (s.issue w)).readReg n) ∧
    ∀ a < (decompressCommand (s.issue w)).produced.toNat,
      (decompressCommand (t.issue w)).readByte .obuf a = (decompressCommand (s.issue w)).readByte .obuf a := by
  have hlt : t.len.toNat ≤ t.params.ibufCap := by rwa [h.len, h.params]
  have hvt : (t.issue w).opVariant? = (s.issue w).opVariant? := by
    show t.params.profile.variants.lookup t.variant = s.params.profile.variants.lookup s.variant
    rw [h.params, h.variant]
  have ks := KeepsInputs.decompressCommand (s.issue w)
  have kt := KeepsInputs.decompressCommand (t.issue w)
  have hlen := kt.len.trans (h.len.trans ks.len.symm)
  have hexp := kt.expected.trans (h.expected.trans ks.expected.symm)
  have hvar := kt.variant.trans (h.variant.trans ks.variant.symm)
  cases hv : (s.issue w).opVariant? with
  | none =>
    have hd := decompressCommand_of_unsupported (s := s.issue w) hl hv
    have hd' := decompressCommand_of_unsupported (s := t.issue w) hlt (hvt.trans hv)
    refine ⟨State.readReg_congr ?_ ?_ ?_ hlen hexp hvar ?_, fun a ha => ?_⟩
    · rw [hd, hd']; rfl
    · rw [hd, hd']; rfl
    · rw [hd, hd', State.raise_errInfo, State.raise_errInfo, State.issue_latch, State.issue_latch, h.variant]
    · rw [hd, hd']; rfl
    · rw [hd] at ha
      exact absurd ha (Nat.not_lt_zero a)
  | some v =>
    have hrun : SameCourse (decompressCommand (s.issue w)) (decompressCommand (t.issue w)) := by
      rw [decompressCommand_of_supported (s := s.issue w) hl hv,
        decompressCommand_of_supported (s := t.issue w) hlt (hvt.trans hv), State.opLen, State.opLen, State.issue_latch,
        State.issue_latch, h.len]
      exact (h.openStream w v).runStream _
    have hend := ended_decompressCommand (s := s.issue w) hl hv
    have hend' := ended_decompressCommand (s := t.issue w) hlt (hvt.trans hv)
    refine ⟨State.readReg_congr hrun.status hrun.err hrun.errInfo hlen hexp hvar ?_, fun a ha => ?_⟩
    · rw [hend.produced, hend'.produced, hrun.op]
    · rw [hend.produced] at ha
      have ha := Nat.lt_of_lt_of_le ha (Nat.mod_le _ _)
      rw [← State.getD_output (hrun.op ▸ ha), hrun.output, State.getD_output ha]

end SameOperands

/-! ### The statements -/

/-- Settles O25: DECRYPT by its bytes, DECOMPRESS by the run of its sequences, and both by equal operands. -/
theorem commandStatementsFromReady : Obligations.CommandStatementsFromReady := by
  refine ⟨fun s hr hl => ?_, fun s v seqs out hr hl hv hs hwf hex hfit => ?_,
    fun s s' hr hr' hp hlen hexp hvar hl hib c hc => ?_⟩
  · refine ⟨_, runStatement_decrypt hr.idle, ?_⟩
    have ht := decryptCommand_eq (s := s.issue 0x00000001#32) hl
    have hb := decryptCommand_readByte (s := s.issue 0x00000001#32) hl
    simp only [State.issue_readByte] at hb
    generalize decryptCommand (s.issue 0x00000001#32) = t at ht hb
    refine ⟨?_, ?_, ?_, ?_, hb, fun a => ?_, readReg_operands_congr ?_ ?_ ?_⟩ <;>
      · rw [ht]
        rfl
  · have hs' : (s.issue 0x00000002#32).readBytes .ibuf 0 s.len.toNat = encodeStream v seqs :=
      (State.readBytes_congr fun a _ _ => s.issue_readByte _ .ibuf a).trans hs
    have hk := KeepsInputs.decompressCommand (s.issue 0x00000002#32)
    obtain ⟨h1, h2, h3, h7, hout, habove, hibuf⟩ := decompressCommand_encodeStream_result
      (s := s.issue 0x00000002#32) hl hv (Params.variant_wf hr.profile hv) hs' hwf hex hfit
    simp only [State.issue_readByte] at habove hibuf
    exact ⟨_, runStatement_decompress hr.idle, h1, h2, h3, h7, hout, habove, hibuf,
      readReg_operands_congr hk.len hk.expected hk.variant⟩
  · have hsame : SameOperands s s' :=
      ⟨hp.symm, hlen.symm, hexp.symm, hvar.symm, hr.bytes, fun a ha => (hib a ha).symm⟩
    rcases hc with rfl | rfl
    · obtain ⟨hregs, hbytes⟩ := hsame.decrypt hl 0x00000001#32
      exact ⟨_, _, runStatement_decrypt hr.idle, runStatement_decrypt hr'.idle, fun n => (hregs n).symm,
        fun a ha => (hbytes a ha).symm, fun h => by cases h⟩
    · obtain ⟨hregs, hout⟩ := hsame.decompress hl 0x00000002#32
      exact ⟨_, _, runStatement_decompress hr.idle, runStatement_decompress hr'.idle, fun n => (hregs n).symm,
        fun a ha => (hsame.decompress_ibuf _ ha).symm, fun _ a ha => (hout a ha).symm⟩

/-- A DECRYPT turns bytes XORed with the keystream where it touches them back into the bytes (R121, R123, R179). -/
theorem decryptCommand_readBytes_xored {src : List Byte} (hl : s.opLen ≤ s.params.ibufCap) (hlen : src.length = s.opLen)
    (h : ∀ a < s.opLen, s.readByte .ibuf a =
      if touches s.opLen a then src.getD a 0 ^^^ keystreamByte s.params.profile (keystreamIndex s.opLen a)
      else src.getD a 0) :
    (decryptCommand s).readBytes .ibuf 0 s.opLen = src := by
  rw [← hlen]
  refine State.readBytes_eq fun a ha => ?_
  rw [Nat.zero_add, decryptCommand_readByte hl, h a (hlen ▸ ha)]
  split
  · rw [BitVec.xor_assoc, BitVec.xor_self, BitVec.xor_zero]
    rfl
  · rfl

/-- Settles O50: the DECRYPT leaves the stream in IBUF and the operand registers as they were, so the DECOMPRESS after it
is one of an assembled stream. -/
theorem regionFlowDecodes : Obligations.RegionFlowDecodes := by
  intro s v seqs out hr hl hv hlen hwf hbytes hex hfit hexp
  have ht := decryptCommand_eq (s := s.issue 0x00000001#32) hl
  have hsrc : (decryptCommand (s.issue 0x00000001#32)).readBytes .ibuf 0 s.len.toNat = encodeStream v seqs :=
    decryptCommand_readBytes_xored (s := s.issue 0x00000001#32) hl hlen fun a ha =>
      (s.issue_readByte _ .ibuf a).trans (hbytes a ha)
  rw [runProgram_cons _ (runStatement_decrypt hr.idle), runProgram_cons _ (runStatement_decompress
    (decryptCommand_not_busy _))]
  generalize decryptCommand (s.issue 0x00000001#32) = t at ht hsrc
  have hp : t.params = s.params := by rw [ht]; rfl
  have htl : t.len = s.len := by rw [ht]; rfl
  have htv : t.variant = s.variant := by rw [ht]; rfl
  have hte : t.expected = s.expected := by rw [ht]; rfl
  have hv' : (t.issue 0x00000002#32).opVariant? = some v := by
    show t.params.profile.variants.lookup t.variant = some v
    rwa [hp, htv]
  have hs' : (t.issue 0x00000002#32).readBytes .ibuf 0 t.len.toNat = encodeStream v seqs := by
    rw [htl, ← hsrc]
    exact State.readBytes_congr fun a _ _ => t.issue_readByte _ .ibuf a
  have hexp' : out.length = (t.issue 0x00000002#32).opExpected := hexp.trans (congrArg BitVec.toNat hte).symm
  obtain ⟨h1, h2, -, h7, hout, -⟩ := decompressCommand_encodeStream_result (s := t.issue 0x00000002#32)
    (show t.len.toNat ≤ t.params.ibufCap by rwa [htl, hp]) hv' (Params.variant_wf hr.profile hv) hs' hwf hex
    (show t.params.obufHolds out.length = true by rwa [hp])
  exact ⟨_, rfl, h1.trans (if_pos hexp'), h2.trans (if_pos hexp'), h7, hout⟩

end Sys2Proof.Machine
end
section
/-!
The encodings (spec/30_encoding.md): the encoder and the decoder undo each other, in both directions (R71 to R78, R82),
and where a truncated stream is rejected (R79, R141 to R145).
-/
namespace Sys2Proof

open Machine

/-! ### Tokens and offsets -/

/-- A stored token is made of the nibbles it splits into (R74, R82). -/
theorem encodeToken_tokenSplit {v : Variant} (hv : v.wf = true) (t : Byte) :
    encodeToken v (tokenSplit v t).1.toNat (tokenSplit v t).2.toNat = t := by
  rw [← unpermuteBits_permuteBits hv t, tokenSplit, permuteBits_unpermuteBits hv, encodeToken]
  refine congrArg _ (BitVec.eq_of_toNat_eq ?_)
  simp only [BitVec.toNat_ofNat, BitVec.extractLsb'_toNat, Nat.shiftRight_eq_div_pow]
  omega

/-- The bytes of an offset are the bytes it was read from (R77). -/
theorem encodeOffset_offsetOf (o : ByteOrder) (b0 b1 : Byte) : encodeOffset o (offsetOf o b0 b1) = [b0, b1] := by
  have h0 := b0.isLt
  have h1 := b1.isLt
  have hbytes {x y : Byte} (hx : x = b0) (hy : y = b1) : [x, y] = [b0, b1] := by rw [hx, hy]
  cases o <;> refine hbytes (BitVec.eq_of_toNat_eq ?_) (BitVec.eq_of_toNat_eq ?_) <;>
    simp only [BitVec.extractLsb'_toNat, Nat.shiftRight_eq_div_pow, offsetOf_le, offsetOf_be] <;> omega

/-! ### The length extension -/

/-- A length nibble below 15 is complete and reads nothing (R76). -/
theorem readLenExt_of_lt {base : Nat} (h : base < 15) (src : List Byte) : readLenExt base src = some (base, 0, src) :=
  if_neg (by omega)

/-- A run of 255s that the stream's end cuts is no length (R76, R141). -/
theorem readLenExt_unfinished (k : Nat) : readLenExt 15 (List.replicate k 255#8) = none := by
  rw [readLenExt, if_pos rfl, readExt_unfinished]

/-- A length nibble of 15, `k` bytes of 255 and a last byte below 255 (R76). -/
theorem readLenExt_run (k : Nat) {r : Byte} (hr : r.toNat < 255) (rest : List Byte) :
    readLenExt 15 (List.replicate k 255#8 ++ r :: rest) = some (15 + 255 * k + r.toNat, k + 1, rest) := by
  have hr' : r ≠ 255#8 := by
    rintro rfl
    exact absurd hr (by decide)
  rw [readLenExt, if_pos rfl, readExt_run k hr', Nat.add_assoc]

/-! ### Where a truncated stream is rejected -/

section Truncated

variable {v : Variant} {t : Byte} {lits : List Byte}

/-- The literal extension never ends: the missing byte is at the stream's end (R141). -/
theorem decodeSequence_of_literal_extension_unfinished {src : List Byte}
    (h : readLenExt (tokenSplit v t).1.toNat src = none) :
    decodeSequence v (t :: src) = .reject (.truncated (1 + src.length) none) := by
  simp only [decodeSequence, h, List.length_cons, Nat.add_comm]

/-- The literal run is cut: its first byte is reported (R142). -/
theorem decodeSequence_of_literal_run_cut {n : Nat} {xs : List Byte} (hL : (tokenSplit v t).1.toNat = min n 15)
    (hx : xs.length < n) :
    decodeSequence v (t :: (encodeExt n ++ xs)) = .reject (.truncated (1 + extCount n) none) := by
  simp only [decodeSequence, hL, readLenExt_encodeExt, if_pos hx]

/-- The second offset byte is missing: the first is reported, after a complete run (R143). -/
theorem decodeSequence_of_offset_cut (hL : (tokenSplit v t).1.toNat = min lits.length 15) (b0 : Byte) :
    decodeSequence v (t :: (encodeExt lits.length ++ (lits ++ [b0]))) =
      .reject (.truncated (1 + extCount lits.length + lits.length) (some lits)) := by
  simp only [decodeSequence, hL, readLenExt_encodeExt]
  rw [if_neg (by simp), List.drop_left, List.take_left]

/-- The match extension never ends: the missing byte is at the stream's end, after a complete run (R141, R145). -/
theorem decodeSequence_of_match_extension_unfinished (hL : (tokenSplit v t).1.toNat = min lits.length 15)
    (b0 b1 : Byte) {src : List Byte} (h : readLenExt (tokenSplit v t).2.toNat src = none) :
    decodeSequence v (t :: (encodeExt lits.length ++ (lits ++ b0 :: b1 :: src))) =
      .reject (.truncated (1 + extCount lits.length + lits.length + 2 + src.length) (some lits)) := by
  simp only [decodeSequence, hL, readLenExt_encodeExt]
  rw [if_neg (by simp), List.drop_left, List.take_left]
  simp only [h, List.length_cons, List.length_append, length_encodeExt, DecodedSeq.reject.injEq,
    Reject.truncated.injEq, and_true]
  omega

end Truncated

/-- A stream whose first sequence decodes is the instruction of that sequence. -/
theorem decode_stream_of_ok {v : Variant} {src : List Byte} {q : Sequence} (h : decodeSequence v src = .ok q) :
    decode v (.stream src) = .ok q.toInstr := by
  simp only [decode, h]

/-! ### The statements -/

/-- Settles O33: the commands by their words, the sequences by the decoder on their encoding. -/
theorem decodeEncodeAgree : Obligations.DecodeEncodeAgree := by
  intro v i hv hi
  cases i with
  | decrypt => rfl
  | decompress => rfl
  | lz4Seq lits off mlen =>
    have h := decodeSequence_encode_seq hv lits off (Sequence.four_le_of_wellFormed hi) []
    rw [List.append_nil] at h
    exact decode_stream_of_ok h
  | lz4End lits m => exact decode_stream_of_ok (decodeSequence_encode_last hv lits m)

/-- Settles O35: each part the decoder has read is encoded as it stood in the stream. -/
theorem encodingIsUnique : Obligations.EncodingIsUnique := by
  intro v src q hv h
  obtain ⟨t, rest, hL, hq⟩ := decodeSequence_ok h
  have ht := encodeToken_tokenSplit hv t
  rw [hL] at ht
  cases q with
  | seq lits off mlen =>
    obtain ⟨hm, hM, b0, b1, rfl, hsrc⟩ := hq
    rw [hM] at ht
    refine ⟨hm, rest, ?_⟩
    rw [hsrc, encodeSequence, encodeOffset_offsetOf]
    exact congrArg (· :: _) ht.symm
  | last lits m =>
    obtain ⟨rfl, -, hsrc⟩ := hq
    exact hsrc.trans (congrArg (· :: _) ht.symm)

/-- Settles O34: the decoder on the encoding before any rest, and the encoding's length part by part. -/
theorem sequenceDecodesBeforeRest : Obligations.SequenceDecodesBeforeRest := fun v lits off mlen rest hv hm =>
  ⟨decodeSequence_encode_seq hv lits off hm rest, length_encodeSequence_seq v lits off mlen⟩

/-- Settles O36: a pair of nibbles is split from the token encoded from it, and from no other. -/
theorem everyTokenLegal : Obligations.EveryTokenLegal := by
  intro v hv
  refine Function.bijective_iff_has_inverse.2
    ⟨fun p => encodeToken v p.1.toNat p.2.toNat, encodeToken_tokenSplit hv, fun ⟨l, m⟩ => ?_⟩
  rw [tokenSplit_encodeToken hv m.isLt, BitVec.ofNat_toNat, BitVec.ofNat_toNat, BitVec.setWidth_eq, BitVec.setWidth_eq]

/-- Settles O37: the length by its nibble, the offset by its byte order. -/
theorem sequenceFields : Obligations.SequenceFields :=
  ⟨fun _ src h => readLenExt_of_lt h src, fun k _ rest hr => readLenExt_run k hr rest, readLenExt_unfinished,
    fun b0 b1 => ⟨offsetOf_le b0 b1, offsetOf_be b0 b1⟩⟩

/-- Settles O38: one branch of the decoder after the other. -/
theorem truncationPositions : Obligations.TruncationPositions := by
  intro v t lits xs n k b0 b1
  refine ⟨rfl, fun hL => ?_, decodeSequence_of_literal_run_cut, fun hL => ⟨?_, fun hM => ?_⟩⟩
  · rw [decodeSequence_of_literal_extension_unfinished (hL ▸ readLenExt_unfinished k), List.length_replicate]
  · rw [List.append_assoc]
    exact decodeSequence_of_offset_cut hL b0
  · have h := decodeSequence_of_match_extension_unfinished hL b0 b1 (hM ▸ readLenExt_unfinished k)
    rw [List.length_replicate] at h
    simpa only [List.append_assoc, List.cons_append, List.nil_append] using h

/-- Settles O28: the decoder evaluated on the words. -/
theorem encodedWordsDecode : Obligations.EncodedWordsDecode := by
  unfold Obligations.EncodedWordsDecode
  decide

namespace Machine

variable {s t : State}

/-- Unit Z writes the report, OBUF and its own working storage (R60, R148). -/
theorem Extends.eq_update (h : Extends s t) :
    t = { s with status := t.status, err := t.err, errInfo := t.errInfo, produced := t.produced, obuf := t.obuf,
                 z := t.z } := by
  rw [← h.params, ← h.len, ← h.expected, ← h.variant, ← h.latch, ← h.ibuf, ← h.c, ← h.unit, ← h.epoch,
    ← h.draws]

/-- Settles O29: the decoder rejects the word, and the step raises what it was rejected for. -/
theorem illegalCommandRaises : Obligations.IllegalCommandRaises := by
  intro s hb hr h1 h2
  obtain ⟨h, -⟩ | ⟨h, -⟩ | ⟨-, -, hd⟩ := decodeCommand_cases s.latch.cmd
  · exact absurd h h1
  · exact absurd h h2
  · have hz : { s.z with running := false } = s.z := by rw [← hr]
    rw [step_of_command hb hr, State.fetchCommand, hd, stepDecoded_reject, rejected, State.raise, hz,
      BitVec.ofNat_toNat, BitVec.setWidth_eq]

/-- Settles O44: the loop reaches the stream's end with the output its sequences stand for, and the size check
reports. -/
theorem decompressCompletes : Obligations.DecompressCompletes := by
  intro s v seqs out hr hl hv hs hwf hex hfit
  have hvwf := Params.variant_wf hr.params_wf hv
  obtain ⟨-, -, -, -, hout, habove, -⟩ := decompressCommand_encodeStream_result hl hv hvwf hs hwf hex hfit
  refine ⟨_, rfl, hout, habove, ?_⟩
  obtain ⟨u, he, -, rfl, hd⟩ := decompressCommand_encodeStream hl hv hvwf hs hwf hex hfit
  have hexp : u.opExpected = s.latch.expected.toNat := congrArg (·.expected.toNat) he.latch
  have ht := (he.trans (extends_finishStream u)).eq_update
  rw [hd, State.length_output, ← hexp]
  rw [State.finishStream_eq] at ht ⊢
  exact ht

end Machine

end Sys2Proof
end
section
/-!
The bit and byte primitives (spec/40_primitives.md): the rotation by its bits (R90), the doubling by the value of the
byte (R91), exclusive or byte by byte (R92), and the token rewiring as a bijection (R93).
-/
namespace Sys2Proof.Machine

/-! ### Rotation -/

@[simp] theorem rol8_zero (x : Byte) : rol8 x 0 = x := if_pos rfl

/-- A rotation by 1 to 7 joins the bits shifted up with the bits shifted out (R90). -/
theorem rol8_of_pos {n : Nat} (hn : 0 < n) (x : Byte) : rol8 x n = (x <<< n) ||| (x >>> (8 - n)) :=
  if_neg (by omega)

/-- Bit `k` of a byte stands at bit `(k + n) mod 8` of the rotated byte (R90). -/
theorem getLsbD_rol8 (x : Byte) {n k : Nat} (hn : n ≤ 7) (hk : k < 8) :
    (rol8 x n).getLsbD ((k + n) % 8) = x.getLsbD k := by
  rcases Nat.eq_zero_or_pos n with rfl | hpos
  · rw [rol8_zero, Nat.add_zero, Nat.mod_eq_of_lt hk]
  rw [rol8_of_pos hpos, BitVec.getLsbD_or, BitVec.getLsbD_shiftLeft, BitVec.getLsbD_ushiftRight]
  rcases Nat.lt_or_ge (k + n) 8 with hlt | hge
  · -- the bit stays inside the byte, and the bits shifted out stand below it
    have hout : x.getLsbD (8 - n + (k + n)) = false := BitVec.getLsbD_of_ge _ _ (by omega)
    simp [Nat.mod_eq_of_lt hlt, hlt, hout]
  · -- the bit leaves the byte, and comes back below the bits shifted up
    have hmod : (k + n) % 8 = k + n - 8 := by omega
    have hlow : k + n - 8 < n := by omega
    have hback : 8 - n + (k + n - 8) = k := by omega
    simp [hmod, hlow, hback]

/-- Settles O10, by the rule for one bit; the corner cases and the examples are evaluated. -/
theorem rol8RotatesBits : Obligations.Rol8RotatesBits :=
  ⟨fun x _ _ hn hk => getLsbD_rol8 x hn hk, by decide, by decide, by decide, by decide⟩

/-! ### Doubling in the field -/

/-- The bit a doubling shifts out is set from 128 up. -/
theorem getLsbD_seven (x : Byte) : x.getLsbD 7 = true ↔ 128 ≤ x.toNat := by
  rw [← BitVec.msb_eq_getLsbD_last, BitVec.msb_eq_decide, decide_eq_true_eq]

theorem toNat_shiftLeft_one (x : Byte) : (x <<< 1).toNat = 2 * x.toNat % 256 := by
  rw [BitVec.toNat_shiftLeft, Nat.shiftLeft_eq, Nat.mul_comm]

/-- Below 128 the double needs no reduction (R91). -/
theorem toNat_xtime_of_lt {x : Byte} (hx : x.toNat < 128) : (xtime x).toNat = 2 * x.toNat := by
  rw [xtime, if_neg (by rw [getLsbD_seven]; omega), toNat_shiftLeft_one, Nat.mod_eq_of_lt (by omega)]

/-- From 128 up the double is reduced by the polynomial (R91). -/
theorem toNat_xtime_of_ge {x : Byte} (hx : 128 ≤ x.toNat) : (xtime x).toNat = (2 * x.toNat % 256) ^^^ 0x1B := by
  rw [xtime, if_pos ((getLsbD_seven x).2 hx), BitVec.toNat_xor, toNat_shiftLeft_one, BitVec.toNat_ofNat]

/-- Settles O11, by the two cases of the doubling; the examples are evaluated. -/
theorem xtimeDoublesInField : Obligations.XtimeDoublesInField :=
  ⟨fun _ => ⟨toNat_xtime_of_lt, toNat_xtime_of_ge, rfl⟩, by decide⟩

/-! ### Exclusive or -/

theorem xorBlock_xorBlock_self (a k : Block) : xorBlock (xorBlock a k) k = a :=
  Vector.ext fun i hi => by rw [getElem_xorBlock, getElem_xorBlock, xor_cancel_right]

theorem xorQuad_xorQuad_self (a k : Quad) : xorQuad (xorQuad a k) k = a :=
  Vector.ext fun i hi => by rw [getElem_xorQuad, getElem_xorQuad, xor_cancel_right]

section xorBytes

variable {a k : List Byte} (h : a.length = k.length)
include h

theorem length_xorBytes : (xorBytes a k).length = a.length := by
  rw [xorBytes, List.length_zipWith, ← h, Nat.min_self]

theorem getElem_xorBytes {i : Nat} (hi : i < a.length) :
    (xorBytes a k)[i]'(by rwa [length_xorBytes h]) = a[i] ^^^ k[i] := List.getElem_zipWith

theorem getD_xorBytes {i : Nat} (hi : i < a.length) : (xorBytes a k).getD i 0 = a.getD i 0 ^^^ k.getD i 0 := by
  rw [List.getD_eq_getElem _ _ (by rwa [length_xorBytes h]), List.getD_eq_getElem _ _ hi,
    List.getD_eq_getElem _ _ (h ▸ hi), getElem_xorBytes h hi]

theorem xorBytes_xorBytes_self : xorBytes (xorBytes a k) k = a := by
  have hl := length_xorBytes h
  refine List.ext_getElem ((length_xorBytes (hl.trans h)).trans hl) fun i _ hi => ?_
  rw [getElem_xorBytes (hl.trans h) (hl.symm ▸ hi), getElem_xorBytes h hi, xor_cancel_right]

end xorBytes

/-- Settles O12: each of the three forms is bytewise, and a byte twice is the identity. The key addition is the form
for blocks. -/
theorem xorTwiceIsIdentity : Obligations.XorTwiceIsIdentity := by
  have hblock (a k : Block) (i : Fin 16) : (xorBlock a k)[i] = a[i] ^^^ k[i] := getElem_xorBlock a k i i.isLt
  have hquad (a k : Quad) (i : Fin 4) : (xorQuad a k)[i] = a[i] ^^^ k[i] := getElem_xorQuad a k i i.isLt
  refine ⟨fun a k => ⟨hblock a k, xorBlock_xorBlock_self a k, hblock a k, xorBlock_xorBlock_self a k⟩,
    fun a k => ⟨hquad a k, xorQuad_xorQuad_self a k⟩, fun a k h => ?_⟩
  exact ⟨length_xorBytes h, fun _ hi => getD_xorBytes h hi, xorBytes_xorBytes_self h⟩

/-! ### The token rewiring -/

/-- The rewiring by the inverse permutation is the encoder's rewiring (R82, R93). -/
theorem permuteBits_of_inverse {v : Variant} (hv : v.wf = true) {q : Perm} (hq : ∀ j : Fin 8, q[v.perm[j]] = j)
    (t : Byte) : permuteBits q t = unpermuteBits v.perm t :=
  byte_ext fun k => by
    obtain ⟨j, rfl⟩ := perm_surjective hv k
    rw [getLsbD_permuteBits, hq, getLsbD_unpermuteBits hv]

/-- A byte whose bits are all alike is fixed by every rewiring (R93). -/
theorem permuteBits_of_constant {t : Byte} {b : Bool} (ht : ∀ j : Fin 8, t.getLsbD j.val = b) (perm : Perm) :
    permuteBits perm t = t :=
  byte_ext fun j => by rw [getLsbD_permuteBits, ht, ht]

theorem permuteBits_bijective {v : Variant} (hv : v.wf = true) : Function.Bijective (permuteBits v.perm) :=
  Function.bijective_iff_has_inverse.2
    ⟨unpermuteBits v.perm, unpermuteBits_permuteBits hv, permuteBits_unpermuteBits hv⟩

/-- Settles O13: the encoder's rewiring is the inverse, and the inverse permutation's rewiring is that one; the
examples are evaluated. -/
theorem permuteBitsIsBijection : Obligations.PermuteBitsIsBijection := by
  refine ⟨fun v hv => ⟨getLsbD_permuteBits v.perm, permuteBits_bijective hv,
    fun t => ⟨unpermuteBits_permuteBits hv t, permuteBits_unpermuteBits hv t⟩, fun q hq t => ?_,
    permuteBits_of_constant (b := false) (by decide) _, permuteBits_of_constant (b := true) (by decide) _⟩, by decide⟩
  rw [permuteBits_of_inverse hv hq, permuteBits_of_inverse hv hq]
  exact ⟨unpermuteBits_permuteBits hv t, permuteBits_unpermuteBits hv t⟩

end Sys2Proof.Machine
end
section
/-!
The block primitive (spec/41_cipher_block.md): the key schedule by its recurrence (R101), the steps of a round byte by
byte (R102 to R105), the ten rounds (R106), and when the whole is a permutation (R107).
-/
namespace Sys2Proof.Machine

/-! ### The key schedule -/

/-- What word `i` of the schedule adds to word `i - 4`, from the word before it (R101). -/
def scheduleTerm (t : Table) (i : Nat) (prev : Quad) : Quad :=
  if i % 4 = 0 then scheduleWord t prev (rcon (i / 4 - 1)) else prev

/-- One step appends one word, and leaves the words before it (R101). -/
theorem scheduleStep_eq (t : Table) (ws : List Quad) :
    scheduleStep t ws = ws ++ [xorQuad (quadAt ws (ws.length - 4))
      (scheduleTerm t ws.length (quadAt ws (ws.length - 1)))] := rfl

/-- The first `n` words of the schedule of a key (R101): the key's four words, then the recurrence. -/
structure IsSchedule (key : Block) (t : Table) (n : Nat) (ws : List Quad) : Prop where
  length : ws.length = n
  key : ∀ i : Fin 16, (quadAt ws (i.val / 4))[i.val % 4] = key[i]
  recurrence : ∀ i, 4 ≤ i → i < n →
    quadAt ws i = xorQuad (quadAt ws (i - 4)) (scheduleTerm t i (quadAt ws (i - 1)))

/-- The schedule begins with the key's four words (R101). -/
theorem isSchedule_key (key : Block) (t : Table) :
    IsSchedule key t 4
      [#v[key[0], key[1], key[2], key[3]], #v[key[4], key[5], key[6], key[7]],
       #v[key[8], key[9], key[10], key[11]], #v[key[12], key[13], key[14], key[15]]] where
  length := rfl
  key i := by fin_cases i <;> rfl
  recurrence i h4 hlt := by omega

theorem IsSchedule.step {key : Block} {t : Table} {n : Nat} {ws : List Quad} (h : IsSchedule key t n ws)
    (hn : 4 ≤ n) :
    IsSchedule key t (n + 1) (scheduleStep t ws) where
  length := by rw [length_scheduleStep, h.length]
  key i := by
    rw [← h.key i, scheduleStep_eq, quadAt_append _ _ (by rw [h.length]; omega)]
  recurrence i h4 hlt := by
    have hl := h.length
    rw [scheduleStep_eq, quadAt_append _ _ (i := i - 4) (by omega), quadAt_append _ _ (i := i - 1) (by omega)]
    rcases Nat.lt_or_eq_of_le (Nat.le_of_lt_succ hlt) with hi | rfl
    · rw [quadAt_append _ _ (by omega), h.recurrence i h4 hi]
    · rw [← hl, quadAt_length]

/-- The forty steps give the 44 words (R101). -/
theorem isSchedule_keyWords (key : Block) (t : Table) : IsSchedule key t 44 (keyWords key t) :=
  forUpTo_induct (fun n ws => IsSchedule key t (n + 4) ws) _ _ 40 (isSchedule_key key t)
    fun _ _ _ h => h.step (by omega)

/-- The first round key is the key (R101). -/
theorem roundKey_zero (key : Block) (t : Table) : roundKey key t 0 = key :=
  Vector.ext fun i hi => by
    rw [roundKey, roundKeyOf_getElem _ _ _ hi]
    simpa using (isSchedule_keyWords key t).key ⟨i, hi⟩

/-- `RCON[k]` is 1 doubled `k` times (R101). -/
theorem rcon_eq_iterate_xtime : ∀ k < 10, rcon k = xtime^[k] 0x01#8 := by decide

/-- Settles O14: the words meet the recurrence, for every step of the schedule keeps it. -/
theorem keyScheduleRecurrence : Obligations.KeyScheduleRecurrence := fun key t =>
  have h := isSchedule_keyWords key t
  ⟨h.length, h.key, h.recurrence, fun r _ i => roundKeyOf_getElem _ r i i.isLt, roundKey_zero key t,
    rcon_eq_iterate_xtime⟩

/-! ### The steps of a round -/

@[simp] theorem getElem_subBytes (t : Table) (s : Block) (i : Nat) (h : i < 16) :
    (subBytes t s)[i] = tableAt t s[i] := by simp [subBytes]

theorem getElem_shiftRows (s : Block) (i : Nat) (h : i < 16) :
    (shiftRows s)[i] = s[i % 4 + 4 * ((i / 4 + i % 4) % 4)] := by simp [shiftRows]

@[simp] theorem getElem_addRoundKey (s rk : Block) (i : Nat) (h : i < 16) :
    (addRoundKey s rk)[i] = s[i] ^^^ rk[i] := getElem_xorBlock s rk i h

/-- Row `r` is rotated left by `r` columns (R103). -/
theorem shiftRows_row (s : Block) (r c : Fin 4) :
    (shiftRows s)[r.val + 4 * c.val] = s[r.val + 4 * ((c.val + r.val) % 4)] := by
  have hrow : (r.val + 4 * c.val) % 4 = r.val := by omega
  have hcol : (r.val + 4 * c.val) / 4 = c.val := by omega
  simp only [getElem_shiftRows, hrow, hcol]

/-- The shift written out (R103). -/
theorem toList_shiftRows (s : Block) : (shiftRows s).toList =
    [s[0], s[5], s[10], s[15], s[4], s[9], s[14], s[3], s[8], s[13], s[2], s[7], s[12], s[1], s[6], s[11]] := by
  rw [shiftRows, Vector.toList_ofFn]
  rfl

/-- Byte `r` of a mixed column (R104). -/
theorem mixColumns_column (s : Block) (c r : Fin 4) :
    (mixColumns s)[4 * c.val + r.val] =
      mixByte s[4 * c.val] s[4 * c.val + 1] s[4 * c.val + 2] s[4 * c.val + 3] r.val := by
  have hrow : (4 * c.val + r.val) % 4 = r.val := by omega
  have hcol : (4 * c.val + r.val) / 4 = c.val := by omega
  simp only [mixColumns, Vector.getElem_ofFn, hrow, hcol]

/-- Settles O15, by the byte of each step. -/
theorem roundStepsBytewise : Obligations.RoundStepsBytewise := fun t s rk =>
  ⟨fun i => getElem_subBytes t s i i.isLt, shiftRows_row s, toList_shiftRows s,
    fun c => ⟨mixColumns_column s c 0, mixColumns_column s c 1, mixColumns_column s c 2, mixColumns_column s c 3⟩,
    fun i => getElem_addRoundKey s rk i i.isLt⟩

/-! ### The ten rounds -/

/-- Round `k + 1` of the first nine (R106). -/
def fullRound (p : Profile) (k : Nat) (s : Block) : Block :=
  addRoundKey (mixColumns (shiftRows (subBytes p.sbox s))) (roundKey p.key p.sbox (k + 1))

/-- The tenth round (R106). -/
def lastRound (p : Profile) (s : Block) : Block :=
  addRoundKey (shiftRows (subBytes p.sbox s)) (roundKey p.key p.sbox 10)

theorem encryptBlock_eq (p : Profile) (x : Block) :
    encryptBlock p x = lastRound p (forUpTo 9 (fullRound p) (addRoundKey x (roundKey p.key p.sbox 0))) := rfl

/-- A sequence of states that makes the rounds is the loop's (R12). -/
theorem forUpTo_of_sequence {σ : Type} {body : Nat → σ → σ} {st : Nat → σ} {n : Nat}
    (h : ∀ k < n, st (k + 1) = body k (st k)) : forUpTo n body (st 0) = st n :=
  forUpTo_induct (fun k s => s = st k) body (st 0) n rfl fun k _ hk hs => hs ▸ (h k hk).symm

/-- Settles O16: the sequence's ninth state is the loop's. -/
theorem encryptBlockTenRounds : Obligations.EncryptBlockTenRounds := by
  intro p x st h0 hround
  have hloop : forUpTo 9 (fullRound p) (st 0) = st 9 :=
    forUpTo_of_sequence fun k hk => hround (k + 1) (by omega) (by omega)
  rw [encryptBlock_eq, ← h0, hloop, lastRound]

/-- With an S-box that is constant 0 the substitution and the shift leave nothing of the state (R106). -/
theorem lastRound_of_zero_sbox {p : Profile} (h : ∀ b, tableAt p.sbox b = 0#8) (s : Block) :
    lastRound p s = roundKey p.key p.sbox 10 :=
  Vector.ext fun i hi => by
    rw [lastRound, getElem_addRoundKey, getElem_shiftRows, getElem_subBytes, h, BitVec.zero_xor]

/-- Settles O17: the tenth round alone gives the last round key. -/
theorem zeroSboxGivesLastRoundKey : Obligations.ZeroSboxGivesLastRoundKey := fun p x h =>
  (encryptBlock_eq p x).trans (lastRound_of_zero_sbox h _)

/-! ### The shift and the mix step are invertible

A column is a function of its rows, so that both steps are said once for the four rows. -/

/-- The four bytes of column `c` by their rows (R100). -/
def column (s : Block) (c r : Fin 4) : Byte := s[4 * c.val + r.val]

theorem eq_of_column_eq {s s' : Block} (h : ∀ c, column s c = column s' c) : s = s' :=
  Vector.ext fun i hi => by
    have hi' : 4 * (i / 4) + i % 4 = i := by omega
    simpa only [column, hi'] using congrFun (h ⟨i / 4, by omega⟩) ⟨i % 4, by omega⟩

/-- The shift moves the byte in row `r` of column `c + r` to column `c` (R103). -/
theorem column_shiftRows (s : Block) (c r : Fin 4) : column (shiftRows s) c r = column s (c + r) r := by
  simpa only [column, Nat.add_comm, Fin.val_add] using shiftRows_row s r c

theorem shiftRows_injective : Function.Injective shiftRows := by
  intro s s' h
  have hback (u : Block) (c r : Fin 4) : column u c r = column (shiftRows u) (c - r) r := by
    rw [column_shiftRows, sub_add_cancel]
  exact eq_of_column_eq fun c => funext fun r => by rw [hback, h, ← hback]

/-- The doubling shifts, and adds the polynomial's byte if it shifts a bit out (R91). -/
theorem xtime_eq (x : Byte) : xtime x = (x <<< 1) ^^^ (bif x.getLsbD 7 then 0x1B#8 else 0#8) := by
  rw [xtime]
  cases x.getLsbD 7
  · exact BitVec.xor_zero.symm
  · rfl

/-- The doubling is additive (R91). -/
theorem xtime_xor (a b : Byte) : xtime (a ^^^ b) = xtime a ^^^ xtime b := by
  have hpoly (p q : Bool) : (bif p ^^ q then 0x1B#8 else 0#8) =
      (bif p then 0x1B#8 else 0#8) ^^^ (bif q then 0x1B#8 else 0#8) := by cases p <;> cases q <;> rfl
  rw [xtime_eq, xtime_eq, xtime_eq, BitVec.getLsbD_xor, hpoly, BitVec.shiftLeft_xor_distrib]
  ac_rfl

theorem byte_xor_left_comm (a b c : Byte) : a ^^^ (b ^^^ c) = b ^^^ (a ^^^ c) := by ac_rfl

/-- The sum of a column's bytes. -/
def columnSum (a : Fin 4 → Byte) : Byte := a 0 ^^^ a 1 ^^^ a 2 ^^^ a 3

/-- The mix step on one column (R104), the same for every row: the field's 2 and 3 are written by a doubling. -/
def mixColumn (a : Fin 4 → Byte) (r : Fin 4) : Byte := a r ^^^ columnSum a ^^^ xtime (a r ^^^ a (r + 1))

theorem mixByte_eq (a : Fin 4 → Byte) : ∀ r : Fin 4, mixByte (a 0) (a 1) (a 2) (a 3) r.val = mixColumn a r
  | 0 | 1 | 2 | 3 => by
    simp [mixByte, gmul3, mixColumn, columnSum, xtime_xor, BitVec.xor_assoc, BitVec.xor_comm, byte_xor_left_comm]

theorem column_mixColumns (s : Block) (c : Fin 4) : column (mixColumns s) c = mixColumn (column s c) :=
  funext fun r => (mixColumns_column s c r).trans (mixByte_eq (column s c) r)

theorem columnSum_xor (a b : Fin 4 → Byte) : columnSum (fun r => a r ^^^ b r) = columnSum a ^^^ columnSum b := by
  simp only [columnSum]
  ac_rfl

theorem columnSum_rotate (a : Fin 4 → Byte) : columnSum (fun r => a (r + 1)) = columnSum a := by
  simp only [columnSum, Fin.reduceAdd]
  ac_rfl

theorem columnSum_const (x : Byte) : columnSum (fun _ => x) = 0#8 := by simp [columnSum]

/-- The mix step keeps a column's sum: what it adds to each row cancels over the four, for every byte is doubled in two
rows. -/
theorem columnSum_mixColumn (a : Fin 4 → Byte) : columnSum (mixColumn a) = columnSum a := by
  have hmix : mixColumn a = fun r => (a r ^^^ columnSum a) ^^^ (xtime (a r) ^^^ xtime (a (r + 1))) :=
    funext fun r => by rw [mixColumn, xtime_xor]
  rw [hmix, columnSum_xor, columnSum_xor, columnSum_const, columnSum_xor, columnSum_rotate (fun r => xtime (a r)),
    BitVec.xor_self, BitVec.xor_zero, BitVec.xor_zero]

/-- Two mix steps add to each byte four times its sum with the byte two rows on. -/
theorem mixColumn_mixColumn (a : Fin 4 → Byte) (r : Fin 4) :
    mixColumn (mixColumn a) r = a r ^^^ xtime (xtime (a r ^^^ a (r + 2))) := by
  have hrow : r + 1 + 1 = r + 2 := by omega
  have hnext : mixColumn a r ^^^ mixColumn a (r + 1) = (a r ^^^ a (r + 1)) ^^^ xtime (a r ^^^ a (r + 2)) := by
    simp [mixColumn, hrow, xtime_xor, BitVec.xor_assoc, byte_xor_left_comm]
  rw [mixColumn, columnSum_mixColumn, hnext, xtime_xor (a r ^^^ a (r + 1)), mixColumn]
  simp [BitVec.xor_assoc, BitVec.xor_comm, byte_xor_left_comm]

/-- The mix step's order is 4: the sum of a byte with the one two rows on is the same after two steps. -/
theorem mixColumn_four (a : Fin 4 → Byte) : mixColumn (mixColumn (mixColumn (mixColumn a))) = a := by
  funext r
  have hrow : r + 2 + 2 = r := by omega
  simp [mixColumn_mixColumn, hrow, xtime_xor, BitVec.xor_assoc, BitVec.xor_comm]

theorem mixColumn_injective : Function.Injective mixColumn := fun a b h => by
  rw [← mixColumn_four a, h, mixColumn_four]

theorem mixColumns_injective : Function.Injective mixColumns := fun s s' h =>
  eq_of_column_eq fun c => mixColumn_injective (by rw [← column_mixColumns, h, column_mixColumns])

/-! ### When the block primitive is a permutation -/

theorem addRoundKey_injective (rk : Block) : Function.Injective (addRoundKey · rk) :=
  Function.LeftInverse.injective (g := (addRoundKey · rk)) fun s => xorBlock_xorBlock_self s rk

/-- The substitution of a block is injective just when the table is: a block of sixteen equal bytes shows a collision of
the table. -/
theorem subBytes_injective_iff (t : Table) : Function.Injective (subBytes t) ↔ Function.Injective (tableAt t) := by
  constructor
  · intro h a b hab
    have hrep : subBytes t (Vector.replicate 16 a) = subBytes t (Vector.replicate 16 b) :=
      Vector.ext fun i hi => by simpa using hab
    simpa using congrArg (·[0]) (h hrep)
  · intro h s s' hs
    exact Vector.ext fun i hi => h (by simpa using congrArg (·[i]) hs)

theorem forUpTo_injective {σ : Type} {body : Nat → σ → σ} (h : ∀ i, Function.Injective (body i)) (n : Nat) :
    Function.Injective (forUpTo n body) := by
  induction n with
  | zero => exact Function.injective_id
  | succ n ih => exact (h n).comp ih

/-- A loop forgets what its first turn forgets. -/
theorem forUpTo_succ_congr {σ : Type} {body : Nat → σ → σ} {s s' : σ} (h : body 0 s = body 0 s') (n : Nat) :
    forUpTo (n + 1) body s = forUpTo (n + 1) body s' := by
  induction n with
  | zero => exact h
  | succ n ih => rw [forUpTo_succ, ih, forUpTo_succ (n + 1) body s']

section
variable {p : Profile} (h : Function.Injective (subBytes p.sbox))
include h

theorem fullRound_injective (k : Nat) : Function.Injective (fullRound p k) :=
  (addRoundKey_injective _).comp (mixColumns_injective.comp (shiftRows_injective.comp h))

theorem lastRound_injective : Function.Injective (lastRound p) :=
  (addRoundKey_injective _).comp (shiftRows_injective.comp h)

theorem encryptBlock_injective : Function.Injective (encryptBlock p) :=
  (lastRound_injective h).comp ((forUpTo_injective (fullRound_injective h) 9).comp (addRoundKey_injective _))

end

/-- Two blocks that the first substitution makes equal are encrypted alike, once the first key addition is undone. -/
theorem encryptBlock_of_subBytes_eq {p : Profile} {s s' : Block} (h : subBytes p.sbox s = subBytes p.sbox s') :
    encryptBlock p (addRoundKey s (roundKey p.key p.sbox 0)) =
      encryptBlock p (addRoundKey s' (roundKey p.key p.sbox 0)) := by
  have hround : fullRound p 0 s = fullRound p 0 s' := by rw [fullRound, h, ← fullRound]
  have hundo (u : Block) : addRoundKey (addRoundKey u (roundKey p.key p.sbox 0)) (roundKey p.key p.sbox 0) = u :=
    xorBlock_xorBlock_self u _
  rw [encryptBlock_eq, encryptBlock_eq, hundo, hundo, forUpTo_succ_congr hround]

theorem encryptBlock_injective_iff (p : Profile) :
    Function.Injective (encryptBlock p) ↔ Function.Injective (subBytes p.sbox) :=
  ⟨fun h _ _ hs => addRoundKey_injective _ (h (encryptBlock_of_subBytes_eq hs)), encryptBlock_injective⟩

theorem finite_block : Finite Block :=
  Finite.of_injective (fun (s : Block) (i : Fin 16) => s[i]) fun _ _ h => Vector.ext fun i hi => congrFun h ⟨i, hi⟩

/-- Settles O18: on finite sets a permutation is an injection, every other step is one, and a collision of the S-box is
one of the first round. -/
theorem encryptBlockPermutationIff : Obligations.EncryptBlockPermutationIff := by
  intro p
  have := finite_block
  calc Function.Bijective (encryptBlock p)
    _ ↔ Function.Injective (encryptBlock p) := Finite.injective_iff_bijective.symm
    _ ↔ Function.Injective (subBytes p.sbox) := encryptBlock_injective_iff p
    _ ↔ Function.Injective (tableAt p.sbox) := subBytes_injective_iff p.sbox
    _ ↔ Function.Bijective (tableAt p.sbox) := Finite.injective_iff_bijective

end Sys2Proof.Machine
end

section
/-!
DECRYPT in its rules' own terms (spec/42_cipher_modes.md R120 to R126): the feedback function, the stride table, the two
modes and the command, which restores IBUF when it is issued twice and makes the same of equal bytes.
-/
namespace Sys2Proof.Machine

variable {s t u : State}

/-! ### The feedback function -/

/-- A byte constant is its number modulo 256 (R9). -/
theorem byte_ofNat_mod (n : Nat) : BitVec.ofNat 8 (n % 256) = BitVec.ofNat 8 n :=
  BitVec.eq_of_toNat_eq (Nat.mod_mod n 256)

/-- Settles O19: the definition byte by byte, with its constants reduced to bytes. -/
theorem feedbackBytewise : Obligations.FeedbackBytewise := by
  refine ⟨fun p ks i => ?_, by decide⟩
  rw [byte_ofNat_mod]
  exact Vector.getElem_ofFn i.isLt

/-! ### The stride parameters -/

/-- A sample has `q` bytes exactly while `q` bytes of every block fit SCRATCH and `q + 1` do not (R122). -/
theorem strideStep_eq {n q : Nat} (hq : 1 ≤ q) (hfit : q * numBlocks n ≤ 256) (hmax : 256 < (q + 1) * numBlocks n) :
    strideStep n = q := by
  rw [strideStep, Nat.div_eq_of_lt_le hfit hmax, Nat.max_eq_right hq]

/-- Past 128 blocks a sample is one byte, also where the quotient is 0 (R122). -/
theorem strideStep_eq_one {n : Nat} (h : 129 ≤ numBlocks n) : strideStep n = 1 :=
  Nat.max_eq_left (Nat.le_of_lt_succ (Nat.div_lt_of_lt_mul (by omega)))

theorem sixteen_le_numBlocks {n : Nat} (hn : 256 < n) : 16 ≤ numBlocks n := by
  unfold numBlocks
  omega

/-- Settles O21: every row of the table is the range of block numbers with its quotient. -/
theorem strideTable : Obligations.StrideTable := by
  intro n hn
  refine ⟨rfl, rfl, rfl, sixteen_le_numBlocks hn, strideStep_pos n, strideStep_le hn, strideStep_mul_strideCount_le n,
    ?_, ?_, ?_, ?_, ?_, ?_, ?_, ?_, ?_, ?_, ?_, ?_, ?_, ?_, ?_, strideStep_eq_one,
    Nat.min_eq_left, fun h => Nat.min_eq_right (by omega)⟩ <;>
  · intro h
    exact strideStep_eq (by decide) (by omega) (by omega)

/-! ### The two modes -/

/-- No register is among what a loop of unit C changes (R121). -/
theorem Changes.readReg {sp : Space} {R : Nat → Prop} (h : Changes sp R s u) (r : Nat) : u.readReg r = s.readReg r :=
  State.readReg_congr h.status h.err h.errInfo h.len h.expected h.variant h.produced r

/-- Settles O20: the bytes of the space by the keystream string, and the rest by the change the mode is. -/
theorem smallModeXorsKeystream : Obligations.SmallModeXorsKeystream := fun s sp n =>
  have hc := decryptSmall_changes sp n s
  ⟨fun a ha => by rw [decryptSmall_readByte, if_pos ha], fun _ ha => hc.readByte_same (Nat.not_lt.2 ha),
    fun _ a hne => hc.readByte_ne hne a, hc.readReg⟩

theorem DecryptFrame.readByte_obuf {n : Nat} (h : DecryptFrame n s u) (a : Nat) :
    u.readByte .obuf a = s.readByte .obuf a := by
  rw [h.eq]
  rfl

theorem DecryptFrame.readReg {n : Nat} (h : DecryptFrame n s u) (r : Nat) : u.readReg r = s.readReg r := by
  rw [h.eq]
  rfl

/-- Byte `k` of sample `j` stands in block `j` at place `k` (R123). -/
theorem sample_div_mod {n j k : Nat} (hn : 256 < n) (hk : k < strideStep n) :
    (16 * j + k) / 16 = j ∧ (16 * j + k) % 16 = k := by
  have := strideStep_le hn
  omega

/-- In large-buffer mode the touched bytes are the sampled ones (R123). -/
theorem touches_iff_sampled {n : Nat} (hn : 256 < n) (a : Nat) :
    touches n a = true ↔ ∃ j k, j < strideCount n ∧ k < strideStep n ∧ a = 16 * j + k := by
  rw [touches_large hn]
  constructor
  · rintro ⟨hj, hk⟩
    exact ⟨a / 16, a % 16, hj, hk, (Nat.div_add_mod a 16).symm⟩
  · rintro ⟨j, k, hj, hk, rfl⟩
    rw [(sample_div_mod hn hk).1, (sample_div_mod hn hk).2]
    exact ⟨hj, hk⟩

/-- Settles O22: the sampled bytes are the touched ones, which the keystream reaches, and the mode keeps to its frame. -/
theorem largeModeTouchesSamples : Obligations.LargeModeTouchesSamples := by
  intro s n hn
  have hf := decryptLarge_frame hn s
  refine ⟨fun j k hj hk => ?_, fun a ha => ?_, hf.readByte_obuf, hf.readReg⟩
  · have ht : touches n (16 * j + k) = true := (touches_iff_sampled hn _).2 ⟨j, k, hj, hk, rfl⟩
    obtain ⟨hdiv, hmod⟩ := sample_div_mod (j := j) hn hk
    refine ⟨lt_of_touches ht, ?_⟩
    rw [decryptLarge_readByte hn s ht, hdiv, hmod]
  · refine hf.readByte_ibuf (Bool.eq_false_iff.2 fun ht => ?_)
    obtain ⟨j, k, hj, hk, hjk⟩ := (touches_iff_sampled hn a).1 ht
    exact ha j k hj hk hjk

/-! ### The command -/

/-- Settles O24, by the command's bytes and by what it changes. -/
theorem decryptCompletes : Obligations.DecryptCompletes := fun _ _ hl =>
  ⟨_, rfl, decryptCommand_readByte hl, decryptCommand_eq hl⟩

/-- Settles O27: both results are written in the length, the profile and the bytes before the command, which agree. -/
theorem decryptDeterministic : Obligations.DecryptDeterministic := by
  rintro s s' t t' - - hp hlen hl hl' hbytes ht ht'
  obtain rfl : decryptCommand s = t := Host.Outcome.next.inj ht
  obtain rfl : decryptCommand s' = t' := Host.Outcome.next.inj ht'
  have hn : s.opLen = s'.opLen := congrArg BitVec.toNat hlen
  have hs : s'.opLen ≤ s'.params.ibufCap := hn ▸ hl'
  refine ⟨?_, ?_, fun a ha => ?_⟩
  · rw [decryptCommand_eq hl, decryptCommand_eq hs]
  · rw [decryptCommand_eq hl, decryptCommand_eq hs, hn]
  · rw [decryptCommand_readByte hl, decryptCommand_readByte hs, hn, hp, hbytes a ha]

/-! ### Written bytes stay written -/

section written

variable {m : Nat}

theorem State.written_writeBytes (h : s.written m) (sp : Space) (a : Nat) (vs : List Byte) :
    (s.writeBytes sp a vs).written m := by
  induction vs generalizing s a with
  | nil => exact h
  | cons v vs ih => exact ih (State.written_writeByte h sp a v) (a + 1)

/-- A loop whose body leaves the written bytes written leaves them so. -/
theorem written_forUpTo {body : Nat → State → State} (hb : ∀ i v, v.written m → (body i v).written m) (h : s.written m)
    (k : Nat) : (forUpTo k body s).written m :=
  forUpTo_induct (fun _ v => v.written m) body s k h fun i v _ hv => hb i v hv

theorem written_cipherBlock (h : s.written m) (sp : Space) (n b : Nat) : (cipherBlock sp n b s).written m :=
  written_forUpTo (s := s.setWork s.c.feedback _ b s.c.sampleIdx) (fun _ _ hv => State.written_writeByte hv sp _ _) h _

theorem written_decryptSmall (h : s.written m) (sp : Space) (n : Nat) : (decryptSmall sp n s).written m :=
  written_forUpTo (s := s.setWork s.params.profile.iv s.c.ks s.c.blockIdx s.c.sampleIdx)
    (fun b _ hv => written_cipherBlock hv sp n b) h _

theorem written_gatherSample (h : s.written m) (step j : Nat) : (gatherSample step j s).written m := by
  rw [gatherSample_eq]
  exact State.written_writeBytes (s := s.setWork s.c.feedback s.c.ks s.c.blockIdx j) h _ _ _

theorem written_scatterSample (h : s.written m) (step j : Nat) : (scatterSample step j s).written m := by
  rw [scatterSample_eq]
  exact State.written_writeBytes (s := s.setWork s.c.feedback s.c.ks s.c.blockIdx j) h _ _ _

theorem written_decryptLarge (h : s.written m) (n : Nat) : (decryptLarge n s).written m :=
  written_forUpTo (fun j _ hv => written_scatterSample hv _ j)
    (written_decryptSmall (written_forUpTo (fun j _ hv => written_gatherSample hv _ j) h _) .scratch _) _

/-- A DECRYPT leaves the written bytes written, whether it completes or fails its check (R225, condition 2). -/
theorem written_decryptCommand (h : s.written m) : (decryptCommand s).written m := by
  unfold decryptCommand decryptBuffer
  split
  · split
    · exact written_decryptSmall h .ibuf _
    · exact written_decryptLarge h _
  · exact h

end written

/-! ### DECRYPT twice -/

/-- A DECRYPT leaves the operand register `LEN` as it was (R124). -/
theorem decryptCommand_len (s : State) : (decryptCommand s).len = s.len := by
  rcases Nat.lt_or_ge s.params.ibufCap s.opLen with h | h
  · rw [decryptCommand_of_outOfRange h]
    rfl
  · rw [decryptCommand_eq h]

/-- A DECRYPT on the bytes another one left, with the same length and profile, restores the bytes before it: exclusive or
twice where it touches them, and nothing where it does not or where the length is out of range (R125). -/
theorem decryptCommand_restores (hlen : t.opLen = s.opLen) (hp : t.params = s.params)
    (hbytes : ∀ a, t.readByte .ibuf a = (decryptCommand s).readByte .ibuf a) (a : Nat) :
    (decryptCommand t).readByte .ibuf a = s.readByte .ibuf a := by
  rcases Nat.lt_or_ge s.params.ibufCap s.opLen with h | h
  · rw [decryptCommand_of_outOfRange (by rwa [hlen, hp]), State.raise_readByte, hbytes, decryptCommand_of_outOfRange h,
      State.raise_readByte]
  · rw [decryptCommand_readByte (by rwa [hlen, hp]), hbytes, decryptCommand_readByte h, hlen, hp]
    split
    · rw [xor_cancel_right]
    · rfl

/-- A DECRYPT leaves a unit that is ready for the next command (R125, R225). -/
theorem State.Ready.decryptCommand (h : s.Ready) (w : Word) : (decryptCommand (s.issue w)).Ready where
  profile := by
    rw [(decryptCommand_sameDevice (s.issue w)).params]
    exact h.profile
  bytes := by
    rw [decryptCommand_len]
    exact written_decryptCommand (s := s.issue w) h.bytes
  idle := decryptCommand_not_busy _

/-- Settles O26: the first DECRYPT leaves a ready unit with the same `LEN` and profile, on which the second restores. -/
theorem decryptTwiceRestores : Obligations.DecryptTwiceRestores := by
  intro s hr
  have ht := hr.decryptCommand 0x00000001#32
  have hlen := decryptCommand_len (s.issue 0x00000001#32)
  have hp := (decryptCommand_sameDevice (s.issue 0x00000001#32)).params
  refine ⟨_, _, runStatement_decrypt hr.idle, ht, hlen, runStatement_decrypt ht.idle, fun a => ?_⟩
  exact (decryptCommand_restores (s := s.issue 0x00000001#32) (t := State.issue _ 0x00000001#32)
    (congrArg BitVec.toNat hlen) hp (State.issue_readByte _ _ .ibuf) a).trans (s.issue_readByte _ .ibuf a)

end Sys2Proof.Machine
end
section
/-!
The two sequence forms and the end of a command as statements (spec/43_lz4_decompress.md R142 to R148): what stands in
OBUF after a literal run and after a match, each error of a sequence, and that every command ends.
-/
namespace Sys2Proof.Machine

variable {s t : State}

/-! ### The bytes of a literal run -/

/-- Where OBUF is as a literal run leaves it, the literal bytes stand at the old `op` and every other byte is as it was
(R142). -/
theorem State.obuf_of_literalRun {lits : List Byte}
    (h : ∀ a, t.readByte .obuf a = (s.literalRun lits).readByte .obuf a) :
    (∀ i, i < lits.length → t.readByte .obuf (s.z.op + i) = lits.getD i 0) ∧
      ∀ a, a < s.z.op ∨ s.z.op + lits.length ≤ a → t.readByte .obuf a = s.readByte .obuf a := by
  refine ⟨fun i hi => ?_, fun a ha => ?_⟩
  · rw [h, State.literalRun_readByte, if_pos ⟨rfl, by omega, by omega⟩, Nat.add_sub_cancel_left]
    rfl
  · rw [h, State.literalRun_readByte, if_neg (by omega)]

/-! ### A sequence between its literal run and its match -/

/-- The unit at the match of a sequence: the literal run executed, the offset and the match length read (R145). -/
def State.atMatch (s : State) (lits : List Byte) (off mlen : Nat) : State := (s.literalRun lits).matchFields off mlen

theorem State.atMatch_eq (s : State) (lits : List Byte) (off mlen : Nat) :
    s.atMatch lits off mlen = { s with
      obuf := s.obuf.putBytes s.z.op lits
      z := { s.z with
        ip := s.literalStart lits + lits.length + 2 + extCount (mlen - 4), op := s.z.op + lits.length
        lit := lits.length, mat := min (mlen - 4) 15, off := off, mlen := mlen } } := by
  rw [State.atMatch, State.literalRun_eq]
  rfl

@[simp] theorem State.atMatch_op (s : State) (lits : List Byte) (off mlen : Nat) :
    (s.atMatch lits off mlen).z.op = s.z.op + lits.length := rfl

@[simp] theorem State.atMatch_params (s : State) (lits : List Byte) (off mlen : Nat) :
    (s.atMatch lits off mlen).params = s.params := by rw [State.atMatch_eq]

theorem State.atMatch_readByte (s : State) (lits : List Byte) (off mlen a : Nat) :
    (s.atMatch lits off mlen).readByte .obuf a = (s.literalRun lits).readByte .obuf a := rfl

theorem extends_atMatch {lits : List Byte} (hf : s.literalFits lits = true) (off mlen : Nat) :
    Extends s (s.atMatch lits off mlen) := (extends_literalRun s lits hf).trans (extends_matchFields _ off mlen)

/-- A sequence whose literal run fits is its match after the run; the match reports the place of its first offset byte
(R144, R145). -/
theorem lz4Seq_of_fits {lits : List Byte} (off : BitVec 16) (mlen : Nat) (hf : s.literalFits lits = true) :
    lz4Seq lits off mlen s =
      (s.atMatch lits off.toNat mlen).matchCopy (s.literalStart lits + lits.length) off.toNat mlen := if_pos hf

/-! ### The match -/

/-- OBUF after a match that raises no error is OBUF after its copy (R144). -/
theorem State.matchCopy_readByte (q : Nat) {off mlen : Nat} (h1 : 1 ≤ off) (h2 : off ≤ s.z.op)
    (h3 : s.params.obufHolds (s.z.op + mlen) = true) (a : Nat) :
    (s.matchCopy q off mlen).readByte .obuf a = (s.copyMatch off mlen).readByte .obuf a := by
  have hc := s.copyMatch_changes off mlen
  rw [State.matchCopy_ok s q h1 h2 h3]
  exact State.readByte_congr a rfl hc.unit.symm hc.epoch.symm

/-- The errors of a match: its offset is checked before its length (R144). -/
theorem State.matchCopy_error (q : Nat) {off mlen : Nat}
    (h : off = 0 ∨ s.z.op < off ∨ s.params.obufHolds (s.z.op + mlen) = false) :
    s.matchCopy q off mlen =
      s.raiseStream (if off = 0 ∨ s.z.op < off then .badOffset else .outputOverrun) q := by
  unfold State.matchCopy
  split
  · rfl
  · next hoff =>
    have hfit : ¬ s.params.obufHolds (s.z.op + mlen) = true := by
      rw [Bool.not_eq_true]
      tauto
    rw [if_neg hfit]

/-! ### The literal run that does not fit -/

/-- A literal run that does not fit OBUF ends a sequence before anything is copied (R142). -/
theorem lz4Seq_of_not_fits {lits : List Byte} (off : BitVec 16) (mlen : Nat) (hf : ¬ s.literalFits lits = true) :
    lz4Seq lits off mlen s = s.raiseStream .outputOverrun (s.literalStart lits) := if_neg hf

theorem lz4End_of_not_fits {lits : List Byte} (m : BitVec 4) (hf : ¬ s.literalFits lits = true) :
    lz4End lits m s = s.raiseStream .outputOverrun (s.literalStart lits) := if_neg hf

/-! ### A sequence the stream's end cuts -/

theorem sequenceStep_of_truncated {pos : Nat} {run : Option (List Byte)}
    (h : decodeSequence s.z.sel s.streamRest = .reject (.truncated pos run)) :
    sequenceStep s = truncatedSequence pos run s := by
  simp only [sequenceStep, State.fetchSequence, h, rejected]

/-- A complete literal run that fits is executed before the truncation is raised (R145, R195). -/
theorem truncatedSequence_of_fits (pos : Nat) {lits : List Byte} (hf : s.literalFits lits = true) :
    truncatedSequence pos (some lits) s = (s.literalRun lits).raiseStream .truncated (s.z.ip + pos) := if_pos hf

/-- A complete literal run that does not fit is reported in place of the truncation (R142, R145). -/
theorem truncatedSequence_of_not_fits (pos : Nat) {lits : List Byte} (hf : ¬ s.literalFits lits = true) :
    truncatedSequence pos (some lits) s = s.raiseStream .outputOverrun (s.literalStart lits) := if_neg hf

theorem truncatedSequence_status (pos : Nat) (run : Option (List Byte)) (s : State) :
    (truncatedSequence pos run s).status = .error := by
  cases run with
  | none => rfl
  | some lits =>
    by_cases hf : s.literalFits lits = true
    · rw [truncatedSequence_of_fits pos hf, State.raiseStream_status]
    · rw [truncatedSequence_of_not_fits pos hf, State.raiseStream_status]

/-! ### The end of a command -/

/-- A command has ended with a report that agrees with its state (R29, R173, R195). -/
def Completed (t : State) : Prop :=
  t.z.running = false ∧ ((t.status = .done ∧ t.err = .none) ∨ (t.status = .error ∧ t.err ≠ .none))

theorem completed_raise (s : State) {e : ErrCode} (he : e ≠ .none) (info : Nat) : Completed (s.raise e info) :=
  ⟨rfl, .inr ⟨rfl, he⟩⟩

theorem Ended.completed (h : Ended t) : Completed t := by
  refine ⟨h.running, h.outcome.imp (fun hd => ⟨hd.1, hd.2.1⟩) fun he => ⟨he.1, ?_⟩⟩
  rcases he.2 with he | he | he | he <;> simp [he]

theorem completed_decryptCommand (s : State) : Completed (decryptCommand s) := by
  rcases Nat.lt_or_ge s.params.ibufCap s.opLen with hl | hl
  · rw [decryptCommand_of_outOfRange hl]
    exact completed_raise s (by decide) _
  · rw [decryptCommand_of_inRange hl]
    exact ⟨rfl, .inl ⟨rfl, rfl⟩⟩

theorem completed_decompressCommand (s : State) : Completed (decompressCommand s) := by
  obtain ⟨-, h⟩ | ⟨-, -, h⟩ | ⟨v, -, -, -, h⟩ := decompressCommand_cases s
  · rw [h]; exact completed_raise s (by decide) _
  · rw [h]; exact completed_raise _ (by decide) _
  · exact h.completed

/-! ### The statements -/

/-- Settles O39: the repeated bytes by induction over the copy, the rest by the change the copy is. -/
theorem matchCopyRepeats : Obligations.MatchCopyRepeats := fun s off mlen h1 h2 =>
  ⟨fun _ hk => State.copyMatch_readByte h1 h2 hk,
    fun _ ha => (s.copyMatch_changes off mlen).readByte_same (by omega), s.copyMatch_eq off mlen⟩

/-- Settles O40: the literal run, and after it a match that raises no error. -/
theorem sequenceCompletes : Obligations.SequenceCompletes := by
  intro lits off mlen s hfit h1 h2
  have hf : s.literalFits lits = true := Params.obufHolds_mono (Nat.le_add_right _ mlen) hfit
  have hfit' : (s.atMatch lits off.toNat mlen).params.obufHolds (s.z.op + lits.length + mlen) = true := by
    rwa [State.atMatch_params]
  have hc := (s.atMatch lits off.toNat mlen).copyMatch_changes off.toNat mlen
  have hcopy (a : Nat) : (lz4Seq lits off mlen s).readByte .obuf a =
      ((s.atMatch lits off.toNat mlen).copyMatch off.toNat mlen).readByte .obuf a := by
    rw [lz4Seq_of_fits off mlen hf]
    exact State.matchCopy_readByte _ h1 h2 hfit' a
  have hbefore {a : Nat} (ha : a < s.z.op + lits.length ∨ s.z.op + lits.length + mlen ≤ a) :
      (lz4Seq lits off mlen s).readByte .obuf a = (s.literalRun lits).readByte .obuf a :=
    (hcopy a).trans (hc.readByte_same (by rw [State.atMatch_op]; omega))
  obtain ⟨hlits, hrest⟩ := State.obuf_of_literalRun (s := s) (t := s.literalRun lits) fun _ => rfl
  refine ⟨_, rfl, fun i hi => ?_, fun k hk => ?_, fun a ha => ?_, ?_⟩
  · rw [hbefore (.inl (by omega)), hlits i hi]
  · have hmod : k % off.toNat < off.toNat := Nat.mod_lt k h1
    rw [hcopy, hbefore (a := s.z.op + lits.length + k % off.toNat - off.toNat) (.inl (by omega))]
    exact State.copyMatch_readByte (s := s.atMatch lits off.toNat mlen) h1 h2 hk
  · rw [hbefore (by omega), hrest a (by omega)]
  · have hip : s.z.ip + (1 + extCount lits.length + lits.length + 2 + extCount (mlen - 4)) =
        s.literalStart lits + lits.length + 2 + extCount (mlen - 4) := by rw [State.literalStart]; omega
    rw [lz4Seq_of_fits off mlen hf, State.matchCopy_ok _ _ h1 h2 hfit', State.atMatch_eq, hip]

/-- Settles O41: the literal run's error before anything is copied, the match's errors after the run. -/
theorem sequenceErrors : Obligations.SequenceErrors := by
  refine fun lits off mlen m s => ⟨fun hf i hi => ?_, fun hf hbad => ?_⟩
  · have hf' : ¬ s.literalFits lits = true := Bool.not_eq_true _ ▸ hf
    rcases hi with rfl | rfl
    · exact congrArg Host.Outcome.next (lz4Seq_of_not_fits off mlen hf')
    · exact congrArg Host.Outcome.next (lz4End_of_not_fits m hf')
  have hm := State.matchCopy_error (s := s.atMatch lits off.toNat mlen) (off := off.toNat) (mlen := mlen)
    (s.literalStart lits + lits.length) (by rwa [State.atMatch_op, State.atMatch_params])
  obtain ⟨hlits, hrest⟩ := State.obuf_of_literalRun (s := s) (lits := lits)
    fun a => State.raiseStream_readByte (s.atMatch lits off.toNat mlen) _ _ .obuf a
  refine ⟨_, congrArg Host.Outcome.next ((lz4Seq_of_fits off mlen hf).trans hm), hlits, hrest, rfl, rfl, ?_⟩
  exact ((extends_atMatch hf off.toNat mlen).trans (extends_raiseStream _ _ _)).eq_update

/-- Settles O42: the literal run, then the size check. -/
theorem lastSequenceCompletes : Obligations.LastSequenceCompletes := by
  intro lits m s hf
  have he := extends_literalRun s lits hf
  have hexp : s.latch.expected.toNat = (s.literalRun lits).opExpected := congrArg (·.expected.toNat) he.latch.symm
  have ht := (he.trans (extends_finishStream _)).eq_update
  obtain ⟨hlits, hrest⟩ := State.obuf_of_literalRun ((s.literalRun lits).finishStream_readByte .obuf)
  refine ⟨_, congrArg Host.Outcome.next (lz4End_of_fits m hf), hlits, hrest, State.finishStream_op _,
    State.finishStream_running _, ?_, fun m' => congrArg Host.Outcome.next (lz4End_of_fits m' hf)⟩
  rw [hexp]
  rw [State.finishStream_eq] at ht ⊢
  exact ht

/-- Settles O43: by whether the literal run was complete, and whether it fits. -/
theorem truncatedSequenceRaises : Obligations.TruncatedSequenceRaises := by
  intro s pos run hr hrun hd
  obtain ⟨he, hend⟩ := truncatedSequence_cases pos run s
  refine ⟨_, (step_of_sequence hr.busy hrun).trans (congrArg Host.Outcome.next (sequenceStep_of_truncated hd)),
    truncatedSequence_status pos run s, hend.running, hend.produced, ?_, he.eq_update⟩
  cases run with
  | none => exact ⟨rfl, rfl, rfl, State.raiseStream_readByte s _ _ .obuf⟩
  | some lits =>
    simp only
    split
    · next hf =>
      rw [truncatedSequence_of_fits pos hf]
      obtain ⟨hlits, hrest⟩ := State.obuf_of_literalRun (s := s)
        ((s.literalRun lits).raiseStream_readByte .truncated (s.z.ip + pos) .obuf)
      exact ⟨rfl, rfl, rfl, hlits, hrest⟩
    · next hf =>
      rw [truncatedSequence_of_not_fits pos hf]
      exact ⟨rfl, rfl, rfl, State.raiseStream_readByte s _ _ .obuf⟩

/-- Settles O46: the two commands by how they end, the block's step by what it runs. -/
theorem commandsComplete : Obligations.CommandsComplete := by
  refine ⟨fun s i hi => ?_, fun s _ hr => ?_⟩
  · rcases hi with rfl | rfl
    · exact ⟨_, rfl, completed_decryptCommand s⟩
    · exact ⟨_, rfl, completed_decompressCommand s⟩
  · obtain ⟨t, ht, hs⟩ := step_blockStep s
    exact ⟨t, ht, hs.not_busy hr⟩

end Sys2Proof.Machine
end
section
/-!
What a DECOMPRESS makes of `EXPECTED` (spec/43_lz4_decompress.md R148, R149, R192): nothing but the answer of its size
check.
-/
namespace Sys2Proof.Machine

variable {s t : State}

/-! ### A stream under another `EXPECTED` -/

/-- The state with another latched `EXPECTED`. -/
def State.withExpected (s : State) (e : Word) : State := { s with latch := { s.latch with expected := e } }

/-- `t` is `s` but for the latched `EXPECTED`, or the two are what one unit's size check makes of the two values. -/
def AlikeToSizeCheck (e : Word) (s t : State) : Prop :=
  t = s.withExpected e ∨ ∃ u : State, s = u.finishStream ∧ t = (u.withExpected e).finishStream

section withExpected
variable (s : State) (e : Word)

theorem withExpected_output : (s.withExpected e).output = s.output := State.readBytes_congr fun _ _ _ => rfl

theorem withExpected_fetchSequence : (s.withExpected e).fetchSequence = s.fetchSequence :=
  congrArg (decodeSequence s.z.sel) (State.readBytes_congr fun _ _ _ => rfl)

theorem withExpected_literalRun (lits : List Byte) :
    (s.withExpected e).literalRun lits = (s.literalRun lits).withExpected e := by
  rw [State.literalRun_eq, State.literalRun_eq]
  rfl

theorem withExpected_copyMatch (off mlen : Nat) :
    (s.withExpected e).copyMatch off mlen = (s.copyMatch off mlen).withExpected e :=
  forUpTo_comm (g := fun u : State => u.withExpected e)
    (body := fun k u => u.writeByte .obuf (s.z.op + k) (u.readByte .obuf (s.z.op + k - off))) (fun _ _ => rfl) mlen s

theorem withExpected_branch {p : Prop} [Decidable p] (s₁ s₂ : State) :
    (if p then s₁.withExpected e else s₂.withExpected e) = (if p then s₁ else s₂).withExpected e :=
  (apply_ite (fun u : State => u.withExpected e) p s₁ s₂).symm

theorem withExpected_matchCopy (q off mlen : Nat) :
    (s.withExpected e).matchCopy q off mlen = (s.matchCopy q off mlen).withExpected e := by
  unfold State.matchCopy
  rw [withExpected_copyMatch, ← withExpected_branch, ← withExpected_branch]
  rfl

/-- A literal run that fits is executed and `f` goes on; one that does not raises `OutputOverrun` (R142). -/
theorem withExpected_guardedRun (lits : List Byte) {f : State → State}
    (hf : ∀ u : State, f (u.withExpected e) = (f u).withExpected e) :
    (if (s.withExpected e).literalFits lits then f ((s.withExpected e).literalRun lits)
      else (s.withExpected e).raiseStream .outputOverrun ((s.withExpected e).literalStart lits)) =
      (if s.literalFits lits then f (s.literalRun lits)
        else s.raiseStream .outputOverrun (s.literalStart lits)).withExpected e := by
  rw [withExpected_literalRun, hf, ← withExpected_branch]
  rfl

theorem withExpected_lz4Seq (lits : List Byte) (off : BitVec 16) (mlen : Nat) :
    lz4Seq lits off mlen (s.withExpected e) = (lz4Seq lits off mlen s).withExpected e :=
  withExpected_guardedRun s e lits (f := fun u => (u.matchFields off.toNat mlen).matchCopy u.z.ip off.toNat mlen)
    fun u => withExpected_matchCopy (u.matchFields off.toNat mlen) e u.z.ip off.toNat mlen

theorem withExpected_truncatedSequence (pos : Nat) (run : Option (List Byte)) :
    truncatedSequence pos run (s.withExpected e) = (truncatedSequence pos run s).withExpected e := by
  cases run with
  | none => rfl
  | some lits =>
    exact withExpected_guardedRun s e lits (f := fun u => u.raiseStream .truncated (s.z.ip + pos)) fun _ => rfl

/-- The last sequence is where the size check is made (R146, R192). -/
theorem alikeToSizeCheck_lz4End (lits : List Byte) (m : BitVec 4) :
    AlikeToSizeCheck e (lz4End lits m s) (lz4End lits m (s.withExpected e)) := by
  by_cases hf : s.literalFits lits = true
  · rw [lz4End_of_fits m hf, lz4End_of_fits (s := s.withExpected e) m hf, withExpected_literalRun]
    exact .inr ⟨_, rfl, rfl⟩
  · rw [lz4End_of_not_fits m hf, lz4End_of_not_fits (s := s.withExpected e) m hf]
    exact .inl rfl

theorem alikeToSizeCheck_sequenceStep : AlikeToSizeCheck e (sequenceStep s) (sequenceStep (s.withExpected e)) := by
  unfold sequenceStep
  rw [withExpected_fetchSequence]
  split
  · exact .inl (withExpected_lz4Seq s e _ _ _)
  · exact alikeToSizeCheck_lz4End s e _ _
  · next r hr =>
    obtain ⟨pos, run, rfl⟩ := decodeSequence_reject hr
    exact .inl (withExpected_truncatedSequence s e pos run)

/-- The stream loop takes one course up to the size check, whatever `EXPECTED` is (R147, R149). -/
theorem alikeToSizeCheck_runStream (fuel : Nat) :
    AlikeToSizeCheck e (runStream fuel s) (runStream fuel (s.withExpected e)) := by
  induction fuel generalizing s with
  | zero => exact .inl rfl
  | succ fuel ih =>
    cases hr : s.z.running with
    | false =>
      rw [runStream_of_not_running hr, runStream_of_not_running (s := s.withExpected e) hr]
      exact .inl rfl
    | true =>
      rw [runStream_succ hr, runStream_succ (s := s.withExpected e) hr]
      obtain h | ⟨u, hu, hu'⟩ := alikeToSizeCheck_sequenceStep s e
      · rw [h]
        exact ih _
      · rw [hu, hu', runStream_of_not_running u.finishStream_running,
          runStream_of_not_running (State.finishStream_running _)]
        exact .inr ⟨u, rfl, rfl⟩

end withExpected

/-! ### The report -/

/-- The unit reports that the whole stream was decoded: no error but the size check's (R192). -/
def State.ReachedSizeCheck (s : State) : Prop := s.err = .none ∨ s.err = .sizeMismatch

theorem State.reachedSizeCheck_finishStream (s : State) : s.finishStream.ReachedSizeCheck := by
  rw [State.finishStream_eq, State.ReachedSizeCheck]
  simp only
  split
  · exact .inl rfl
  · exact .inr rfl

namespace AlikeToSizeCheck

variable {e : Word}

theorem output (h : AlikeToSizeCheck e s t) : t.output = s.output := by
  obtain rfl | ⟨u, rfl, rfl⟩ := h
  · exact withExpected_output s e
  · rw [State.output_finishStream, State.output_finishStream, withExpected_output]

/-- The two report alike, or both reached the size check. -/
theorem report (h : AlikeToSizeCheck e s t) :
    (t.err = s.err ∧ t.errInfo = s.errInfo) ∨ (s.ReachedSizeCheck ∧ t.ReachedSizeCheck) := by
  obtain rfl | ⟨u, rfl, rfl⟩ := h
  · exact .inl ⟨rfl, rfl⟩
  · exact .inr ⟨u.reachedSizeCheck_finishStream, State.reachedSizeCheck_finishStream _⟩

end AlikeToSizeCheck

/-! ### Two DECOMPRESSes of one stream -/

/-- An issue clears the report (R171). -/
theorem State.IssuedReady.report (h : s.IssuedReady) : s.status = .busy ∧ s.err = .none ∧ s.errInfo = 0 := by
  obtain ⟨r, -, hs⟩ := h
  rw [hs]
  exact ⟨rfl, rfl, rfl⟩

/-- Two commands issued under R225's conditions with one stream, `LEN` and `OBUF_CAP` begin at the same point, once they
have the same `EXPECTED`. -/
theorem State.IssuedReady.sameCourse (hs : s.IssuedReady) (ht : t.IssuedReady) (hlen : s.latch.len = t.latch.len)
    (hcap : s.params.obufCap = t.params.obufCap)
    (hbytes : ∀ a, a < s.latch.len.toNat → s.readByte .ibuf a = t.readByte .ibuf a) (v : Variant) :
    SameCourse ((s.withExpected t.latch.expected).openStream v) (t.openStream v) := by
  obtain ⟨hst, herr, hinfo⟩ := hs.report
  obtain ⟨hst', herr', hinfo'⟩ := ht.report
  exact {
    obufCap := hcap.symm
    expected := rfl
    stream := by
      show State.readBytes _ .ibuf 0 t.latch.len.toNat = State.readBytes _ .ibuf 0 s.latch.len.toNat
      rw [← hlen]
      exact State.readBytes_congr fun a _ ha => (hbytes a (by omega)).symm
    sel := rfl
    ip := rfl
    output := rfl
    running := rfl
    status := hst'.trans hst.symm
    err := herr'.trans herr.symm
    errInfo := hinfo'.trans hinfo.symm }

/-- What two DECOMPRESSes of one stream under one variant leave (R149): the second is at the same point as some `u`,
which differs from the first by the answer of the size check, and not at all if `EXPECTED` is the same. -/
theorem decompressCommand_alike {v : Variant} (hs : s.IssuedReady) (ht : t.IssuedReady)
    (hlen : s.latch.len = t.latch.len) (hcap : s.params.obufCap = t.params.obufCap)
    (hbytes : ∀ a, a < s.latch.len.toNat → s.readByte .ibuf a = t.readByte .ibuf a)
    (hl : s.opLen ≤ s.params.ibufCap) (hl' : t.opLen ≤ t.params.ibufCap) (hv : s.opVariant? = some v)
    (hv' : t.opVariant? = some v) :
    ∃ u, AlikeToSizeCheck t.latch.expected (decompressCommand s) u ∧ SameCourse u (decompressCommand t) ∧
      (s.latch.expected = t.latch.expected → u = decompressCommand s) := by
  have hn : t.opLen = s.opLen := congrArg BitVec.toNat hlen.symm
  rw [decompressCommand_of_supported hl hv, decompressCommand_of_supported hl' hv', hn]
  exact ⟨_, alikeToSizeCheck_runStream (s.openStream v) t.latch.expected _,
    (hs.sameCourse ht hlen hcap hbytes v).runStream _, fun he => by rw [← he]; rfl⟩

/-- Settles O48: a code the profile does not have is reported before the stream is read; else the two take one course up
to the size check. -/
theorem outputIndependentOfExpected : Obligations.OutputIndependentOfExpected := by
  intro s s' t t' hs hs' hlen hvar hcap hl hl' hbytes ht ht'
  cases ht
  cases ht'
  rw [hlen] at hl'
  cases hv : s.opVariant? with
  | none =>
    have hd := decompressCommand_of_unsupported hl hv
    have hd' := decompressCommand_of_unsupported hl' (hvar ▸ hv)
    have herr : (decompressCommand s').err = (decompressCommand s).err := by rw [hd, hd']; rfl
    refine ⟨by rw [hd, hd']; rfl, fun h => absurd rfl h, by rw [herr], fun _ _ => herr,
      fun _ => ⟨by rw [hd, hd']; rfl, herr⟩, fun h => ?_⟩
    have hinfo : (decompressCommand s').errInfo = (decompressCommand s).errInfo := by
      rw [hd, hd', State.raise_errInfo, State.raise_errInfo, h.resolve_left fun h => h rfl]
    exact ⟨fun _ _ => hinfo, fun _ => hinfo⟩
  | some v =>
    have hv' : s'.opVariant? = some v := hvar ▸ hv
    obtain ⟨u, hu, hc, hexp⟩ := decompressCommand_alike hs hs' hlen hcap hbytes hl hl' hv hv'
    have hout := hc.output.trans hu.output
    have hop : (decompressCommand s).z.op = (decompressCommand s').z.op := by
      rw [← State.length_output, ← hout, State.length_output]
    have hprod := (ended_decompressCommand hl hv).produced
    have hprod' := (ended_decompressCommand hl' hv').produced
    refine ⟨by rw [hprod, hprod', hop], fun _ => ⟨hop, fun a ha => ?_⟩, ?_, fun h0 h1 => ?_, fun he => ?_,
      fun _ => ⟨fun h0 h1 => ?_, fun he => ?_⟩⟩
    · rw [← State.getD_output ha, ← hout, State.getD_output (hop ▸ ha)]
    · rw [hc.err]
      obtain ⟨herr, -⟩ | ⟨hd, hd'⟩ := hu.report
      · rw [herr]
      · exact iff_of_true hd hd'
    · obtain ⟨herr, -⟩ | ⟨hd, -⟩ := hu.report
      · exact hc.err.trans herr
      · exact absurd hd (not_or.2 ⟨h0, h1⟩)
    · have hu' := hexp he
      exact ⟨hu' ▸ hc.status, hu' ▸ hc.err⟩
    · obtain ⟨-, hinfo⟩ | ⟨hd, -⟩ := hu.report
      · exact hc.errInfo.trans hinfo
      · exact absurd hd (not_or.2 ⟨h0, h1⟩)
    · exact hexp he ▸ hc.errInfo

end Sys2Proof.Machine
end
section
/-!
The command interface (spec/44_host_commands.md R170 to R178): the issue, what the host may do while a command is in
progress, the transitions of `STATE`, and the wait for the end of a command.
-/
namespace Sys2Proof.Machine

variable {s t : State}

/-! ### The host's moves -/

/-- A register write answers nothing (R26). -/
theorem hostMove_writeReg (n : Nat) (v : Word) (s : State) :
    hostMove (.writeReg n v) s = .next (s.writeReg n v, .nothing) := rfl

/-- A register read has no side effect (R176). -/
theorem hostMove_readReg (n : Nat) (s : State) : hostMove (.readReg n) s = .next (s, .word (s.readReg n)) := rfl

theorem sysStep_writeReg (n : Nat) (v : Word) (s : State) :
    sysStep (.host (.writeReg n v)) s = .next (s.writeReg n v) := rfl

theorem State.writeReg_of_busy (hb : s.status = .busy) (n : Nat) (v : Word) : s.writeReg n v = s := if_pos hb

/-- Of all moves of the host only an issue changes `STATE` (R170, R171). -/
theorem HostEffect.status {m : HostMove} (h : HostEffect s m t) :
    t.status = s.status ∨ (s.status ≠ .busy ∧ t.status = .busy ∧ ∃ w, m = .writeReg 0 w) := by
  cases h with
  | issue w hb => exact .inr ⟨hb, rfl, w, rfl⟩
  | unchanged | setLen | setExpected | setVariant | draw | store => exact .inl rfl

/-! ### The block's part of a command -/

/-- What the block can do about a command: leave it as it is, `PRODUCED` too, or end one that is in progress (R170,
R173, R176). -/
def GoesOnOrEnds (s t : State) : Prop :=
  (t.status = s.status ∧ t.produced = s.produced) ∨ (s.status = .busy ∧ Completed t)

theorem Completed.done_or_error (h : Completed t) : t.status = .done ∨ t.status = .error :=
  h.2.imp And.left And.left

theorem decompressOpen_goesOnOrEnds (hb : s.status = .busy) : GoesOnOrEnds s (decompressOpen s) := by
  obtain ⟨-, h⟩ | ⟨-, -, h⟩ | ⟨v, -, -, h⟩ := decompressOpen_cases s <;> rw [h]
  · exact .inr ⟨hb, completed_raise s (by decide) _⟩
  · exact .inr ⟨hb, completed_raise _ (by decide) _⟩
  · exact .inl ⟨rfl, rfl⟩

theorem sequenceStep_goesOnOrEnds (hb : s.status = .busy) : GoesOnOrEnds s (sequenceStep s) := by
  obtain ⟨-, ⟨hg, -⟩ | hend⟩ := sequenceStep_cases s
  · exact .inl ⟨hg.status, hg.produced⟩
  · exact .inr ⟨hb, hend.completed⟩

theorem BlockStep.goesOnOrEnds (h : BlockStep s t) : GoesOnOrEnds s t := by
  cases h with
  | outside => exact .inl ⟨rfl, rfl⟩
  | sequence hb => exact sequenceStep_goesOnOrEnds hb
  | decrypt hb => exact .inr ⟨hb, completed_decryptCommand s⟩
  | decompress hb => exact .inr ⟨hb, completed_decompressCommand s⟩
  | illegal hb => exact .inr ⟨hb, completed_raise s (by decide) _⟩

theorem EventEffect.goesOnOrEnds {e : Event} (h : EventEffect s e t) (he : e = .block ∨ e = .beginDecompress) :
    GoesOnOrEnds s t := by
  cases h with
  | block hs => exact hs.goesOnOrEnds
  | noBegin => exact .inl ⟨rfl, rfl⟩
  | openDecompress hb => exact decompressOpen_goesOnOrEnds hb
  | reset | host | setProfile => simp at he

/-- The block leaves `PRODUCED` as it was for as long as the command is in progress (R176). -/
theorem GoesOnOrEnds.produced (h : GoesOnOrEnds s t) (hb : t.status = .busy) : t.produced = s.produced := by
  obtain ⟨-, hp⟩ | ⟨-, hc⟩ := h
  · exact hp
  · rcases hc.done_or_error with hd | he
    · simp [hd] at hb
    · simp [he] at hb

/-- A command issued and waited for is what its word decodes to, at the issued state (R71, R72, R178). -/
theorem runCommand_eq_stepDecoded (hb : s.status ≠ .busy) (w : Word) :
    runCommand w s = stepDecoded (decodeCommand w) (s.issue w) :=
  (runCommand_eq_step hb w).trans (step_issue s w)

/-! ### The report -/

/-- During a command the report and the operand registers read so (R176). -/
theorem State.Inv.readReg_of_busy (h : s.Inv) (hb : s.status = .busy) :
    s.readReg 1 = 1 ∧ s.readReg 2 = 0 ∧ s.readReg 3 = 0 ∧ s.readReg 4 = s.latch.len ∧
      s.readReg 5 = s.latch.expected ∧ s.readReg 6 = s.latch.variant := by
  have hne : s.status ≠ .error := by simp [hb]
  obtain ⟨hlen, hexp, hvar⟩ := h.latched hb
  refine ⟨?_, ?_, h.infoZero hne, hlen.symm, hexp.symm, hvar.symm⟩
  · show s.statusWord = 1
    rw [State.statusWord, hb]
    rfl
  · show s.errWord = 0
    rw [State.errWord, h.errIff.2 hne]
    rfl

/-- An error whose data is a register's word reports that word (R195). -/
theorem State.raise_word (s : State) (e : ErrCode) (w : Word) :
    s.raise e w.toNat = { s with status := .error, err := e, errInfo := w, z := { s.z with running := false } } := by
  rw [State.raise, BitVec.ofNat_toNat, BitVec.setWidth_eq]

/-! ### The statements -/

/-- Settles O7: the invariant says what the report and the latch hold during a command, and neither the issue nor a
step that leaves the command in progress writes `PRODUCED`. -/
theorem registerReadsWhileBusy : Obligations.RegisterReadsWhileBusy := by
  refine fun s => ⟨fun n => hostMove_readReg n s, State.Inv.readReg_of_busy, fun w hb => ?_, fun e t he _ h hb => ?_⟩
  · rw [State.writeReg_cmd hb]
    rfl
  · exact ((EventEffect.of_sysStep h).goesOnOrEnds he).produced hb

/-- Settles O53, by the effects an event can have: among the host's only the issue, among the block's only the end of
a command changes `STATE`. -/
theorem statusTransitions : Obligations.StatusTransitions := by
  refine fun e s t h => ⟨?_, ?_, fun hne => ?_⟩
  · rintro rfl
    cases h
    rfl
  · rintro w rfl
    cases (sysStep_writeReg 0 w s).symm.trans h
    exact ⟨fun hb => State.writeReg_of_busy hb 0 w, fun hb => by rw [State.writeReg_cmd hb, State.issue_status]⟩
  · have ends : e = .block ∨ e = .beginDecompress → s.status = .busy ∧ Completed t := fun he =>
      ((EventEffect.of_sysStep h).goesOnOrEnds he).resolve_left fun k => hne k.1
    cases EventEffect.of_sysStep h with
    | reset => exact .inl rfl
    | host hm =>
      obtain ⟨hb, ht, w, rfl⟩ := hm.status.resolve_left hne
      exact .inr (.inl ⟨hb, ht, w, rfl⟩)
    | block =>
      obtain ⟨hb, hc⟩ := ends (.inl rfl)
      exact .inr (.inr ⟨hb, hc.done_or_error, .inl rfl⟩)
    | openDecompress =>
      obtain ⟨hb, hc⟩ := ends (.inr rfl)
      exact .inr (.inr ⟨hb, hc.done_or_error, .inr rfl⟩)
    | noBegin | setProfile => exact absurd rfl hne

/-- Settles O58: the wait is the one step of the issued command, which runs what its word decodes to. -/
theorem waitReachesCommandEnd : Obligations.WaitReachesCommandEnd := by
  refine fun s hb => ⟨fun _ => ⟨runCommand_eq_stepDecoded hb _, runCommand_eq_stepDecoded hb _⟩, fun w h1 h2 => ?_⟩
  obtain ⟨h, -⟩ | ⟨h, -⟩ | ⟨-, -, hd⟩ := decodeCommand_cases w
  · exact absurd h h1
  · exact absurd h h2
  · rw [runCommand_eq_stepDecoded hb, hd, stepDecoded_reject, rejected]

/-- Settles O5: outside a command the write of `CMD` is the issue. -/
theorem issueLatchesOperands : Obligations.IssueLatchesOperands := by
  intro s w hb
  refine ⟨s.issue w, ?_, rfl, rfl, rfl, rfl, rfl⟩
  rw [hostMove_writeReg, State.writeReg_cmd hb]

/-- Settles O6, from the register write and the port write while BUSY. -/
theorem busyWritesIgnored : Obligations.BusyWritesIgnored := by
  refine fun s hb => ⟨fun n v => ?_, fun a v ha => ?_⟩
  · rw [hostMove_writeReg, State.writeReg_of_busy hb]
  · rw [hostMove_writeIbuf ha, State.writePort_of_busy hb]

/-- Settles O30: both commands make the length check first, and it raises the latched `LEN`. -/
theorem lengthRangeRaises : Obligations.LengthRangeRaises := by
  rintro s i (rfl | rfl) hl
  · exact congrArg Host.Outcome.next ((decryptCommand_of_outOfRange hl).trans (s.raise_word _ _))
  · exact congrArg Host.Outcome.next ((decompressCommand_of_outOfRange hl).trans (s.raise_word _ _))

/-- Settles O32: every step answers one of the states `BlockStep` lists. -/
theorem stepNeverStops : Obligations.StepNeverStops := fun s => (step_blockStep s).imp fun _ => And.left

end Sys2Proof.Machine
end
section
/-!
The errors (spec/60_exceptions.md R190, R193, R195, R201): which of them each instruction can end in, what they leave
unchanged, and how long the ERROR state lasts.
-/
namespace Sys2Proof.Machine

variable {s t : State}

/-! ### Which errors an instruction can end in -/

theorem decryptCommand_err (s : State) : (decryptCommand s).err = .none ∨ (decryptCommand s).err = .lengthRange := by
  rcases Nat.lt_or_ge s.params.ibufCap s.opLen with hl | hl
  · rw [decryptCommand_of_outOfRange hl]
    exact .inr rfl
  · rw [decryptCommand_of_inRange hl]
    exact .inl rfl

theorem Ended.err (h : Ended t) :
    t.err = .none ∨ t.err = .truncated ∨ t.err = .sizeMismatch ∨ t.err = .badOffset ∨ t.err = .outputOverrun :=
  h.outcome.imp (fun hd => hd.2.1) And.right

theorem decompressCommand_err (s : State) :
    (decompressCommand s).err = .none ∨ (decompressCommand s).err = .truncated ∨
      (decompressCommand s).err = .sizeMismatch ∨ (decompressCommand s).err = .unsupportedCompressionType ∨
      (decompressCommand s).err = .badOffset ∨ (decompressCommand s).err = .outputOverrun ∨
      (decompressCommand s).err = .lengthRange := by
  obtain ⟨-, h⟩ | ⟨-, -, h⟩ | ⟨v, -, -, -, h⟩ := decompressCommand_cases s
  · simp [h]
  · simp [h]
  · rcases h.err with he | he | he | he | he <;> simp [he]

/-- A match leaves `STATE` as it was, or ends the command in one of its two errors (R144). -/
theorem State.matchCopy_status_or_err (s : State) (q off mlen : Nat) :
    (s.matchCopy q off mlen).status = s.status ∨ (s.matchCopy q off mlen).err = .badOffset ∨
      (s.matchCopy q off mlen).err = .outputOverrun := by
  by_cases hbad : off = 0 ∨ s.z.op < off ∨ s.params.obufHolds (s.z.op + mlen) = false
  · rw [State.matchCopy_error q hbad, State.raiseStream_err]
    split
    · exact .inr (.inl rfl)
    · exact .inr (.inr rfl)
  · obtain ⟨h0, h2, h3⟩ : off ≠ 0 ∧ off ≤ s.z.op ∧ s.params.obufHolds (s.z.op + mlen) = true := by
      simpa [not_or] using hbad
    exact .inl (State.goesOn_matchCopy q (Nat.one_le_iff_ne_zero.2 h0) h2 h3).status

/-- `LZ4.SEQ` leaves `STATE` as it was, or ends the command in the error of its literal run or of its match (R145). -/
theorem lz4Seq_status_or_err (lits : List Byte) (off : BitVec 16) (mlen : Nat) (s : State) :
    (lz4Seq lits off mlen s).status = s.status ∨ (lz4Seq lits off mlen s).err = .badOffset ∨
      (lz4Seq lits off mlen s).err = .outputOverrun := by
  by_cases hf : s.literalFits lits = true
  · have hst : (s.atMatch lits off.toNat mlen).status = s.status := by rw [State.atMatch_eq]
    rw [lz4Seq_of_fits off mlen hf, ← hst]
    exact State.matchCopy_status_or_err _ _ _ _
  · rw [lz4Seq_of_not_fits off mlen hf]
    exact .inr (.inr rfl)

/-- `LZ4.END` ends in the size check's report, or in the error of its literal run (R146, R192). -/
theorem lz4End_err (lits : List Byte) (m : BitVec 4) (s : State) :
    (lz4End lits m s).err = .none ∨ (lz4End lits m s).err = .sizeMismatch ∨ (lz4End lits m s).err = .outputOverrun := by
  by_cases hf : s.literalFits lits = true
  · rw [lz4End_of_fits m hf]
    exact (State.reachedSizeCheck_finishStream _).imp_right .inl
  · rw [lz4End_of_not_fits m hf]
    exact .inr (.inr rfl)

/-! ### What an error leaves unchanged -/

/-- Of all steps of the block only a completed DECRYPT writes IBUF, and that one ends in DONE (R60, R195). -/
theorem BlockStep.readByte_ibuf_of_error (h : BlockStep s t) (he : t.status = .error) (a : Nat) :
    t.readByte .ibuf a = s.readByte .ibuf a := by
  cases h with
  | outside => rfl
  | sequence => exact (sequenceStep_cases s).1.readByte_ibuf a
  | decrypt =>
    rcases Nat.lt_or_ge s.params.ibufCap s.opLen with hl | hl
    · rw [decryptCommand_of_outOfRange hl, State.raise_readByte]
    · simp [decryptCommand_of_inRange hl] at he
  | decompress =>
    obtain ⟨-, h⟩ | ⟨-, -, h⟩ | ⟨v, -, -, hx, -⟩ := decompressCommand_cases s
    · rw [h, State.raise_readByte]
    · rw [h, State.raise_readByte, State.setProduced_readByte]
    · rw [hx.readByte_ibuf, State.openStream_readByte]
  | illegal => rw [State.raise_readByte]

/-! ### How long the ERROR state lasts -/

/-- The host reads the same `STATUS`, `ERR` and `ERRINFO` in both states. -/
def SameReport (s t : State) : Prop := t.status = s.status ∧ t.err = s.err ∧ t.errInfo = s.errInfo

/-- A host move other than an issue keeps the report (R171, R201). -/
theorem HostEffect.sameReport_or_issue {m : HostMove} (h : HostEffect s m t) :
    SameReport s t ∨ ∃ w, m = .writeReg 0 w := by
  cases h with
  | issue w => exact .inr ⟨w, rfl⟩
  | unchanged | setLen | setExpected | setVariant | draw | store => exact .inl ⟨rfl, rfl, rfl⟩

/-- Outside a command only a reset and an issue change the report (R170, R201). -/
theorem EventEffect.sameReport_or_reset_or_issue {e : Event} (h : EventEffect s e t) (hb : s.status ≠ .busy) :
    SameReport s t ∨ e = .reset ∨ ∃ w, e = .host (.writeReg 0 w) := by
  cases h with
  | reset => exact .inr (.inl rfl)
  | host hm =>
    obtain hs | ⟨w, rfl⟩ := hm.sameReport_or_issue
    · exact .inl hs
    · exact .inr (.inr ⟨w, rfl⟩)
  | block hs =>
    cases hs with
    | outside => exact .inl ⟨rfl, rfl, rfl⟩
    | sequence hb' | decrypt hb' | decompress hb' | illegal hb' => exact absurd hb' hb
  | openDecompress hb' => exact absurd hb' hb
  | noBegin | setProfile => exact .inl ⟨rfl, rfl, rfl⟩

/-- A command runs from its issue, so from outside a command the report before it is of no account (R171, R201). -/
theorem runCommand_congr_of_issue (w : Word) (hs : s.status ≠ .busy) (ht : t.status ≠ .busy)
    (h : s.issue w = t.issue w) : runCommand w s = runCommand w t := by
  rw [runCommand_eq_step hs, runCommand_eq_step ht, h]

/-! ### The statements -/

/-- Settles O55, by the ways each instruction can end. -/
theorem errorsOfEachInstruction : Obligations.ErrorsOfEachInstruction := by
  refine fun s t => ⟨fun h => ?_, fun h => ?_, fun lits off mlen h hne => ?_, fun lits m h => ?_⟩ <;> cases h
  · exact decryptCommand_err s
  · exact decompressCommand_err s
  · exact (lz4Seq_status_or_err lits off mlen s).resolve_left hne
  · exact lz4End_err lits m s

/-- Settles O56, from what each step of the block does. -/
theorem errorsLeaveIbuf : Obligations.ErrorsLeaveIbuf := fun _ _ _ h he a =>
  (BlockStep.of_step h).readByte_ibuf_of_error he a

/-- Settles O57: outside a command only a reset and an issue change the report, and an issue discards it. -/
theorem errorLastsUntilIssue : Obligations.ErrorLastsUntilIssue := by
  intro s he
  have hb : s.status ≠ .busy := by simp [he]
  refine ⟨fun e t h hne => ?_, fun w => ?_⟩
  · refine ((EventEffect.of_sysStep h).sameReport_or_reset_or_issue hb).resolve_left fun ⟨hs, herr, hinfo⟩ => ?_
    rcases hne with hne | hne | hne
    · exact hne (hs.trans he)
    · exact hne herr
    · exact hne hinfo
  · rw [State.writeReg_cmd hb]
    exact ⟨rfl, rfl, fun _ => runCommand_congr_of_issue w hb (by simp) rfl⟩

/-- Settles O45: the code is looked up before the stream is begun, and the error reports the latched code. -/
theorem unsupportedVariantRaises : Obligations.UnsupportedVariantRaises := fun s hl hv =>
  congrArg Host.Outcome.next ((decompressCommand_of_unsupported hl hv).trans ((s.setProduced 0).raise_word _ _))

end Sys2Proof.Machine
end

section
/-!
The state after a reset as the host sees it (spec/10_state.md R40, spec/70_reset_and_hazards.md R220 to R222).
-/
namespace Sys2Proof.Machine

variable (p : Params) (unit epoch draws : Nat)

/-- Every register reads 0: `STATUS` and `ERR` by the codes of IDLE and of no error (R28, R29), the reserved numbers
as ever (R32), the others because their field is cleared (R220). -/
theorem State.readReg_afterReset : ∀ n, (State.afterReset p unit epoch draws).readReg n = 0
  | 0 | 1 | 2 | 3 | 4 | 5 | 6 | 7 | _ + 8 => rfl

theorem State.mem_afterReset (sp : Space) : (State.afterReset p unit epoch draws).mem sp = [] := by cases sp <;> rfl

/-- Nobody has written a byte since the reset, so every read is of the byte's free value (R221, R61). -/
theorem State.readByte_afterReset (sp : Space) (a : Nat) :
    (State.afterReset p unit epoch draws).readByte sp a = Config.unwritten unit epoch sp a := by
  rw [State.readByte, State.mem_afterReset]
  rfl

/-- Settles O1, by what the state after a reset answers: a reset reaches it with the unit's own parameters, the first
one with the open parameters. -/
theorem resetClearsRegisters : Obligations.ResetClearsRegisters :=
  ⟨fun s => ⟨s.hostReset, rfl, rfl, rfl, State.readReg_afterReset _ _ _ _, rfl, rfl, State.readByte_afterReset _ _ _ _,
      rfl, rfl⟩,
    rfl, rfl, State.readReg_afterReset _ _ _ _, State.readByte_afterReset _ _ _ _, rfl, rfl⟩

end Sys2Proof.Machine
end
